-- ==== Sys2Proof/Word.lean ====
section
/-! DEFINITION. The widths of the format and of the register window: bytes, u16 fields, 32-bit words
(00_scope.md R8, 10_state.md R21). -/

namespace Sys2Proof

/-- A byte of IN, of OUT or of the format: an integer in [0, 255] (R8). -/
abbrev Byte := BitVec 8

/-- A u16 field: the section length and the DeltaIter count (R8, R63). -/
abbrev Half := BitVec 16

/-- A host register, and the units' 32-bit cursors (R21, R36, R38). -/
abbrev Word := BitVec 32

end Sys2Proof
end

