-- ==== Sys2Proof/Config.lean ====
section
/-! DEFINITION. The fixed parameters of the format (00_scope.md R5), the free values of the spec's
"any value" entries (93_implementation_defined.md Part 1), and the platform's open addresses (20_memory.md R67).
The capacities IN_CAP and OUT_CAP (R6) are arguments of every state (Machine/State.lean, `Caps`). -/

namespace Sys2Proof.Config

/-- `MAX_LEN`: the largest section payload in bytes (R5; UNVERIFIED against the repository, log 29). -/
def maxLen : Nat := 65535

/-- `HEADER_LEN`: type tag and 2-byte length (R5; UNVERIFIED, log 29). -/
def headerLen : Nat := 3

/-- `INSTR_LEN`: the bytes of a DeltaIter (R5; UNVERIFIED, log 29). -/
def instrLen : Nat := 5

/-- `THRESHOLD`: a run becomes an instruction iff its runLength is above it (R5; UNVERIFIED, log 29). -/
def threshold : Nat := 10

/-- `MAX_COUNT`: the largest DeltaIter count (R5; UNVERIFIED, log 29). -/
def maxCount : Nat := 65535

/-- `TYPE_DATA`: the section type tag of Data (R5; UNVERIFIED, log 29). -/
abbrev typeData : Byte := 0

/-- `TYPE_CODE`: the section type tag of Code (R5; UNVERIFIED, log 29). -/
abbrev typeCode : Byte := 1

/-- `TAG_DELTAITER`: the opcode tag of DeltaIter (R5; UNVERIFIED, log 29). -/
abbrev tagDeltaIter : Byte := 0

/-- The byte that draw `draw` gives at offset `off`: a free value. It stands for the contents of IN and OUT
that the spec calls unspecified (U5, U7 to U10). DESIGN CHOICE (log 1), safe: nothing constrains it. -/
opaque freeByte (draw off : Nat) : BitVec 8

/-- `REG_BASE`, the host address of the register window: OPEN (R67; log 19). -/
opaque regBase : Nat

/-- `IN_BASE`, the host address of IN: OPEN (R67; log 19). -/
opaque inBase : Nat

/-- `OUT_BASE`, the host address of OUT: OPEN (R67; log 19). -/
opaque outBase : Nat

end Sys2Proof.Config
end

