-- ==== Sys2Proof/Syntax.lean ====
section
/-! DEFINITION. The instructions: one constructor per row of opcode_table.json, at three levels of encoding
(30_encoding.md): section headers, the instructions of a Code payload, and the host's commands. -/

namespace Sys2Proof

/-- One constructor per row of the opcode table. A command carries the TYPE field of its CMD word (R22); only
ENCODE_HEADER, TRY_MAKE_SECTION and MAKE_SECTION read it. -/
inductive Instr where
  /-- DATA: header of a section of literal bytes (R81, R183). -/
  | data (length : Half)
  /-- CODE: header of a section of instructions (R81, R184). -/
  | code (length : Half)
  /-- DELTAITER startValue, count, delta (R84, R185). -/
  | deltaIter (startValue : Byte) (count : Half) (delta : Byte)
  /-- COMPRESS, OP 0x01 (R140). -/
  | compress (type : Byte)
  /-- DECOMPRESS, OP 0x02 (R180). -/
  | decompress (type : Byte)
  /-- ENCODE_HEADER, OP 0x03 (R101). -/
  | encodeHeader (type : Byte)
  /-- TRY_MAKE_SECTION, OP 0x04 (R103). -/
  | tryMakeSection (type : Byte)
  /-- MAKE_SECTION, OP 0x05 (R106). -/
  | makeSection (type : Byte)
  /-- READ_HEADER, OP 0x06 (R107). -/
  | readHeader (type : Byte)
  /-- READ_PAYLOAD, OP 0x07 (R109). -/
  | readPayload (type : Byte)
  /-- MERGE, OP 0x08 (R111). -/
  | merge (type : Byte)
deriving DecidableEq, Repr

/-- Where an instruction is encoded: the section stream of IN (R81), a Code payload (R84), or the CMD register
(R88). -/
inductive Level where
  | sectionStream
  | codePayload
  | cmdRegister
deriving DecidableEq, Repr

/-- The level an instruction belongs to. -/
def Instr.level : Instr → Level
  | .data _ => .sectionStream
  | .code _ => .sectionStream
  | .deltaIter _ _ _ => .codePayload
  | .compress _ => .cmdRegister
  | .decompress _ => .cmdRegister
  | .encodeHeader _ => .cmdRegister
  | .tryMakeSection _ => .cmdRegister
  | .makeSection _ => .cmdRegister
  | .readHeader _ => .cmdRegister
  | .readPayload _ => .cmdRegister
  | .merge _ => .cmdRegister

/-- Why bytes are no instruction, by name. -/
inductive DecodeError where
  /-- Fewer than 3 header bytes (R181). -/
  | truncatedHeader
  /-- A type byte in 0x02 to 0xFF (R82). -/
  | unknownSectionType (type : Byte)
  /-- A tag byte in 0x01 to 0xFF (R85). -/
  | unknownOpcode (tag : Byte)
  /-- Fewer than 5 bytes of a DeltaIter (R184). -/
  | truncatedInstruction
  /-- An OP of 0x00 or of 0x09 to 0xFF (R89). -/
  | badCommand (op : Byte)
  /-- Fewer than the 4 bytes of a CMD word. -/
  | truncatedCommand
deriving DecidableEq, Repr

end Sys2Proof
end

