-- ==== Sys2Proof/WellFormed.lean ====
section
/-! DEFINITION. Which instructions have legal operands (10_state.md R22, column "legal values"). Every length,
startValue, count and delta is legal (30_encoding.md R83, R86). The block still runs a command with an illegal TYPE: it
ends in Fatal(UnknownSectionType, 0) (40_section_framer.md R100). -/

namespace Sys2Proof

/-- TYPE is 0 (Data) or 1 (Code) (R22). -/
def legalType (type : Byte) : Bool := type = Config.typeData || type = Config.typeCode

/-- The operands are legal: TYPE, for the three commands that read it. -/
def Instr.wf : Instr → Bool
  | .data _ => true
  | .code _ => true
  | .deltaIter _ _ _ => true
  | .compress _ => true
  | .decompress _ => true
  | .encodeHeader type => legalType type
  | .tryMakeSection type => legalType type
  | .makeSection type => legalType type
  | .readHeader _ => true
  | .readPayload _ => true
  | .merge _ => true

end Sys2Proof
end

