-- ==== Sys2Proof/Decode.lean ====
section
/-! DEFINITION. Byte order (20_memory.md R63), the decoder of the three encodings (30_encoding.md R81, R84, R88),
total on any bytes, and after it the encoder. -/

namespace Sys2Proof

/-- `le16(lo, hi) = lo + 256 * hi` (R10). PRESUMED by the spec itself from general knowledge (G2; log 18). -/
def le16 (lo hi : Byte) : Half := hi ++ lo

/-- The low-order byte of a u16. -/
def loByte (v : Half) : Byte := v.extractLsb' 0 8

/-- The high-order byte of a u16. -/
def hiByte (v : Half) : Byte := v.extractLsb' 8 8

/-- `le16bytes(v) = [v mod 256, v div 256]` (R10). -/
def le16bytes (v : Half) : List Byte := [loByte v, hiByte v]

/-- A section header: type byte, then the length (R81, R82). -/
def decodeHeader : List Byte → Except DecodeError (Instr × List Byte)
  | type :: lo :: hi :: rest =>
    if type = Config.typeData then .ok (.data (le16 lo hi), rest)
    else if type = Config.typeCode then .ok (.code (le16 lo hi), rest)
    else .error (.unknownSectionType type)
  | _ => .error .truncatedHeader

/-- An instruction of a Code payload. The tag is read before the operands (R84, R85, R184). -/
def decodePayload : List Byte → Except DecodeError (Instr × List Byte)
  | [] => .error .truncatedInstruction
  | tag :: operands =>
    if tag = Config.tagDeltaIter then
      match operands with
      | start :: lo :: hi :: delta :: rest => .ok (.deltaIter start (le16 lo hi) delta, rest)
      | _ => .error .truncatedInstruction
    else .error (.unknownOpcode tag)

/-- The command that OP selects, with its TYPE (R88, R89). -/
def decodeOp (op type : Byte) : Except DecodeError Instr :=
  match op.toNat with
  | 1 => .ok (.compress type)
  | 2 => .ok (.decompress type)
  | 3 => .ok (.encodeHeader type)
  | 4 => .ok (.tryMakeSection type)
  | 5 => .ok (.makeSection type)
  | 6 => .ok (.readHeader type)
  | 7 => .ok (.readPayload type)
  | 8 => .ok (.merge type)
  | _ => .error (.badCommand op)

/-- A CMD word as its four bytes, OP first (R22, R33). Bits 31:16 are not decoded (R89). -/
def decodeCommand : List Byte → Except DecodeError (Instr × List Byte)
  | op :: type :: _ :: _ :: rest =>
    match decodeOp op type with
    | .ok i => .ok (i, rest)
    | .error e => .error e
  | _ => .error .truncatedCommand

/-- The instruction that bytes of a level begin with, and the bytes after it. -/
def decode : Level → List Byte → Except DecodeError (Instr × List Byte)
  | .sectionStream, bytes => decodeHeader bytes
  | .codePayload, bytes => decodePayload bytes
  | .cmdRegister, bytes => decodeCommand bytes

/-- `header(type, length)` as bytes (R81). -/
def headerBytes (type : Byte) (length : Half) : List Byte := type :: le16bytes length

/-- `deltaiter(s, c, d) = [0, s, c mod 256, c div 256, d]` (R84). -/
def deltaIterBytes (start : Byte) (count : Half) (delta : Byte) : List Byte :=
  [Config.tagDeltaIter, start, loByte count, hiByte count, delta]

/-- A CMD word's bytes: OP, TYPE and 16 reserved bits (R22). -/
def commandBytes (op type : Byte) : List Byte := [op, type, 0, 0]

/-- The words of an instruction, in bytes from the lowest offset (R81, R84, R88). -/
def encode : Instr → List Byte
  | .data length => headerBytes Config.typeData length
  | .code length => headerBytes Config.typeCode length
  | .deltaIter start count delta => deltaIterBytes start count delta
  | .compress type => commandBytes 0x01 type
  | .decompress type => commandBytes 0x02 type
  | .encodeHeader type => commandBytes 0x03 type
  | .tryMakeSection type => commandBytes 0x04 type
  | .makeSection type => commandBytes 0x05 type
  | .readHeader type => commandBytes 0x06 type
  | .readPayload type => commandBytes 0x07 type
  | .merge type => commandBytes 0x08 type

/-- The `n` low-order bytes of `w`, the least significant first (R81, R84: a word is read little-endian). -/
def numberBytes : Nat → Nat → List Byte
  | 0, _ => []
  | n + 1, w => BitVec.ofNat 8 w :: numberBytes n (w / 256)

/-- The level whose rows of the opcode table have `nbits` bits. -/
def levelOfBits (nbits : Nat) : Option Level :=
  if nbits = 24 then some .sectionStream
  else if nbits = 40 then some .codePayload
  else if nbits = 32 then some .cmdRegister
  else none

/-- The instruction the decoder reads from a row's bits, the bits above `nbits` zero. -/
def decodeTableWord (nbits w : Nat) : Option Instr :=
  match levelOfBits nbits with
  | none => none
  | some level =>
    match decode level (numberBytes (nbits / 8) w) with
    | .ok (i, _) => some i
    | .error _ => none

end Sys2Proof
end

