-- ==== Sys2Proof/Machine/State.lean ====
section
/-! DEFINITION. The machine's state: everything 10_state.md names, as plain data, the model's own fields, the reasons to
stop, and the state after reset (10_state.md R41). -/

namespace Sys2Proof.Machine

/-- The kinds of error a command can end with (60_exceptions.md R210; code 0, None, is no kind). -/
inductive ErrKind where
  | payloadTooLarge
  | typeMismatch
  | unknownSectionType
  | unknownOpcode
  | truncatedStream
  | truncatedInstruction
  | capacityExceeded
  | badCommand
deriving DecidableEq, Repr

/-- What `raise Fatal(kind, off)` reports (R11, R212). -/
structure FatalErr where
  kind : ErrKind
  off : Nat
deriving DecidableEq, Repr

/-- The type of a section (00_scope.md R13). -/
inductive SecType where
  | data
  | code
deriving DecidableEq, Repr

/-- A Section value: the pair of its type and its payload (R13, 90_conflicts.md C5). -/
structure Section where
  type : SecType
  payload : List Byte
deriving DecidableEq, Repr

/-- The contents of a byte buffer. `cells` lists the bytes that have a specified value, addresses strictly rising;
an unlisted byte is unspecified and reads as the free value of draw `epoch` at its offset (U5, U7, U8; log 1). -/
structure Memory where
  epoch : Nat
  cells : List Host.Cell
deriving DecidableEq, Repr

/-- The host registers that hold state (R21 to R31). CTRL holds none: it is a strobe that reads 0 (R23). -/
structure HostRegs where
  /-- CMD (R22). -/
  cmd : Word
  /-- STATUS (R24). -/
  status : Word
  /-- A_LEN (R25). -/
  aLen : Word
  /-- A_OFF (R26). -/
  aOff : Word
  /-- B_OFF (R27). -/
  bOff : Word
  /-- P_LEN (R28). -/
  pLen : Word
  /-- OUT_LEN (R29). -/
  outLen : Word
  /-- RES_LEN (R30). -/
  resLen : Word
  /-- ERR_OFF (R31). -/
  errOff : Word
deriving DecidableEq, Repr

/-- The operand registers as the accepted START latched them (70_reset_and_hazards.md R245). -/
structure Latch where
  cmd : Word
  aLen : Word
  aOff : Word
  bOff : Word
  pLen : Word
deriving DecidableEq, Repr

/-- DEC_STATE (R36). -/
inductive DecState where
  | idle
  | readingHeader
  | copyingLiteral
  | interpretingInstructions
  | emittingRun
  | done
  | fatal
deriving DecidableEq, Repr

/-- The decoder's registers (R36, R37). -/
structure DecRegs where
  /-- DEC_STATE. -/
  state : DecState
  /-- PC: the offset in IN of the current section's header. -/
  pc : Word
  /-- SEC_TYPE. -/
  secType : Byte
  /-- SEC_LEN. -/
  secLen : Half
  /-- PAY_POS: payload bytes consumed. -/
  payPos : Half
  /-- DI_START. -/
  diStart : Byte
  /-- DI_COUNT. -/
  diCount : Half
  /-- DI_DELTA. -/
  diDelta : Byte
  /-- DI_K: the index of the next byte to emit. -/
  diK : Half
  /-- DI_VAL: the next byte to emit. -/
  diVal : Byte
  /-- OPOS: the next OUT offset to write. -/
  opos : Word
deriving DecidableEq, Repr

/-- ENC_STATE (R38). -/
inductive EncState where
  | idle
  | detect
  | emitCode
  | emitBreak
  | emitLiteral
  | emitTail
  | flush
  | done
  | fatal
deriving DecidableEq, Repr

/-- The encoder's registers and its two section lists (R38; 41_encoder.md R140, R149). -/
structure EncRegs where
  /-- ENC_STATE. -/
  state : EncState
  /-- ANCHOR. -/
  anchor : Word
  /-- J: the first position past the run. -/
  j : Word
  /-- DELTA. -/
  delta : Byte
  /-- RUNLEN. -/
  runLen : Word
  /-- The raw list of R149; Flush takes its sections off the front (log 16). -/
  raw : List Section
  /-- The coalesced list, `res` of R155 and `outs` of R140 (log 16). -/
  outs : List Section
deriving DecidableEq, Repr

/-- The coalescer's accumulator (R39). -/
structure AccRegs where
  /-- ACC_VALID. -/
  valid : Bool
  /-- ACC_TYPE. -/
  type : Byte
  /-- ACC. -/
  data : List Byte
  /-- ACC_LEN. -/
  len : Half
deriving DecidableEq, Repr

/-- IN_CAP and OUT_CAP (R6): no step changes them. -/
structure Caps where
  inCap : Word
  outCap : Word
deriving DecidableEq, Repr

/-- Who runs the command in progress (the model's own; DEDUCED, log 9). -/
inductive Active where
  /-- No command runs: the block is idle (R227, R242). -/
  | idle
  /-- A START has been accepted and no step of its command has been taken. -/
  | accepted
  /-- The encoder runs COMPRESS. -/
  | encoder
  /-- The decoder runs DECOMPRESS. -/
  | decoder
deriving DecidableEq, Repr

/-- One access of the host (R20). A register access names its byte offset in the window and its width in bytes. -/
inductive HostAction where
  | readReg (off width : Nat)
  | writeReg (off width : Nat) (value : Word)
  | readIn (off : Nat)
  | writeIn (off : Nat) (value : Byte)
  | readOut (off : Nat)
  /-- Reset, however the platform asserts it (R240, R241). -/
  | reset
deriving DecidableEq, Repr

/-- Who moves next (the model's own; log 4, 5). -/
inductive Turn where
  /-- The block runs the instruction it stands at, whole: a command, a section or a DeltaIter (R14, R247). -/
  | whole
  /-- The block takes one step of its step machine (R150, R188). -/
  | tick
  /-- The host makes one access. -/
  | host (access : HostAction)
deriving DecidableEq, Repr

/-- The state of one instance of the block (R20). -/
structure State where
  regs : HostRegs
  latch : Latch
  active : Active
  inBuf : Memory
  outBuf : Memory
  dec : DecRegs
  enc : EncRegs
  acc : AccRegs
  caps : Caps
  /-- How many free values have been drawn (the model's own; log 7). -/
  draws : Nat
  /-- What the last host read returned (the model's own; log 6). -/
  rdata : Word
  /-- The turns still to come; when it is empty the block moves (the model's own; log 4). -/
  schedule : List Turn
deriving DecidableEq, Repr

/-- A unit's run: it goes on from a state, or the command has ended in one (R212). -/
inductive Flow where
  | going (s : State)
  | ended (s : State)
deriving DecidableEq, Repr

/-- How a command ends (R12, R42), before its result is written. -/
inductive CmdOutcome where
  /-- `Ok`: the bytes for OUT, RES_LEN, RES_TYPE and HAS_OVF. -/
  | ok (out : List Byte) (resLen : Nat) (resType : Byte) (hasOvf : Bool)
  /-- `Fail(PayloadTooLarge)` (R214). -/
  | fail
  /-- `Fatal(kind, off)` (R212). -/
  | fatal (e : FatalErr)
deriving DecidableEq, Repr

/-- Why the machine stops: a host access to a byte the spec says does not exist. No instruction raises one. -/
inductive Fault where
  /-- A host access of IN at an offset of IN_CAP or more (R35, R60; log 11). Raised by the host's `readIn` and
  `writeIn`. Safe: the model stops. -/
  | inOutOfRange (off : Nat)
  /-- A host read of OUT at an offset of OUT_CAP or more (R35, R61; log 11). Raised by the host's `readOut`.
  Safe: the model stops. -/
  | outOutOfRange (off : Nat)
deriving DecidableEq, Repr

/-- What has no meaning in the model. -/
inductive Refusal where
  /-- An instruction that has no meaning yet; raised by an arm of `exec`. Safe. No arm raises it. -/
  | notModelled (mnemonic : String)
  /-- A sub-word or misaligned host access of the register window: "a model refuses it" (R33, U12). Raised by the
  host's `readReg` and `writeReg`. Safe. -/
  | registerAccess (off width : Nat)
  /-- A host write of IN while BUSY = 1: "A model refuses such a host step" (R244, U11). Raised by the host's
  `writeIn`. Safe. -/
  | inWriteWhileBusy (off : Nat)
deriving DecidableEq, Repr

/-- The host registers after reset (R41). -/
def HostRegs.reset : HostRegs :=
  { cmd := 0, status := 0, aLen := 0, aOff := 0, bOff := 0, pLen := 0, outLen := 0, resLen := 0, errOff := 0 }

/-- The latched operands after reset. The spec gives no value: DESIGN CHOICE (log 3), unsafe. -/
def Latch.reset : Latch := { cmd := 0, aLen := 0, aOff := 0, bOff := 0, pLen := 0 }

/-- The decoder after reset: Idle (R41). The other registers are unspecified: zero is a DESIGN CHOICE (log 3), unsafe. -/
def DecRegs.reset : DecRegs :=
  { state := .idle, pc := 0, secType := 0, secLen := 0, payPos := 0, diStart := 0, diCount := 0, diDelta := 0,
    diK := 0, diVal := 0, opos := 0 }

/-- The encoder after reset: Idle (R41). The rest is unspecified: zero and empty are a DESIGN CHOICE (log 3), unsafe. -/
def EncRegs.reset : EncRegs :=
  { state := .idle, anchor := 0, j := 0, delta := 0, runLen := 0, raw := [], outs := [] }

/-- The accumulator after reset: ACC_VALID = 0 (R41). The rest is a DESIGN CHOICE (log 3), unsafe. -/
def AccRegs.reset : AccRegs := { valid := false, type := 0, data := [], len := 0 }

/-- The machine right after reset (R41, R240), with both capacities at 2^32 - 1 (R6; DESIGN CHOICE, log 2), the buffers
unspecified (draws 0 and 1; log 1, 7) and nothing scheduled (log 4). -/
def State.reset : State :=
  { regs := HostRegs.reset
    latch := Latch.reset
    active := .idle
    inBuf := { epoch := 0, cells := [] }
    outBuf := { epoch := 1, cells := [] }
    dec := DecRegs.reset
    enc := EncRegs.reset
    acc := AccRegs.reset
    caps := { inCap := 0xFFFFFFFF, outCap := 0xFFFFFFFF }
    draws := 2
    rdata := 0
    schedule := [] }

end Sys2Proof.Machine
end

