-- ==== Sys2Proof/Machine/Flags.lean ====
section
/-! DEFINITION. The fields of STATUS (10_state.md R24) and the error codes (60_exceptions.md R210). -/

namespace Sys2Proof.Machine

/-- The code of an error kind, STATUS.ERR (R210). -/
def ErrKind.code : ErrKind → Byte
  | .payloadTooLarge => 1
  | .typeMismatch => 2
  | .unknownSectionType => 3
  | .unknownOpcode => 4
  | .truncatedStream => 5
  | .truncatedInstruction => 6
  | .capacityExceeded => 7
  | .badCommand => 8

/-- STATUS from its fields; the reserved bits 7:5 and 31:24 are 0 (R24). -/
def statusWord (busy done fail fatal hasOvf : Bool) (err resType : Byte) : Word :=
  0#8 ++ resType ++ err ++ 0#3 ++ BitVec.ofBool hasOvf ++ BitVec.ofBool fatal ++ BitVec.ofBool fail ++
    BitVec.ofBool done ++ BitVec.ofBool busy

/-- STATUS.BUSY, bit 0. -/
def busyBit (w : Word) : Bool := w.getLsbD 0

/-- STATUS.DONE, bit 1. -/
def doneBit (w : Word) : Bool := w.getLsbD 1

/-- STATUS.FAIL, bit 2. -/
def failBit (w : Word) : Bool := w.getLsbD 2

/-- STATUS.FATAL, bit 3. -/
def fatalBit (w : Word) : Bool := w.getLsbD 3

/-- STATUS.HAS_OVF, bit 4. -/
def hasOvfBit (w : Word) : Bool := w.getLsbD 4

/-- STATUS.ERR, bits 15:8. -/
def errField (w : Word) : Byte := w.extractLsb' 8 8

/-- STATUS.RES_TYPE, bits 23:16. -/
def resTypeField (w : Word) : Byte := w.extractLsb' 16 8

/-- STATUS while a command runs: BUSY and nothing else (70_reset_and_hazards.md R246). -/
def statusBusy : Word := statusWord true false false false false 0 0

/-- STATUS after `Ok` (R42). -/
def statusOk (resType : Byte) (hasOvf : Bool) : Word := statusWord false true false false hasOvf 0 resType

/-- STATUS after `Fail(PayloadTooLarge)` (R42, R214). -/
def statusFail : Word := statusWord false true true false false ErrKind.payloadTooLarge.code 0

/-- STATUS after `Fatal(kind, off)` (R42, R212). -/
def statusFatal (kind : ErrKind) : Word := statusWord false true false true false kind.code 0

end Sys2Proof.Machine
end

