-- ==== Sys2Proof/Machine/Ops.lean ====
section
/-! DEFINITION. The operations every meaning is made of: the byte buffers (20_memory.md R60, R61), how a command
starts (10_state.md R40, R42) and how it ends (R42; 60_exceptions.md R211 to R214). Raising a fatal error is `raiseFatal`;
the block has no return from one (R218): the next accepted START clears the record (`acceptStart`). -/

namespace Sys2Proof.Machine

/-! ### Byte buffers -/

/-- The specified value of the byte at `a`, if it has one. -/
def lookupCell : List Host.Cell → Nat → Option Byte
  | [], _ => none
  | (x, v) :: rest, a => if x = a then some v else lookupCell rest a

/-- The cells with the byte at `a` set, addresses kept rising. -/
def insertCell (a : Nat) (v : Byte) : List Host.Cell → List Host.Cell
  | [] => [(a, v)]
  | (x, u) :: rest =>
    if a < x then (a, v) :: (x, u) :: rest
    else if a = x then (a, v) :: rest
    else (x, u) :: insertCell a v rest

/-- The cells' addresses are strictly rising. -/
def cellsRising : List Host.Cell → Bool
  | [] => true
  | [_] => true
  | (x, _) :: (y, v) :: rest => x < y && cellsRising ((y, v) :: rest)

/-- The canonical form: strictly rising addresses. An unlisted byte has no specified value, so no entry can equal what
an unlisted byte reads as (log 1). -/
def Memory.wf (m : Memory) : Bool := cellsRising m.cells

/-- The byte at offset `a`; an unlisted one is a free value (U5, U7, U8). -/
def Memory.read (m : Memory) (a : Nat) : Byte := (lookupCell m.cells a).getD (Config.freeByte m.epoch a)

/-- The buffer with the byte at `a` written. -/
def Memory.write (m : Memory) (a : Nat) (v : Byte) : Memory := { m with cells := insertCell a v m.cells }

/-- The `n` bytes from `a` on. -/
def Memory.readBytes (m : Memory) (a : Nat) : Nat → List Byte
  | 0 => []
  | n + 1 => m.read a :: m.readBytes (a + 1) n

/-- The buffer with the bytes written from `a` on. -/
def Memory.writeBytes (m : Memory) (a : Nat) : List Byte → Memory
  | [] => m
  | v :: rest => (m.writeBytes (a + 1) rest).write a v

/-- A buffer none of whose bytes is specified, drawn anew. -/
def Memory.unspecified (draw : Nat) : Memory := { epoch := draw, cells := [] }

/-- The listed bytes below `n` as they were, all others drawn anew (R74). A command has written every byte below its OUT_LEN. -/
def Memory.keepBelow (m : Memory) (n draw : Nat) : Memory :=
  { epoch := draw, cells := m.cells.filter (fun c => c.1 < n) }

/-! ### Operands latched at START (R245) -/

/-- `N`, the latched A_LEN (R25). -/
def State.n (s : State) : Nat := s.latch.aLen.toNat

/-- The latched A_OFF (R26). -/
def State.aOff (s : State) : Nat := s.latch.aOff.toNat

/-- The latched B_OFF (R27). -/
def State.bOff (s : State) : Nat := s.latch.bOff.toNat

/-- The latched P_LEN (R28). -/
def State.pLen (s : State) : Nat := s.latch.pLen.toNat

/-- `MemRead(addr, 1)`: a byte of IN (R11). -/
def State.in1 (s : State) (a : Nat) : Byte := s.inBuf.read a

/-- `MemRead(addr, 2)`: a u16 of IN (R11, R63). -/
def State.in2 (s : State) (a : Nat) : Half := le16 (s.inBuf.read a) (s.inBuf.read (a + 1))

/-- `MemRead(addr, n)` as a byte sequence (R11). -/
def State.inBytes (s : State) (a k : Nat) : List Byte := s.inBuf.readBytes a k

/-- `IN[0 .. N-1]`: the input of COMPRESS, the stream of DECOMPRESS and of the section commands (R25). -/
def State.input (s : State) : List Byte := s.inBytes 0 s.n

/-- `MemWrite(addr, n, v)`: an error when a byte would pass OUT_CAP, and then nothing is written (R61). -/
def memWrite (a : Nat) (bytes : List Byte) (s : State) : Except FatalErr State :=
  if a + bytes.length > s.caps.outCap.toNat then .error { kind := .capacityExceeded, off := 0 }
  else .ok { s with outBuf := s.outBuf.writeBytes a bytes }

/-! ### How a command starts -/

/-- The encoder's initial state (R40): ANCHOR = 0, empty lists, ACC_VALID = 0; `Idle → Detect` (R150). R40 names no value for J, DELTA,
RUNLEN, ACC_TYPE, ACC and ACC_LEN, which keep theirs, nor for the coalesced list, which is empty. DESIGN CHOICE (log 31). -/
def startEncoder (s : State) : State :=
  { s with
    enc := { s.enc with state := .detect, anchor := 0, raw := [], outs := [] }
    acc := { s.acc with valid := false } }

/-- The decoder's initial state (R40): "initial state `ReadingHeader` at offset 0". R40 names no value for SEC_TYPE, SEC_LEN, PAY_POS and
the DI registers, which keep theirs. DESIGN CHOICE (log 31). -/
def startDecoder (s : State) : State :=
  { s with dec := { s.dec with state := .readingHeader, pc := 0, opos := 0 } }

/-- The unit a command uses starts from its initial state (R40). The framer has no state of its own. -/
def startUnit (op : Byte) (s : State) : State :=
  if op = 0x01 then startEncoder s else if op = 0x02 then startDecoder s else s

/-- CMD.OP (R22). -/
def cmdOp (cmd : Word) : Byte := cmd.extractLsb' 0 8

/-- CMD.TYPE (R22). -/
def cmdType (cmd : Word) : Byte := cmd.extractLsb' 8 8

/-- An accepted START (R42, R68, R245): the status and result registers are cleared, BUSY is set, the operands are
latched, the unit starts. -/
def acceptStart (s : State) : State :=
  startUnit (cmdOp s.regs.cmd)
    { s with
      regs := { s.regs with status := statusBusy, outLen := 0, resLen := 0, errOff := 0 }
      latch :=
        { cmd := s.regs.cmd, aLen := s.regs.aLen, aOff := s.regs.aOff, bOff := s.regs.bOff, pLen := s.regs.pLen }
      active := .accepted }

/-- The START-time check of A_LEN that every command makes first (R211, R215). -/
def startError (s : State) : Option FatalErr :=
  if s.n > s.caps.inCap.toNat then some { kind := .badCommand, off := 0 } else none

/-! ### How a command ends (R42) -/

/-- `Ok`: the results are recorded and the block is idle. The bytes of OUT from OUT_LEN on are unspecified (R74; log 8). -/
def finishOk (outLen resLen : Nat) (resType : Byte) (hasOvf : Bool) (s : State) : State :=
  { s with
    regs :=
      { s.regs with
        status := statusOk resType hasOvf
        outLen := BitVec.ofNat 32 outLen
        resLen := BitVec.ofNat 32 resLen
        errOff := 0 }
    active := .idle
    outBuf := s.outBuf.keepBelow outLen s.draws
    draws := s.draws + 1 }

/-- `Fail(PayloadTooLarge)`: recorded with ERR_OFF = A_OFF; OUT is unchanged (R214). -/
def finishFail (s : State) : State :=
  { s with
    regs := { s.regs with status := statusFail, outLen := 0, resLen := 0, errOff := s.latch.aOff }
    active := .idle }

/-- `raise Fatal(kind, off)`: the command ends at once, the error is recorded in STATUS and ERR_OFF, OUT_LEN is 0 and all of
OUT is unspecified (R212, R213, R217). The block stays ready for the next START. -/
def raiseFatal (e : FatalErr) (s : State) : State :=
  { s with
    regs :=
      { s.regs with
        status := statusFatal e.kind
        outLen := 0
        resLen := 0
        errOff := BitVec.ofNat 32 e.off }
    active := .idle
    outBuf := Memory.unspecified s.draws
    draws := s.draws + 1 }

/-- The decoder raises: DEC_STATE becomes Fatal too (R188, row "any"). -/
def decFatal (e : FatalErr) (s : State) : State :=
  raiseFatal e { s with dec := { s.dec with state := .fatal } }

/-- The encoder raises: ENC_STATE becomes Fatal too (R150). -/
def encFatal (e : FatalErr) (s : State) : State :=
  raiseFatal e { s with enc := { s.enc with state := .fatal } }

/-- A command ends with an outcome (R42). The bytes of an `Ok` are written to OUT first, which can exceed OUT_CAP (R61). -/
def complete (o : CmdOutcome) (s : State) : State :=
  match o with
  | .ok out resLen resType hasOvf =>
    match memWrite 0 out s with
    | .ok s' => finishOk out.length resLen resType hasOvf s'
    | .error e => raiseFatal e s
  | .fail => finishFail s
  | .fatal e => raiseFatal e s

/-- A command of the framer from its START check to its end (R42, R211). -/
def runCommand (f : State → CmdOutcome) (s : State) : State :=
  match startError s with
  | some e => raiseFatal e s
  | none => complete (f s) s

/-! ### A unit's run -/

/-- Go on with `f` unless the command has ended (R212). -/
def Flow.andThen (r : Flow) (f : State → Flow) : Flow :=
  match r with
  | .going s => f s
  | .ended s => .ended s

/-- The state a run has reached. -/
def Flow.state : Flow → State
  | .going s => s
  | .ended s => s

end Sys2Proof.Machine
end

