-- ==== Sys2Proof/Machine/Operands.lean ====
section
/-! DEFINITION. The operand forms of the framer's commands (40_section_framer.md R100, R104, R105) and the serialization of
sections (R102, 00_scope.md R13). -/

namespace Sys2Proof.Machine

/-- `tagbyte` (R100; TYPE_DATA and TYPE_CODE of R5). -/
def tagByte : SecType → Byte
  | .data => Config.typeData
  | .code => Config.typeCode

/-- The section type of a type byte (R82). -/
def secTypeOf (b : Byte) : Option SecType :=
  if b = Config.typeData then some .data else if b = Config.typeCode then some .code else none

/-- `TypeOperand()`: the type from CMD.TYPE (R100). -/
def typeOperand (type : Byte) : Except FatalErr SecType :=
  match secTypeOf type with
  | some t => .ok t
  | none => .error { kind := .unknownSectionType, off := 0 }

/-- `PayloadOperand()`: `IN[A_OFF .. A_OFF + P_LEN - 1]`, inside `IN[0 .. A_LEN - 1]` (R104). -/
def payloadOperand (s : State) : Except FatalErr (List Byte) :=
  if s.aOff + s.pLen > s.n then .error { kind := .badCommand, off := 0 } else .ok (s.inBytes s.aOff s.pLen)

/-- `readHeader(off)` (R105): the header must fit, then the type must be known. -/
def readHeader (s : State) (off : Nat) : Except FatalErr (SecType × Nat) :=
  if off + Config.headerLen > s.n then .error { kind := .truncatedStream, off := off }
  else
    match secTypeOf (s.in1 off) with
    | none => .error { kind := .unknownSectionType, off := off }
    | some t => .ok (t, (s.in2 (off + 1)).toNat)

/-- `readSection(off)` and, as its payload, `readPayload(off)` (R105): the header, then the payload must fit. -/
def readSection (s : State) (off : Nat) : Except FatalErr Section :=
  match readHeader s off with
  | .error e => .error e
  | .ok (t, len) =>
    if off + Config.headerLen + len > s.n then .error { kind := .truncatedStream, off := off }
    else .ok { type := t, payload := s.inBytes (off + Config.headerLen) len }

/-- `encodeHeader(type, length)` (R102). -/
def encodeHeader (t : SecType) (len : Nat) : List Byte := headerBytes (tagByte t) (BitVec.ofNat 16 len)

/-- `ser(s) = header(s.type, len(s.payload)) ⧺ s.payload` (R13, R81). -/
def Section.ser (x : Section) : List Byte := encodeHeader x.type x.payload.length ++ x.payload

end Sys2Proof.Machine
end

