-- ==== Sys2Proof/Machine/Decoder.lean ====
section
/-! DEFINITION. The decoder: reading headers and instructions (42_decoder.md R181, R184), the complete definition of R187 and
the meanings of DATA, CODE, DELTAITER and DECOMPRESS, and the step machine of R188. -/

namespace Sys2Proof.Machine

/-! ### Fetching from the stream -/

/-- The error kind that undecodable bytes raise (R181, R182, R184; R211 for a command). -/
def decodeErrorKind : DecodeError → ErrKind
  | .truncatedHeader => .truncatedStream
  | .unknownSectionType _ => .unknownSectionType
  | .unknownOpcode _ => .unknownOpcode
  | .truncatedInstruction => .truncatedInstruction
  | .badCommand _ => .badCommand
  | .truncatedCommand => .badCommand

/-- The header at PC (R181): TruncatedStream when its 3 bytes do not fit, then UnknownSectionType, both at PC. R181 loads SEC_TYPE
before the type check, and what it holds after the fault is open (U6): here it keeps its old value. DESIGN CHOICE (log 33). -/
def fetchSection (s : State) : Except FatalErr Instr :=
  let pc := s.dec.pc.toNat
  match decode .sectionStream (s.inBytes pc (min Config.headerLen (s.n - pc))) with
  | .ok (i, _) => .ok i
  | .error e => .error { kind := decodeErrorKind e, off := pc }

/-- The offset in IN of the next instruction's tag: `PC + HEADER_LEN + PAY_POS` (R37, R184). -/
def tagOffset (s : State) : Nat := s.dec.pc.toNat + Config.headerLen + s.dec.payPos.toNat

/-- The instruction at the tag offset (R184): UnknownOpcode, then TruncatedInstruction when fewer than 5 payload bytes
remain, both at the tag. -/
def fetchInstruction (s : State) : Except FatalErr Instr :=
  let q := tagOffset s
  match decode .codePayload (s.inBytes q (min Config.instrLen (s.dec.secLen.toNat - s.dec.payPos.toNat))) with
  | .ok (i, _) => .ok i
  | .error e => .error { kind := decodeErrorKind e, off := q }

/-! ### The actions of the step table (R188) -/

/-- What reading a payload is specialized into, by its section's type (R188). -/
def payloadState : SecType → DecState
  | .data => .copyingLiteral
  | .code => .interpretingInstructions

/-- The loads and the payload check of R181: the section is entered, or TruncatedStream at PC. R181 loads SEC_TYPE and SEC_LEN before
the check, and what they hold after the fault is open (U6): here they keep their old values. DESIGN CHOICE (log 33). -/
def enterSection (t : SecType) (length : Half) (s : State) : Flow :=
  if s.dec.pc.toNat + Config.headerLen + length.toNat > s.n then
    .ended (decFatal { kind := .truncatedStream, off := s.dec.pc.toNat } s)
  else
    .going { s with
      dec := { s.dec with
        state := payloadState t
        secType := tagByte t
        secLen := length
        payPos := 0 } }

/-- `PC <- PC + HEADER_LEN + SEC_LEN` (R186). -/
def closeSection (s : State) : State :=
  { s with
    dec := { s.dec with
      state := .readingHeader
      pc := BitVec.ofNat 32 (s.dec.pc.toNat + Config.headerLen + s.dec.secLen.toNat) } }

/-- `MemWrite(OPOS, 1, b); OPOS <- OPOS + 1`, or CapacityExceeded (R61, R183, R185). -/
def emitByte (b : Byte) (s : State) : Flow :=
  match memWrite s.dec.opos.toNat [b] s with
  | .error e => .ended (decFatal e s)
  | .ok s' => .going { s' with dec := { s'.dec with opos := BitVec.ofNat 32 (s.dec.opos.toNat + 1) } }

/-- One byte of a Data section, from `IN[PC + 3 + PAY_POS]` (R188, CopyingLiteral). -/
def copyByte (s : State) : Flow :=
  (emitByte (s.in1 (tagOffset s)) s).andThen fun s' =>
    .going { s' with dec := { s'.dec with payPos := BitVec.ofNat 16 (s'.dec.payPos.toNat + 1) } }

/-- The loads of a DeltaIter (R188, InterpretingInstructions): its fields, DI_K = 0, DI_VAL = DI_START, PAY_POS past it. -/
def loadDelta (start : Byte) (count : Half) (delta : Byte) (s : State) : State :=
  { s with
    dec := { s.dec with
      state := .emittingRun
      payPos := BitVec.ofNat 16 (s.dec.payPos.toNat + Config.instrLen)
      diStart := start
      diCount := count
      diDelta := delta
      diK := 0
      diVal := start } }

/-- EmittingRun ends: back to InterpretingInstructions (R188). -/
def closeDelta (s : State) : State := { s with dec := { s.dec with state := .interpretingInstructions } }

/-- One byte of a run by the accumulate-and-wrap datapath: DI_VAL is emitted, then DI_DELTA is added to it (R188). -/
def emitRunByte (s : State) : Flow :=
  (emitByte s.dec.diVal s).andThen fun s' =>
    .going { s' with
      dec := { s'.dec with
        diK := BitVec.ofNat 16 (s'.dec.diK.toNat + 1)
        diVal := s'.dec.diVal + s'.dec.diDelta } }

/-! ### Sections and instructions as wholes (R183 to R187) -/

/-- `(startValue + k * delta) mod 256` (R185). -/
def runByte (start delta : Byte) (k : Nat) : Byte := BitVec.ofNat 8 (start.toNat + k * delta.toNat)

/-- The loop of R183 over the `k` payload bytes left, then the advance of R186. -/
def copyPayload : Nat → State → Flow
  | 0, s => .going (closeSection s)
  | k + 1, s => (copyByte s).andThen (copyPayload k)

/-- The loop of R185 over the `left` bytes still to emit, each by the closed form, with DI_K and DI_VAL kept (R36). -/
def emitRun (start delta : Byte) : Nat → State → Flow
  | 0, s => .going (closeDelta s)
  | left + 1, s =>
    (emitByte (runByte start delta s.dec.diK.toNat) s).andThen fun s' =>
      emitRun start delta left
        { s' with
          dec := { s'.dec with
            diK := BitVec.ofNat 16 (s'.dec.diK.toNat + 1)
            diVal := runByte start delta (s'.dec.diK.toNat + 1) } }

/-- A DATA section (R183): entered, copied, passed. -/
def runData (length : Half) (s : State) : Flow :=
  (enterSection .data length s).andThen (copyPayload length.toNat)

/-- A DELTAITER (R185): loaded, then `count` bytes emitted. -/
def runDeltaIter (start : Byte) (count : Half) (delta : Byte) (s : State) : Flow :=
  emitRun start delta count.toNat (loadDelta start count delta s)

/-- What a fetched stream instruction runs inside a Code payload. The decoder reads only DELTAITER there (R85). -/
def runInstruction (i : Instr) (s : State) : Flow :=
  match i with
  | .deltaIter start count delta => runDeltaIter start count delta s
  | .data _ | .code _
  | .compress _ | .decompress _ | .encodeHeader _ | .tryMakeSection _ | .makeSection _ | .readHeader _ | .readPayload _
  | .merge _ => .ended s

/-- The loop of R184: `while PAY_POS < SEC_LEN`, then the advance of R186. Every turn consumes 5 payload bytes, so `fuel` =
SEC_LEN is enough. -/
def interpret : Nat → State → Flow
  | 0, s => .going (closeSection s)
  | fuel + 1, s =>
    if s.dec.payPos.toNat < s.dec.secLen.toNat then
      match fetchInstruction s with
      | .error e => .ended (decFatal e s)
      | .ok i => (runInstruction i s).andThen (interpret fuel)
    else .going (closeSection s)

/-- A CODE section (R184): entered, interpreted, passed. -/
def runCode (length : Half) (s : State) : Flow :=
  (enterSection .code length s).andThen (interpret length.toNat)

/-- What a fetched header runs. The decoder reads only DATA and CODE there (R82). -/
def runSection (i : Instr) (s : State) : Flow :=
  match i with
  | .data length => runData length s
  | .code length => runCode length s
  | .deltaIter _ _ _
  | .compress _ | .decompress _ | .encodeHeader _ | .tryMakeSection _ | .makeSection _ | .readHeader _ | .readPayload _
  | .merge _ => .ended s

/-- The loop of R187: `while PC < N`, then DEC_STATE = Done. Every turn consumes at least 3 bytes, so `fuel` = N + 1 is
enough. -/
def decodeStream : Nat → State → Flow
  | 0, s => .going s
  | fuel + 1, s =>
    if s.dec.pc.toNat < s.n then
      match fetchSection s with
      | .error e => .ended (decFatal e s)
      | .ok i => (runSection i s).andThen (decodeStream fuel)
    else .going { s with dec := { s.dec with state := .done } }

/-- The end of DECOMPRESS: `return Ok(out_len = OPOS, res_len = 0, res_type = 0, has_ovf = 0)` (R180). -/
def decodeDone (s : State) : State := finishOk s.dec.opos.toNat 0 0 false s

/-- DECOMPRESS from its START check to its end (R180, R187, R211). -/
def runDecompress (s : State) : State :=
  match startError s with
  | some e => raiseFatal e s
  | none =>
    match decodeStream (s.n + 1) (startDecoder s) with
    | .going t => decodeDone t
    | .ended t => t

/-! ### The step machine (R188) -/

/-- The checks and loads of R181 for a fetched header. The decoder reads only DATA and CODE there (R82). -/
def enterInstr (i : Instr) (s : State) : Flow :=
  match i with
  | .data length => enterSection .data length s
  | .code length => enterSection .code length s
  | .deltaIter _ _ _
  | .compress _ | .decompress _ | .encodeHeader _ | .tryMakeSection _ | .makeSection _ | .readHeader _ | .readPayload _
  | .merge _ => .ended s

/-- The loads of R184 for a fetched instruction. The decoder reads only DELTAITER there (R85). -/
def loadInstr (i : Instr) (s : State) : State :=
  match i with
  | .deltaIter start count delta => loadDelta start count delta s
  | .data _ | .code _
  | .compress _ | .decompress _ | .encodeHeader _ | .tryMakeSection _ | .makeSection _ | .readHeader _ | .readPayload _
  | .merge _ => s

/-- ReadingHeader: at the end of the stream go to Done; else the checks and loads of R181. -/
def tickHeader (s : State) : State :=
  if s.dec.pc.toNat < s.n then
    match fetchSection s with
    | .error e => decFatal e s
    | .ok i => (enterInstr i s).state
  else { s with dec := { s.dec with state := .done } }

/-- InterpretingInstructions: at the end of the payload pass the section; else the checks and loads of R184. -/
def tickInterpret (s : State) : State :=
  if s.dec.payPos.toNat < s.dec.secLen.toNat then
    match fetchInstruction s with
    | .error e => decFatal e s
    | .ok i => loadInstr i s
  else closeSection s

/-- One step of the decoder, by DEC_STATE (R188). In Idle and Fatal the decoder does nothing. -/
def decTick (s : State) : State :=
  match s.dec.state with
  | .idle => s
  | .readingHeader => tickHeader s
  | .copyingLiteral =>
    if s.dec.payPos.toNat < s.dec.secLen.toNat then (copyByte s).state else closeSection s
  | .interpretingInstructions => tickInterpret s
  | .emittingRun =>
    if s.dec.diK.toNat < s.dec.diCount.toNat then (emitRunByte s).state else closeDelta s
  | .done => decodeDone s
  | .fatal => s

/-! ### Meanings -/

/-- DATA (R183). -/
def execData (length : Half) (s : State) : Host.Outcome State Fault Refusal := .next (runData length s).state

/-- CODE (R184). -/
def execCode (length : Half) (s : State) : Host.Outcome State Fault Refusal := .next (runCode length s).state

/-- DELTAITER (R185). -/
def execDeltaIter (start : Byte) (count : Half) (delta : Byte) (s : State) : Host.Outcome State Fault Refusal :=
  .next (runDeltaIter start count delta s).state

/-- DECOMPRESS, OP 0x02 (R180). It does not read TYPE. -/
def execDecompress (_type : Byte) (s : State) : Host.Outcome State Fault Refusal := .next (runDecompress s)

end Sys2Proof.Machine
end

