-- ==== Sys2Proof/Machine/Framer.lean ====
section
/-! DEFINITION. The section framer: merge (40_section_framer.md R110) and the meanings of its six commands (R101, R103, R106,
R107, R109, R111). -/

namespace Sys2Proof.Machine

/-- `merge` of two sections of one type (R110): B fills A up to 65535 bytes, the rest overflows. -/
def mergeSame (a b : Section) : Section × Option Section :=
  if a.payload.length + b.payload.length ≤ Config.maxLen then
    ({ type := a.type, payload := a.payload ++ b.payload }, none)
  else
    let r := Config.maxLen - a.payload.length
    ({ type := a.type, payload := a.payload ++ b.payload.take r }, some { type := a.type, payload := b.payload.drop r })

/-- `merge(A, B, offB)` (R110): never across types. -/
def merge (a b : Section) (offB : Nat) : Except FatalErr (Section × Option Section) :=
  if a.type = b.type then .ok (mergeSame a b) else .error { kind := .typeMismatch, off := offB }

/-! ### Outcomes of the commands -/

/-- ENCODE_HEADER (R101). -/
def encodeHeaderOutcome (type : Byte) (s : State) : CmdOutcome :=
  match typeOperand type with
  | .error e => .fatal e
  | .ok t =>
    if s.pLen > Config.maxLen then .fatal { kind := .payloadTooLarge, off := 0 }
    else .ok (encodeHeader t s.pLen) 0 0 false

/-- What TRY_MAKE_SECTION and MAKE_SECTION share (R103, R106): `tooLong` is the outcome on a payload above 65535 bytes. -/
def sectionOutcome (type : Byte) (tooLong : CmdOutcome) (s : State) : CmdOutcome :=
  match typeOperand type with
  | .error e => .fatal e
  | .ok t =>
    match payloadOperand s with
    | .error e => .fatal e
    | .ok p => if p.length > Config.maxLen then tooLong else .ok ({ type := t, payload := p } : Section).ser 0 0 false

/-- TRY_MAKE_SECTION (R103): a normal failure above the bound. -/
def tryMakeSectionOutcome (type : Byte) (s : State) : CmdOutcome := sectionOutcome type .fail s

/-- MAKE_SECTION (R106): a fatal error at A_OFF above the bound. -/
def makeSectionOutcome (type : Byte) (s : State) : CmdOutcome :=
  sectionOutcome type (.fatal { kind := .payloadTooLarge, off := s.aOff }) s

/-- READ_HEADER (R107). -/
def readHeaderOutcome (s : State) : CmdOutcome :=
  match readHeader s s.aOff with
  | .error e => .fatal e
  | .ok (t, len) => .ok [] len (tagByte t) false

/-- READ_PAYLOAD (R109). -/
def readPayloadOutcome (s : State) : CmdOutcome :=
  match readSection s s.aOff with
  | .error e => .fatal e
  | .ok x => .ok x.payload x.payload.length (tagByte x.type) false

/-- MERGE (R111): section A, section B, then the types; OUT gets the merged section, then the overflow. -/
def mergeOutcome (s : State) : CmdOutcome :=
  match readSection s s.aOff with
  | .error e => .fatal e
  | .ok a =>
    match readSection s s.bOff with
    | .error e => .fatal e
    | .ok b =>
      match merge a b s.bOff with
      | .error e => .fatal e
      | .ok (m, none) => .ok m.ser m.ser.length (tagByte m.type) false
      | .ok (m, some o) => .ok (m.ser ++ o.ser) m.ser.length (tagByte m.type) true

/-! ### Meanings -/

/-- ENCODE_HEADER, OP 0x03 (R101). -/
def execEncodeHeader (type : Byte) (s : State) : Host.Outcome State Fault Refusal :=
  .next (runCommand (encodeHeaderOutcome type) s)

/-- TRY_MAKE_SECTION, OP 0x04 (R103). -/
def execTryMakeSection (type : Byte) (s : State) : Host.Outcome State Fault Refusal :=
  .next (runCommand (tryMakeSectionOutcome type) s)

/-- MAKE_SECTION, OP 0x05 (R106). -/
def execMakeSection (type : Byte) (s : State) : Host.Outcome State Fault Refusal :=
  .next (runCommand (makeSectionOutcome type) s)

/-- READ_HEADER, OP 0x06 (R107). It does not read TYPE. -/
def execReadHeader (_type : Byte) (s : State) : Host.Outcome State Fault Refusal :=
  .next (runCommand readHeaderOutcome s)

/-- READ_PAYLOAD, OP 0x07 (R109). It does not read TYPE. -/
def execReadPayload (_type : Byte) (s : State) : Host.Outcome State Fault Refusal :=
  .next (runCommand readPayloadOutcome s)

/-- MERGE, OP 0x08 (R111). It does not read TYPE. -/
def execMerge (_type : Byte) (s : State) : Host.Outcome State Fault Refusal :=
  .next (runCommand mergeOutcome s)

end Sys2Proof.Machine
end

