-- ==== Sys2Proof/Machine/Encoder.lean ====
section
/-! DEFINITION. The encoder: the detector and the emitter (41_encoder.md R141 to R149), the coalescer (R155), the meaning of
COMPRESS (R140), and the step order of R150. -/

namespace Sys2Proof.Machine

/-! ### Detector (R141, R143) -/

/-- `b[p]`; only positions below `len(b)` are ever asked for. -/
def byteAt (b : List Byte) (p : Nat) : Byte := b.getD p 0

/-- `diff(p) = (b[p] - b[p-1]) mod 256` (R141). -/
def diff (b : List Byte) (p : Nat) : Byte := byteAt b p - byteAt b (p - 1)

/-- The loop of R143 from position `j`: the first position past the run of anchor `a`. `fuel` = len(b) is enough. -/
def runEnd (b : List Byte) (a : Nat) (delta : Byte) : Nat → Nat → Nat
  | 0, j => j
  | fuel + 1, j =>
    if j < b.length ∧ j - a < Config.maxCount ∧ diff b j = delta then runEnd b a delta fuel (j + 1) else j

/-- `DetectRun(b, a) = (delta, j)` (R143, with the cap of R154). -/
def detectRun (b : List Byte) (a : Nat) : Byte × Nat :=
  let delta := diff b (a + 1)
  (delta, runEnd b a delta b.length (a + 2))

/-! ### Emitter (R145 to R149) -/

/-- The Code section of one DeltaIter (R145). -/
def runSectionOf (b : List Byte) (a j : Nat) (delta : Byte) : Section :=
  { type := .code, payload := deltaIterBytes (byteAt b a) (BitVec.ofNat 16 (j - a)) delta }

/-- A Data section of one byte: a break byte (R146) or the tail (R148). -/
def byteSection (b : List Byte) (p : Nat) : Section := { type := .data, payload := [byteAt b p] }

/-- The Data section of `b[a .. j-1]` (R147). -/
def literalSection (b : List Byte) (a j : Nat) : Section := { type := .data, payload := (b.drop a).take (j - a) }

/-- The loop of R149 from anchor `a`. The anchor increases on every branch, so `fuel` = len(b) is enough. -/
def scanFrom (b : List Byte) : Nat → Nat → List Section
  | 0, _ => []
  | fuel + 1, a =>
    if a < b.length then
      if a = b.length - 1 then [byteSection b a]
      else
        let (delta, j) := detectRun b a
        if j - a - 1 > Config.threshold then
          if j < b.length then runSectionOf b a j delta :: byteSection b j :: scanFrom b fuel (j + 1)
          else [runSectionOf b a j delta]
        else literalSection b a j :: scanFrom b fuel j
    else []

/-- `Scan(b)`, the raw list (R142, R149). -/
def scan (b : List Byte) : List Section :=
  if b.length < 2 then [{ type := .data, payload := b }] else scanFrom b b.length 0

/-! ### Coalescer (R155) -/

/-- The fold of R155 with accumulator `acc`. -/
def coalesceFrom (acc : Section) : List Section → List Section
  | [] => [acc]
  | x :: rest =>
    if x.type = acc.type then
      match mergeSame acc x with
      | (m, none) => coalesceFrom m rest
      | (m, some o) => m :: coalesceFrom o rest
    else acc :: coalesceFrom x rest

/-- `Coalesce(raw)` (R155). -/
def coalesce : List Section → List Section
  | [] => []
  | x :: rest => coalesceFrom x rest

/-- A section list as a stream (R80, R140). -/
def serialize (sections : List Section) : List Byte := sections.flatMap Section.ser

/-- `compress(b)`: the section stream (R140). -/
def compress (b : List Byte) : List Byte := serialize (coalesce (scan b))

/-- COMPRESS from its START check to its end (R140, R160, R211). Run so, whole, it leaves the encoder's and the coalescer's registers
as START leaves them, but for ENC_STATE, which is Done or Fatal: U6 allows them any value between commands. DESIGN CHOICE (log 32). -/
def runCompress (s : State) : State :=
  match startError s with
  | some e => raiseFatal e s
  | none =>
    let out := compress s.input
    match memWrite 0 out (startEncoder s) with
    | .error e => encFatal e (startEncoder s)
    | .ok t => finishOk out.length 0 0 false { t with enc := { t.enc with state := .done } }

/-! ### The step order (R150) -/

/-- The accumulator as a section: the first ACC_LEN bytes of ACC under ACC_TYPE (R39). -/
def AccRegs.asSection (r : AccRegs) : Section :=
  { type := if r.type = Config.typeCode then .code else .data, payload := r.data.take r.len.toNat }

/-- The accumulator loaded with a section. -/
def accOf (x : Section) : AccRegs :=
  { valid := true, type := tagByte x.type, data := x.payload, len := BitVec.ofNat 16 x.payload.length }

/-- Append a raw section, set the anchor and go back to Detect (R146 to R149). -/
def emitRaw (x : Section) (anchor : Nat) (s : State) : State :=
  { s with enc := { s.enc with state := .detect, raw := s.enc.raw ++ [x], anchor := BitVec.ofNat 32 anchor } }

/-- Detect (R150). For the empty input it emits the empty Data section of R142 on its way to Flush (DEDUCED, log 14). The whole
of `DetectRun` is one step (DEDUCED, log 17). -/
def tickDetect (s : State) : State :=
  let a := s.enc.anchor.toNat
  if a < s.n then
    if a = s.n - 1 then { s with enc := { s.enc with state := .emitTail } }
    else
      let (delta, j) := detectRun s.input a
      { s with
        enc := { s.enc with
          state := if j - a - 1 > Config.threshold then .emitCode else .emitLiteral
          j := BitVec.ofNat 32 j
          delta := delta
          runLen := BitVec.ofNat 32 (j - a - 1) } }
  else if s.n = 0 then
    { s with enc := { s.enc with state := .flush, raw := s.enc.raw ++ [{ type := .data, payload := [] }] } }
  else { s with enc := { s.enc with state := .flush } }

/-- EmitCode: the Code section, then EmitBreak if `j < n`, else back to Detect at the end of the input (R145, R146, R150). -/
def tickEmitCode (s : State) : State :=
  let x := runSectionOf s.input s.enc.anchor.toNat s.enc.j.toNat s.enc.delta
  if s.enc.j.toNat < s.n then { s with enc := { s.enc with state := .emitBreak, raw := s.enc.raw ++ [x] } }
  else emitRaw x s.n s

/-- The end of Flush: the stream is written to OUT, or CapacityExceeded (R150, R159). -/
def flushWrite (s : State) : State :=
  match memWrite 0 (serialize s.enc.outs) s with
  | .error e => encFatal e s
  | .ok t => { t with enc := { t.enc with state := .done } }

/-- One fold step of the coalescer: the next raw section meets the accumulator (R150, R155; log 16). -/
def flushFold (x : Section) (rest : List Section) (s : State) : State :=
  if s.acc.valid then
    if x.type = s.acc.asSection.type then
      match mergeSame s.acc.asSection x with
      | (m, none) => { s with enc := { s.enc with raw := rest }, acc := accOf m }
      | (m, some o) => { s with enc := { s.enc with raw := rest, outs := s.enc.outs ++ [m] }, acc := accOf o }
    else { s with enc := { s.enc with raw := rest, outs := s.enc.outs ++ [s.acc.asSection] }, acc := accOf x }
  else { s with enc := { s.enc with raw := rest }, acc := accOf x }

/-- Flush (R150): one raw section at a time, then the accumulator is put out, then OUT is written. -/
def tickFlush (s : State) : State :=
  match s.enc.raw with
  | x :: rest => flushFold x rest s
  | [] =>
    if s.acc.valid then
      { s with enc := { s.enc with outs := s.enc.outs ++ [s.acc.asSection] }, acc := { s.acc with valid := false } }
    else flushWrite s

/-- The end of COMPRESS: `return Ok(out_len = len(s), res_len = 0, res_type = 0, has_ovf = 0)` (R140). -/
def encodeDone (s : State) : State := finishOk (serialize s.enc.outs).length 0 0 false s

/-- One step of the encoder, by ENC_STATE (R150). In Idle and Fatal the encoder does nothing. EmitTail goes back to Detect
(DEDUCED, log 15). -/
def encTick (s : State) : State :=
  match s.enc.state with
  | .idle => s
  | .detect => tickDetect s
  | .emitCode => tickEmitCode s
  | .emitBreak => emitRaw (byteSection s.input s.enc.j.toNat) (s.enc.j.toNat + 1) s
  | .emitLiteral => emitRaw (literalSection s.input s.enc.anchor.toNat s.enc.j.toNat) s.enc.j.toNat s
  | .emitTail => emitRaw (byteSection s.input s.enc.anchor.toNat) s.n s
  | .flush => tickFlush s
  | .done => encodeDone s
  | .fatal => s

/-! ### Meaning -/

/-- COMPRESS, OP 0x01 (R140). It does not read TYPE. -/
def execCompress (_type : Byte) (s : State) : Host.Outcome State Fault Refusal := .next (runCompress s)

end Sys2Proof.Machine
end

