-- ==== Sys2Proof/Machine/Dispatch.lean ====
section
/-! DEFINITION. One arm per instruction, each a call of its meaning. -/

namespace Sys2Proof.Machine

def exec (i : Instr) (s : State) : Host.Outcome State Fault Refusal :=
  match i with
  | .data length => Sys2Proof.Machine.execData length s
  | .code length => Sys2Proof.Machine.execCode length s
  | .deltaIter start count delta => Sys2Proof.Machine.execDeltaIter start count delta s
  | .compress type => Sys2Proof.Machine.execCompress type s
  | .decompress type => Sys2Proof.Machine.execDecompress type s
  | .encodeHeader type => Sys2Proof.Machine.execEncodeHeader type s
  | .tryMakeSection type => Sys2Proof.Machine.execTryMakeSection type s
  | .makeSection type => Sys2Proof.Machine.execMakeSection type s
  | .readHeader type => Sys2Proof.Machine.execReadHeader type s
  | .readPayload type => Sys2Proof.Machine.execReadPayload type s
  | .merge type => Sys2Proof.Machine.execMerge type s

end Sys2Proof.Machine
end

