-- ==== Sys2Proof/Machine/HostPort.lean ====
section
/-! DEFINITION. The host's accesses: the register window (10_state.md R21 to R33), IN and OUT (20_memory.md R66), reset
(70_reset_and_hazards.md R240, R241), and the hazards of an access while BUSY = 1 (R244 to R246). -/

namespace Sys2Proof.Machine

/-- The windows of the block in the platform's address map (R67). -/
def regAddress (off : Nat) : Nat := Config.regBase + off

/-- The platform address of a byte of IN (R67). -/
def inAddress (off : Nat) : Nat := Config.inBase + off

/-- The platform address of a byte of OUT (R67). -/
def outAddress (off : Nat) : Nat := Config.outBase + off

/-- A register access is a whole, 4-byte-aligned word (R33). -/
def wordAccess (off width : Nat) : Bool := width = 4 && off % 4 = 0

/-- What an aligned word read of the window returns (R21): CTRL reads 0 (R23), and so does every offset that holds no
register (R32). -/
def regRead (r : HostRegs) (off : Nat) : Word :=
  match off with
  | 0x00 => r.cmd
  | 0x08 => r.status
  | 0x0C => r.aLen
  | 0x10 => r.aOff
  | 0x14 => r.bOff
  | 0x18 => r.pLen
  | 0x1C => r.outLen
  | 0x20 => r.resLen
  | 0x24 => r.errOff
  | _ => 0

/-- CMD keeps OP and TYPE; bits 31:16 are reserved (R22). -/
def cmdValue (v : Word) : Word := v &&& 0x0000FFFF#32

/-- An aligned word write of the window: the five operand registers hold what is written (R22, R25 to R28), CTRL with bit 0 set
starts a command unless one runs (R23, R42, R245), every other write is ignored (R32). -/
def regWrite (off : Nat) (v : Word) (s : State) : State :=
  match off with
  | 0x00 => { s with regs := { s.regs with cmd := cmdValue v } }
  | 0x04 => if v.getLsbD 0 && !busyBit s.regs.status then acceptStart s else s
  | 0x0C => { s with regs := { s.regs with aLen := v } }
  | 0x10 => { s with regs := { s.regs with aOff := v } }
  | 0x14 => { s with regs := { s.regs with bOff := v } }
  | 0x18 => { s with regs := { s.regs with pLen := v } }
  | _ => s

/-- A host read of a byte of OUT: while BUSY = 1 an unspecified byte, drawn anew (R66, R246). -/
def outRead (off : Nat) (s : State) : State :=
  if busyBit s.regs.status then
    { s with rdata := (Config.freeByte s.draws off).setWidth 32, draws := s.draws + 1 }
  else { s with rdata := (s.outBuf.read off).setWidth 32 }

/-- Reset, whatever the block was doing (R41, R240, R241): every piece of state at its reset value, IN and OUT drawn anew. The
capacities are the instance's own; the schedule, the draw counter and the host's last read belong to no register (log 21). -/
def hostReset (s : State) : State :=
  { State.reset with
    inBuf := Memory.unspecified s.draws
    outBuf := Memory.unspecified (s.draws + 1)
    caps := s.caps
    draws := s.draws + 2
    rdata := s.rdata
    schedule := s.schedule }

/-- One access of the host. A byte outside a buffer does not exist (R35): a fault. An access that R33 or R244 says a model
refuses is refused. -/
def hostAct (a : HostAction) (s : State) : Host.Outcome State Fault Refusal :=
  match a with
  | .readReg off width =>
    if wordAccess off width then .next { s with rdata := regRead s.regs off } else .refused (.registerAccess off width)
  | .writeReg off width v =>
    if wordAccess off width then .next (regWrite off v s) else .refused (.registerAccess off width)
  | .readIn off =>
    if off < s.caps.inCap.toNat then .next { s with rdata := (s.inBuf.read off).setWidth 32 }
    else .fault (.inOutOfRange off)
  | .writeIn off v =>
    if off < s.caps.inCap.toNat then
      if busyBit s.regs.status then .refused (.inWriteWhileBusy off)
      else .next { s with inBuf := s.inBuf.write off v }
    else .fault (.inOutOfRange off)
  | .readOut off =>
    if off < s.caps.outCap.toNat then .next (outRead off s) else .fault (.outOutOfRange off)
  | .reset => .next (hostReset s)

end Sys2Proof.Machine
end

