-- ==== Sys2Proof/Machine/Block.lean ====
section
/-! DEFINITION. What the block does in one turn: it fetches the instruction it stands at and runs it whole (00_scope.md R14,
70_reset_and_hazards.md R247), or it takes one step of its step machine (41_encoder.md R150, 42_decoder.md R188). -/

namespace Sys2Proof.Machine

/-- The latched CMD word as bytes (R33, R88, R245). -/
def commandWord (s : State) : List Byte := numberBytes 4 s.latch.cmd.toNat

/-- The command the latched CMD selects; an illegal OP is BadCommand at 0 (R88, R89, R211). -/
def fetchCommand (s : State) : Except FatalErr Instr :=
  match decode .cmdRegister (commandWord s) with
  | .ok (i, _) => .ok i
  | .error e => .error { kind := decodeErrorKind e, off := 0 }

/-- The instruction the block stands at, if it stands at one: the accepted command; the section header at PC; the instruction
at the tag offset of a Code payload. -/
def fetch (s : State) : Except FatalErr (Option Instr) :=
  match s.active with
  | .idle => .ok none
  | .accepted => (fetchCommand s).map some
  | .encoder => .ok none
  | .decoder =>
    match s.dec.state with
    | .readingHeader => if s.dec.pc.toNat < s.n then (fetchSection s).map some else .ok none
    | .interpretingInstructions =>
      if s.dec.payPos.toNat < s.dec.secLen.toNat then (fetchInstruction s).map some else .ok none
    | .idle | .copyingLiteral | .emittingRun | .done | .fatal => .ok none

/-- A fetch that finds no instruction raises, in the unit that fetched (R182, R184, R211). -/
def raiseFetch (e : FatalErr) (s : State) : State :=
  match s.active with
  | .decoder => decFatal e s
  | .idle | .accepted | .encoder => raiseFatal e s

/-- One step of the unit that runs (R150, R188). An idle block does nothing (R227, R242). -/
def unitTick (s : State) : State :=
  match s.active with
  | .idle => s
  | .accepted => s
  | .encoder => encTick s
  | .decoder => decTick s

/-- The block runs the instruction it stands at, whole; between instructions it takes a step of its unit. -/
def blockWhole (s : State) : Host.Outcome State Fault Refusal :=
  match fetch s with
  | .ok (some i) => exec i s
  | .ok none => .next (unitTick s)
  | .error e => .next (raiseFetch e s)

/-- The first step of COMPRESS or DECOMPRESS in the step machine: the START check, then the unit runs from its initial state
(R40, R150, R188, R211). -/
def beginUnit (unit : Active) (start : State → State) (s : State) : State :=
  match startError s with
  | some e => raiseFatal e s
  | none => { start s with active := unit }

/-- The step machine at an accepted command. A command of the framer is one step (DEDUCED, log 27). -/
def beginCommand (i : Instr) (s : State) : Host.Outcome State Fault Refusal :=
  match i with
  | .compress _ => .next (beginUnit .encoder startEncoder s)
  | .decompress _ => .next (beginUnit .decoder startDecoder s)
  | .data _ | .code _ | .deltaIter _ _ _
  | .encodeHeader _ | .tryMakeSection _ | .makeSection _ | .readHeader _ | .readPayload _ | .merge _ => exec i s

/-- One step of the step machine. -/
def blockTick (s : State) : Host.Outcome State Fault Refusal :=
  match s.active with
  | .accepted =>
    match fetchCommand s with
    | .ok i => beginCommand i s
    | .error e => .next (raiseFatal e s)
  | .idle | .encoder | .decoder => .next (unitTick s)

/-- The next turn of the schedule; an empty schedule is the block's turn (log 4). -/
def nextTurn (s : State) : Turn :=
  match s.schedule with
  | [] => .whole
  | t :: _ => t

/-- The state with its next turn taken off the schedule. -/
def dropTurn (s : State) : State := { s with schedule := s.schedule.tail }

/-- One turn (log 4, 5). -/
def takeTurn (t : Turn) (s : State) : Host.Outcome State Fault Refusal :=
  match t with
  | .whole => blockWhole s
  | .tick => blockTick s
  | .host a => hostAct a s

/-- Store the bytes of a stream instruction at `at_` in IN, up to the longest instruction (5 bytes). -/
def placeBytes (at_ nbits w : Nat) (s : State) : State :=
  { s with inBuf := s.inBuf.writeBytes at_ (numberBytes 5 (w % 2 ^ nbits)) }

/-- The decoder at work on a stream of `n` bytes, at `dec`, with the block's turn next (log 20). -/
def placeDecoder (n : Nat) (dec : DecRegs) (s : State) : State :=
  { s with
    regs := { s.regs with status := statusBusy, outLen := 0, resLen := 0, errOff := 0 }
    latch := { s.latch with cmd := 0x00000002, aLen := BitVec.ofNat 32 n }
    active := .decoder
    dec := dec
    schedule := .whole :: s.schedule }

/-- The instruction of `nbits` table bits `w` stands where the next step fetches (log 20): a command in CMD with START accepted;
a section header at PC = 0 of the decoder's stream, the stream ending with its section; a DeltaIter as the whole payload of a
Code section at PC = 0. -/
def placeWord (s : State) (nbits w : Nat) : State :=
  match levelOfBits nbits with
  | some .cmdRegister =>
    acceptStart
      { s with regs := { s.regs with cmd := cmdValue (BitVec.ofNat 32 w) }, schedule := .whole :: s.schedule }
  | some .sectionStream =>
    placeDecoder (Config.headerLen + w / 256 % 65536)
      { s.dec with state := .readingHeader, pc := 0, opos := 0 } (placeBytes 0 nbits w s)
  | some .codePayload =>
    placeDecoder (Config.headerLen + Config.instrLen)
      { s.dec with
        state := .interpretingInstructions
        pc := 0
        secType := Config.typeCode
        secLen := BitVec.ofNat 16 Config.instrLen
        payPos := 0
        opos := 0 }
      (placeBytes Config.headerLen nbits w s)
  | none => s

end Sys2Proof.Machine
end

