-- ==== Sys2Proof/Safety.lean ====
section
/-! DEFINITION. What the claims speak of: how a command ends (10_state.md R42), what the block leaves alone, the meaning of a
section stream as a function of its bytes (42_decoder.md R187), the step machine run on its own (R188), the host's duties, and
the invariants of the machine. -/

namespace Sys2Proof.Machine

/-! ### What the block leaves alone -/

/-- The block never writes IN, the operand registers, their latched copies, the capacities, what the host has read, or the
schedule (20_memory.md R60, R71; 70_reset_and_hazards.md R245). -/
structure BlockFrame (s t : State) : Prop where
  inBuf : t.inBuf = s.inBuf
  latch : t.latch = s.latch
  caps : t.caps = s.caps
  schedule : t.schedule = s.schedule
  rdata : t.rdata = s.rdata
  cmd : t.regs.cmd = s.regs.cmd
  aLen : t.regs.aLen = s.regs.aLen
  aOff : t.regs.aOff = s.regs.aOff
  bOff : t.regs.bOff = s.regs.bOff
  pLen : t.regs.pLen = s.regs.pLen

/-- No unit register changes: what a framer command leaves alone. -/
structure UnitsKept (s t : State) : Prop where
  dec : t.dec = s.dec
  enc : t.enc = s.enc
  acc : t.acc = s.acc

/-- What a section or a DeltaIter that completes leaves alone: every host register, whether a command runs, the encoder, the
draws (R183 to R185, "Flags written: none"). -/
structure StreamFrame (s t : State) : Prop extends BlockFrame s t where
  regs : t.regs = s.regs
  active : t.active = s.active
  enc : t.enc = s.enc
  acc : t.acc = s.acc
  draws : t.draws = s.draws

/-! ### How a command ends (R42) -/

/-- The command ended `Ok` with `out` in `OUT[0 .. OUT_LEN-1]`; the rest of OUT is unspecified (R74). -/
structure OkEnd (s t : State) (out : List Byte) (resLen : Nat) (resType : Byte) (hasOvf : Bool) : Prop
    extends BlockFrame s t where
  busy : busyBit t.regs.status = false
  done : doneBit t.regs.status = true
  fail : failBit t.regs.status = false
  fatal : fatalBit t.regs.status = false
  ovf : hasOvfBit t.regs.status = hasOvf
  err : errField t.regs.status = 0
  type : resTypeField t.regs.status = resType
  outLen : t.regs.outLen.toNat = out.length
  resLen : t.regs.resLen.toNat = resLen
  errOff : t.regs.errOff = 0
  active : t.active = .idle
  bytes : ∀ k, k < out.length → t.outBuf.read k = out.getD k 0
  beyond : ∀ a, out.length ≤ a → t.outBuf.read a = Config.freeByte s.draws a
  draws : t.draws = s.draws + 1

/-- The command ended in `Fatal(e.kind, e.off)`: all of OUT is unspecified (60_exceptions.md R212, R213). -/
structure FatalEnd (s t : State) (e : FatalErr) : Prop extends BlockFrame s t where
  busy : busyBit t.regs.status = false
  done : doneBit t.regs.status = true
  fail : failBit t.regs.status = false
  fatal : fatalBit t.regs.status = true
  ovf : hasOvfBit t.regs.status = false
  err : errField t.regs.status = e.kind.code
  type : resTypeField t.regs.status = 0
  outLen : t.regs.outLen = 0
  resLen : t.regs.resLen = 0
  errOff : t.regs.errOff.toNat = e.off
  active : t.active = .idle
  out : ∀ a, t.outBuf.read a = Config.freeByte s.draws a
  draws : t.draws = s.draws + 1

/-- The command ended in `Fail(PayloadTooLarge)`: OUT is as before (R214). -/
structure FailEnd (s t : State) : Prop extends BlockFrame s t where
  busy : busyBit t.regs.status = false
  done : doneBit t.regs.status = true
  fail : failBit t.regs.status = true
  fatal : fatalBit t.regs.status = false
  ovf : hasOvfBit t.regs.status = false
  err : errField t.regs.status = 1
  type : resTypeField t.regs.status = 0
  outLen : t.regs.outLen = 0
  resLen : t.regs.resLen = 0
  errOff : t.regs.errOff = s.latch.aOff
  active : t.active = .idle
  out : t.outBuf = s.outBuf
  draws : t.draws = s.draws

/-- The bytes a host may trust: `OUT[0 .. OUT_LEN-1]` after DONE = 1 with `Ok` (R68, R213). -/
def State.trustedOut (s : State) : Option (List Byte) :=
  if doneBit s.regs.status && !failBit s.regs.status && !fatalBit s.regs.status then
    some (s.outBuf.readBytes 0 s.regs.outLen.toNat)
  else none

/-! ### The meaning of a stream, on bytes alone (R187, R191, R192) -/

/-- The bytes of a DeltaIter: `(s + k * d) mod 256` for `k < count` (R185). -/
def runBytes (start : Byte) (count : Nat) (delta : Byte) : List Byte :=
  (List.range count).map (fun k => BitVec.ofNat 8 (start.toNat + k * delta.toNat))

/-- What a Code payload at offset `q` emits, and the error that stops it (R184). -/
def codeResult (q : Nat) : List Byte → List Byte × Option FatalErr
  | [] => ([], none)
  | tag :: start :: lo :: hi :: delta :: rest =>
    if tag = 0 then
      let (out, e) := codeResult (q + 5) rest
      (runBytes start (lo.toNat + 256 * hi.toNat) delta ++ out, e)
    else ([], some { kind := .unknownOpcode, off := q })
  | tag :: _ =>
    if tag = 0 then ([], some { kind := .truncatedInstruction, off := q })
    else ([], some { kind := .unknownOpcode, off := q })

/-- What a stream whose next header is at offset `pc` emits, and the error that stops it (R181 to R186). Every section takes at
least 3 bytes, so `fuel` = its length is enough. -/
def streamResult : Nat → Nat → List Byte → List Byte × Option FatalErr
  | _, _, [] => ([], none)
  | fuel + 1, pc, type :: lo :: hi :: rest =>
    let length := lo.toNat + 256 * hi.toNat
    if type ≠ 0 ∧ type ≠ 1 then ([], some { kind := .unknownSectionType, off := pc })
    else if rest.length < length then ([], some { kind := .truncatedStream, off := pc })
    else
      let (out, e) := if type = 0 then (rest.take length, none) else codeResult (pc + 3) (rest.take length)
      match e with
      | some e => (out, some e)
      | none =>
        let (more, e') := streamResult fuel (pc + 3 + length) (rest.drop length)
        (out ++ more, e')
  | _, pc, _ => ([], some { kind := .truncatedStream, off := pc })

/-- `2*S + 2*I` of R188: two steps for every section and every instruction of a stream. -/
def streamSteps : Nat → List Byte → Nat
  | fuel + 1, type :: lo :: hi :: rest =>
    let length := lo.toNat + 256 * hi.toNat
    2 + (if type = 0 then 0 else 2 * (length / 5)) + streamSteps fuel (rest.drop length)
  | _, _ => 0

/-- The bytes one section stands for, when it is whole. -/
def sectionBytes (x : Section) : List Byte :=
  match x.type with
  | .data => x.payload
  | .code => (codeResult 0 x.payload).1

/-- The bytes of a list of sections: a type byte, the length low byte first, the payload, section after section (R13, R80, R81). -/
def streamBytes (sections : List Section) : List Byte :=
  sections.flatMap fun x =>
    (match x.type with | .data => 0 | .code => 1) ::
      BitVec.ofNat 8 (x.payload.length % 256) :: BitVec.ofNat 8 (x.payload.length / 256) :: x.payload

/-! ### The step machine on its own (R150, R188) -/

/-- `k` ticks of the block, the host taking no turn. -/
def ticks : Nat → State → State
  | 0, s => s
  | k + 1, s =>
    match blockTick s with
    | .next t => ticks k t
    | .fault _ => s
    | .refused _ => s

/-! ### The host's duties (10_state.md R33, R35; 70_reset_and_hazards.md R244) -/

/-- The host may make this access now. -/
def dutiful (a : HostAction) (s : State) : Bool :=
  match a with
  | .readReg off width => width = 4 && off % 4 = 0
  | .writeReg off width _ => width = 4 && off % 4 = 0
  | .readIn off => off < s.caps.inCap.toNat
  | .writeIn off _ => off < s.caps.inCap.toNat && !busyBit s.regs.status
  | .readOut off => off < s.caps.outCap.toNat
  | .reset => true

/-- The next turn is the block's, or an access the host may make. -/
def dutifulTurn (s : State) : Bool :=
  match nextTurn s with
  | .whole => true
  | .tick => true
  | .host a => dutiful a s

/-- The operand registers replaced: what a host may do while a command runs (R245). -/
def withOperandRegs (cmd aLen aOff bOff pLen : Word) (s : State) : State :=
  { s with regs := { s.regs with cmd := cmd, aLen := aLen, aOff := aOff, bOff := bOff, pLen := pLen } }

/-! ### Invariants -/

/-- IN and OUT are in canonical form and hold no byte outside their capacity (R35, R60, R61). -/
structure MemoryInv (s : State) : Prop where
  inWf : s.inBuf.wf = true
  outWf : s.outBuf.wf = true
  inBound : ∀ c ∈ s.inBuf.cells, c.1 < s.caps.inCap.toNat
  outBound : ∀ c ∈ s.outBuf.cells, c.1 < s.caps.outCap.toNat

/-- STATUS, CMD and the result registers are as R22, R24, R29 to R31, R210 and R246 say they read: while a command runs, after one that
ended in an error, after one that ended `Ok`, and before the first. -/
structure StatusInv (s : State) : Prop where
  busy : busyBit s.regs.status = true ↔ s.active ≠ .idle
  running : busyBit s.regs.status = true →
    s.regs.status = 1 ∧ s.regs.outLen = 0 ∧ s.regs.resLen = 0 ∧ s.regs.errOff = 0
  reserved : s.regs.status.extractLsb' 5 3 = 0 ∧ s.regs.status.extractLsb' 24 8 = 0
  oneOutcome : ¬ (failBit s.regs.status = true ∧ fatalBit s.regs.status = true)
  ended : failBit s.regs.status = true ∨ fatalBit s.regs.status = true → doneBit s.regs.status = true
  err : errField s.regs.status = 0 ↔ failBit s.regs.status = false ∧ fatalBit s.regs.status = false
  errRange : (errField s.regs.status).toNat ≤ 8
  resType : (resTypeField s.regs.status).toNat ≤ 1
  ovf : hasOvfBit s.regs.status = true →
    doneBit s.regs.status = true ∧ failBit s.regs.status = false ∧ fatalBit s.regs.status = false
  noResult : failBit s.regs.status = true ∨ fatalBit s.regs.status = true →
    s.regs.outLen = 0 ∧ s.regs.resLen = 0 ∧ resTypeField s.regs.status = 0
  noError : errField s.regs.status = 0 → s.regs.errOff = 0
  noOffset : errField s.regs.status = 7 ∨ errField s.regs.status = 8 → s.regs.errOff = 0
  noCommand : busyBit s.regs.status = false → doneBit s.regs.status = false →
    s.regs.status = 0 ∧ s.regs.outLen = 0 ∧ s.regs.resLen = 0 ∧ s.regs.errOff = 0
  cmdReserved : s.regs.cmd.extractLsb' 16 16 = 0

/-- The decoder's state is inside a section. -/
def DecState.inSection : DecState → Bool
  | .copyingLiteral => true
  | .interpretingInstructions => true
  | .emittingRun => true
  | .idle => false
  | .readingHeader => false
  | .done => false
  | .fatal => false

/-- While the decoder runs, its cursors stay inside the stream, the payload and OUT (R37, R60, R186), every byte of OUT below OPOS
has been written (R61), and DI_VAL is the byte of index DI_K (R36, R189). -/
structure DecoderInv (s : State) : Prop where
  cap : s.active = .decoder → s.n ≤ s.caps.inCap.toNat
  pc : s.active = .decoder → s.dec.pc.toNat ≤ s.n
  opos : s.active = .decoder → s.dec.opos.toNat ≤ s.caps.outCap.toNat
  written : s.active = .decoder → ∀ a, a < s.dec.opos.toNat → (lookupCell s.outBuf.cells a).isSome = true
  running : s.active = .decoder → s.dec.state ≠ .idle ∧ s.dec.state ≠ .fatal
  done : s.active = .decoder → s.dec.state = .done → s.dec.pc.toNat = s.n
  inSection : s.active = .decoder → s.dec.state.inSection = true →
    s.dec.pc.toNat + 3 + s.dec.secLen.toNat ≤ s.n ∧ s.dec.payPos.toNat ≤ s.dec.secLen.toNat
  type : s.active = .decoder → s.dec.state.inSection = true →
    s.dec.secType = if s.dec.state = .copyingLiteral then 0 else 1
  run : s.active = .decoder → s.dec.state = .emittingRun →
    s.dec.diK.toNat ≤ s.dec.diCount.toNat ∧
      s.dec.diVal = BitVec.ofNat 8 (s.dec.diStart.toNat + s.dec.diK.toNat * s.dec.diDelta.toNat)

/-- While the encoder runs, its cursors stay inside the input, RUNLEN is `J - ANCHOR - 1` (R38), a run is at most 65535 bytes
(R154), every section is within its bound (R113) and ACC_LEN is the length of ACC (R39); in Done the stream stands in OUT (R159). -/
structure EncoderInv (s : State) : Prop where
  cap : s.active = .encoder → s.n ≤ s.caps.inCap.toNat
  anchor : s.active = .encoder → s.enc.anchor.toNat ≤ s.n
  running : s.active = .encoder → s.enc.state ≠ .idle ∧ s.enc.state ≠ .fatal
  run : s.active = .encoder → s.enc.state = .emitCode ∨ s.enc.state = .emitLiteral →
    s.enc.anchor.toNat + 2 ≤ s.enc.j.toNat ∧ s.enc.j.toNat ≤ s.n ∧ s.enc.j.toNat - s.enc.anchor.toNat ≤ 65535 ∧
      s.enc.runLen.toNat = s.enc.j.toNat - s.enc.anchor.toNat - 1
  threshold : s.active = .encoder →
    (s.enc.state = .emitCode → 10 < s.enc.runLen.toNat) ∧ (s.enc.state = .emitLiteral → s.enc.runLen.toNat ≤ 10)
  breakByte : s.active = .encoder → s.enc.state = .emitBreak → s.enc.j.toNat < s.n
  tail : s.active = .encoder → s.enc.state = .emitTail → s.enc.anchor.toNat + 1 = s.n
  sections : s.active = .encoder → ∀ x ∈ s.enc.raw ++ s.enc.outs, x.payload.length ≤ 65535
  acc : s.active = .encoder → s.acc.valid = true → s.acc.len.toNat = s.acc.data.length ∧ s.acc.type.toNat ≤ 1
  done : s.active = .encoder → s.enc.state = .done →
    (streamBytes s.enc.outs).length ≤ s.caps.outCap.toNat ∧
      ∀ k, k < (streamBytes s.enc.outs).length →
        lookupCell s.outBuf.cells k = some ((streamBytes s.enc.outs).getD k 0)

end Sys2Proof.Machine
end

