-- ==== Sys2Proof/Certificates/Slice0/Obligations.lean ====
section
/-! DEFINITION. The statements for the provers. Each docstring names the rule of spec/ it formalises. -/

open Sys2Proof Sys2Proof.Machine

/-! ### Reset and invariants -/

/-- R41, R240: whatever the block was doing, reset leaves every register reading 0, both units Idle, ACC_VALID = 0, and IN and OUT
unspecified (new free values). That no command runs then and that the capacities stay is the model's choice (log 9, 21), and so is
the form of the free values (log 1, 7). -/
def Obligations.ResetLeavesTheSpecsState : Prop :=
  ∀ s : State, ∃ t, hostAct .reset s = .next t ∧
    (∀ off, regRead t.regs off = 0) ∧ t.dec.state = .idle ∧ t.enc.state = .idle ∧ t.acc.valid = false ∧
    t.active = .idle ∧ (∀ a, t.inBuf.read a = Config.freeByte s.draws a) ∧
    (∀ a, t.outBuf.read a = Config.freeByte (s.draws + 1) a) ∧ t.caps = s.caps

/-- The four invariants hold at `State.reset`. The capacities and the unit registers of `State.reset` are the model's choice (log
2, 3). -/
def Obligations.ResetMeetsInvariants : Prop :=
  MemoryInv State.reset ∧ StatusInv State.reset ∧ DecoderInv State.reset ∧ EncoderInv State.reset

/-- Every step, the host's turns too, keeps IN and OUT canonical and inside their capacities (R35, R60, R61). The canonical form
is the model's choice (log 1). -/
def Obligations.StepKeepsMemoryCanonical : Prop :=
  ∀ s t : State, MemoryInv s → step s = .next t → MemoryInv t

/-- Every step keeps STATUS, CMD and the result registers legal: BUSY exactly while a command runs, then every other field and
register 0; at most one of FAIL and FATAL; ERR 0 to 8; reserved bits 0; after an error OUT_LEN, RES_LEN and RES_TYPE 0; without one,
and for CapacityExceeded and BadCommand, ERR_OFF 0; before the first command all 0 (R22, R24, R29 to R31, R41, R210, R246). That a
command runs is read off the model's own field `active` (log 9). -/
def Obligations.StepKeepsStatusLegal : Prop :=
  ∀ s t : State, StatusInv s → step s = .next t → StatusInv t

/-- Every step keeps the running decoder's cursors inside the stream, the payload and OUT, and DI_VAL the byte of index DI_K
(R36, R37, R60, R186). -/
def Obligations.StepKeepsDecoderBounds : Prop :=
  ∀ s t : State, DecoderInv s → step s = .next t → DecoderInv t

/-- Every step keeps the running encoder's cursors inside the input, RUNLEN = J - ANCHOR - 1, runs of at most 65535 bytes,
sections within their bound and ACC_LEN the length of ACC (R38, R39, R113, R154). -/
def Obligations.StepKeepsEncoderBounds : Prop :=
  ∀ s t : State, EncoderInv s → step s = .next t → EncoderInv t

/-! ### The step -/

/-- On the block's whole turn, a step runs the instruction whose bytes stand where the block fetches: the latched CMD word of an
accepted command; the 3 header bytes at PC; the 5 bytes at the tag offset of a Code payload. Whose turn it is, is the model's
choice (log 4, 5). -/
def Obligations.StepRunsTheFetchedInstruction : Prop :=
  (∀ (s : State) (i : Instr) (rest : List Byte), nextTurn s = .whole → s.active = .accepted →
    decode .cmdRegister (numberBytes 4 s.latch.cmd.toNat) = .ok (i, rest) → step s = exec i (dropTurn s)) ∧
  (∀ (s : State) (i : Instr) (rest : List Byte), nextTurn s = .whole → s.active = .decoder →
    s.dec.state = .readingHeader → s.dec.pc.toNat + 3 ≤ s.n →
    decode .sectionStream
      [s.in1 s.dec.pc.toNat, s.in1 (s.dec.pc.toNat + 1), s.in1 (s.dec.pc.toNat + 2)] = .ok (i, rest) →
    step s = exec i (dropTurn s)) ∧
  (∀ (s : State) (i : Instr) (rest : List Byte), nextTurn s = .whole → s.active = .decoder →
    s.dec.state = .interpretingInstructions → s.dec.payPos.toNat + 5 ≤ s.dec.secLen.toNat →
    decode .codePayload
      [s.in1 (tagOffset s), s.in1 (tagOffset s + 1), s.in1 (tagOffset s + 2), s.in1 (tagOffset s + 3),
        s.in1 (tagOffset s + 4)] = .ok (i, rest) →
    step s = exec i (dropTurn s))

/-- A step answers a next state exactly when the next turn is the block's or an access the host may make: no instruction stops the
machine, and only the accesses of R33, R35 and R244 do. That a byte outside a buffer is a fault is the model's reading (log 11). -/
def Obligations.StepStopsOnlyOnHostViolations : Prop :=
  ∀ s : State, (∃ t, step s = .next t) ↔ dutifulTurn s = true

/-- R227, R242: an idle block does nothing on its turn. Turns are the model's own (log 4). -/
def Obligations.IdleBlockDoesNothing : Prop :=
  ∀ s : State, s.active = .idle → nextTurn s = .whole ∨ nextTurn s = .tick → step s = .next (dropTurn s)

/-- On its turns the block changes neither IN, nor the operand registers, nor their latched copies (R60, R71, R108, R245). -/
def Obligations.BlockNeverWritesInOrOperands : Prop :=
  ∀ s t : State, nextTurn s = .whole ∨ nextTurn s = .tick → step s = .next t → BlockFrame (dropTurn s) t

/-- R245: what the host writes to the operand registers while a command runs does not affect it. -/
def Obligations.OperandWritesDoNotReachTheRunningCommand : Prop :=
  ∀ (s t : State) (cmd aLen aOff bOff pLen : Word), nextTurn s = .whole ∨ nextTurn s = .tick → step s = .next t →
    step (withOperandRegs cmd aLen aOff bOff pLen s) = .next (withOperandRegs cmd aLen aOff bOff pLen t)

/-- R25, R40: the result of a command depends only on its latched operands, the capacities and `IN[0 .. A_LEN-1]`, not on anything
an earlier command or reset left in the units or in OUT. -/
def Obligations.CommandResultDependsOnlyOnOperandsAndIn : Prop :=
  ∀ (i : Instr) (s u t v : State), i.level = .cmdRegister → s.latch = u.latch → s.caps = u.caps →
    (∀ a, a < s.n → s.inBuf.read a = u.inBuf.read a) → exec i s = .next t → exec i u = .next v →
    t.regs.status = v.regs.status ∧ t.regs.outLen = v.regs.outLen ∧ t.regs.resLen = v.regs.resLen ∧
      t.regs.errOff = v.regs.errOff ∧ ∀ a, a < t.regs.outLen.toNat → t.outBuf.read a = v.outBuf.read a

/-- R248: every command ends: run whole, in one step with DONE = 1 and BUSY = 0; run by the step machine, within `16384 * A_LEN + 8`
ticks, a bound that 5 payload bytes to 65535 output bytes leave room in. That no command runs then is read off the model's own
field `active` (log 9), and the ticks before and after a unit's own are its reading (log 10, 16). -/
def Obligations.EveryCommandEnds : Prop :=
  (∀ (i : Instr) (s : State), i.level = .cmdRegister →
    ∃ t, exec i s = .next t ∧ t.active = .idle ∧ doneBit t.regs.status = true ∧ busyBit t.regs.status = false) ∧
  ∀ s : State, s.active = .accepted →
    ∃ k, k ≤ 16384 * s.n + 8 ∧ (ticks k s).active = .idle ∧ doneBit (ticks k s).regs.status = true ∧
      busyBit (ticks k s).regs.status = false

/-! ### Encoding -/

/-- Decoding the bytes of an instruction, at its level, gives the instruction and leaves the bytes after it (R81, R84, R88). -/
def Obligations.DecodeOfEncode : Prop :=
  ∀ (i : Instr) (rest : List Byte), decode i.level (encode i ++ rest) = .ok (i, rest)

/-- Whatever decodes was encoded so: the bytes are those of the instruction, but for the two reserved bytes of a CMD word. -/
def Obligations.EncodeOfDecode : Prop :=
  ∀ (level : Level) (bytes : List Byte) (i : Instr) (rest : List Byte), decode level bytes = .ok (i, rest) →
    i.level = level ∧
      (level ≠ .cmdRegister → bytes = encode i ++ rest) ∧
      (level = .cmdRegister → bytes.take 2 = (encode i).take 2 ∧ rest = bytes.drop 4)

/-- The fields of the opcode table's words: length in bits 23:8 of a header; startValue, count and delta in bits 15:8, 31:16 and
39:32 of a DeltaIter (R81, R84). -/
def Obligations.TableWordFields : Prop :=
  (∀ length : Half,
    decodeTableWord 24 (256 * length.toNat) = some (.data length) ∧
    decodeTableWord 24 (256 * length.toNat + 1) = some (.code length)) ∧
  ∀ (start delta : Byte) (count : Half),
    decodeTableWord 40 (256 * start.toNat + 65536 * count.toNat + 4294967296 * delta.toNat) =
      some (.deltaIter start count delta)

/-- R82, R85, R89: type bytes 0x02 to 0xFF, tags 0x01 to 0xFF and OPs 0x00 and 0x09 to 0xFF are no instruction, whatever follows. -/
def Obligations.IllegalEncodingsAreRejected : Prop :=
  (∀ (type lo hi : Byte) (rest : List Byte), 2 ≤ type.toNat →
    decode .sectionStream (type :: lo :: hi :: rest) = .error (.unknownSectionType type)) ∧
  (∀ (tag : Byte) (rest : List Byte), 1 ≤ tag.toNat →
    decode .codePayload (tag :: rest) = .error (.unknownOpcode tag)) ∧
  ∀ (op type r0 r1 : Byte) (rest : List Byte), op = 0 ∨ 9 ≤ op.toNat →
    decode .cmdRegister (op :: type :: r0 :: r1 :: rest) = .error (.badCommand op)

/-- Words of the spec decode to the instructions it says: W5's DeltaIter, the headers of V-F2 and W3, a CMD of COMPRESS and one of
MAKE_SECTION with TYPE 1. -/
def Obligations.SpecWordsDecode : Prop :=
  decode .codePayload [0x00, 0xFA, 0x0A, 0x00, 0x05] = .ok (.deltaIter 250 10 5, []) ∧
  decode .sectionStream [0x01, 0x05, 0x00] = .ok (.code 5, []) ∧
  decode .sectionStream [0x00, 0xFF, 0xFF] = .ok (.data 65535, []) ∧
  decode .cmdRegister [0x01, 0x00, 0x00, 0x00] = .ok (.compress 0, []) ∧
  decode .cmdRegister [0x05, 0x01, 0x00, 0x00] = .ok (.makeSection 1, [])

/-! ### The decoder -/

/-- R183, with the payload check of R181 and the advance of R186: DATA copies its payload to OUT at OPOS and passes the section,
and changes nothing else; a payload past the stream is TruncatedStream at PC; a full OUT is CapacityExceeded. In a frame the
model's own fields stay too (log 4, 6, 7, 9). -/
def Obligations.DataCopiesItsPayload : Prop :=
  ∀ (length : Half) (s : State), ∃ t, exec (.data length) s = .next t ∧
    (if s.dec.pc.toNat + 3 + length.toNat > s.n then
      FatalEnd s t { kind := .truncatedStream, off := s.dec.pc.toNat }
    else if length ≠ 0 ∧ s.dec.opos.toNat + length.toNat > s.caps.outCap.toNat then
      FatalEnd s t { kind := .capacityExceeded, off := 0 }
    else
      StreamFrame s t ∧
      t.dec = { s.dec with
        state := .readingHeader
        pc := BitVec.ofNat 32 (s.dec.pc.toNat + 3 + length.toNat)
        secType := 0
        secLen := length
        payPos := length
        opos := BitVec.ofNat 32 (s.dec.opos.toNat + length.toNat) } ∧
      (∀ k, k < length.toNat →
        t.outBuf.read (s.dec.opos.toNat + k) = s.inBuf.read (s.dec.pc.toNat + 3 + k)) ∧
      ∀ a, a < s.dec.opos.toNat ∨ s.dec.opos.toNat + length.toNat ≤ a → t.outBuf.read a = s.outBuf.read a)

/-- R185: DELTAITER emits `(startValue + k * delta) mod 256` at `OPOS + k` for k < count, and nothing else changes in OUT; CapacityExceeded
when they do not fit. -/
def Obligations.DeltaIterEmitsItsRun : Prop :=
  ∀ (start : Byte) (count : Half) (delta : Byte) (s : State), ∃ t, exec (.deltaIter start count delta) s = .next t ∧
    (if count ≠ 0 ∧ s.dec.opos.toNat + count.toNat > s.caps.outCap.toNat then
      FatalEnd s t { kind := .capacityExceeded, off := 0 }
    else
      StreamFrame s t ∧
      t.dec = { s.dec with
        state := .interpretingInstructions
        payPos := BitVec.ofNat 16 (s.dec.payPos.toNat + 5)
        diStart := start
        diCount := count
        diDelta := delta
        diK := count
        diVal := BitVec.ofNat 8 (start.toNat + count.toNat * delta.toNat)
        opos := BitVec.ofNat 32 (s.dec.opos.toNat + count.toNat) } ∧
      (∀ k, k < count.toNat →
        t.outBuf.read (s.dec.opos.toNat + k) = BitVec.ofNat 8 (start.toNat + k * delta.toNat)) ∧
      ∀ a, a < s.dec.opos.toNat ∨ s.dec.opos.toNat + count.toNat ≤ a → t.outBuf.read a = s.outBuf.read a)

/-- R184: CODE emits what its payload's instructions emit, in order, and passes the section; or it ends in the first error: the payload
past the stream, an output byte past OUT_CAP, an unknown tag, an instruction cut short. -/
def Obligations.CodeInterpretsItsPayload : Prop :=
  ∀ (length : Half) (s : State), ∃ t, exec (.code length) s = .next t ∧
    (let r := codeResult (s.dec.pc.toNat + 3) (s.inBuf.readBytes (s.dec.pc.toNat + 3) length.toNat)
    if s.dec.pc.toNat + 3 + length.toNat > s.n then
      FatalEnd s t { kind := .truncatedStream, off := s.dec.pc.toNat }
    else if r.1 ≠ [] ∧ s.dec.opos.toNat + r.1.length > s.caps.outCap.toNat then
      FatalEnd s t { kind := .capacityExceeded, off := 0 }
    else
      match r.2 with
      | some e => FatalEnd s t e
      | none =>
        StreamFrame s t ∧
        t.dec.state = .readingHeader ∧ t.dec.pc.toNat = s.dec.pc.toNat + 3 + length.toNat ∧
        t.dec.secType = 1 ∧ t.dec.secLen = length ∧ t.dec.payPos = length ∧
        t.dec.opos.toNat = s.dec.opos.toNat + r.1.length ∧
        (∀ k, k < r.1.length → t.outBuf.read (s.dec.opos.toNat + k) = r.1.getD k 0) ∧
        ∀ a, a < s.dec.opos.toNat ∨ s.dec.opos.toNat + r.1.length ≤ a → t.outBuf.read a = s.outBuf.read a)

/-- R181, R182, on the block's whole turn or a tick: the header must fit, then its type be known, then its payload fit, each at PC;
and a tick that meets no error loads SEC_TYPE and SEC_LEN and clears PAY_POS. -/
def Obligations.HeaderIsCheckedInOrder : Prop :=
  ∀ s : State, s.active = .decoder → s.dec.state = .readingHeader → s.dec.pc.toNat < s.n →
    nextTurn s = .whole ∨ nextTurn s = .tick →
    ∃ t, step s = .next t ∧
      (let pc := s.dec.pc.toNat
      let length := (s.in1 (pc + 1)).toNat + 256 * (s.in1 (pc + 2)).toNat
      if pc + 3 > s.n then FatalEnd (dropTurn s) t { kind := .truncatedStream, off := pc }
      else if s.in1 pc ≠ 0 ∧ s.in1 pc ≠ 1 then FatalEnd (dropTurn s) t { kind := .unknownSectionType, off := pc }
      else if pc + 3 + length > s.n then FatalEnd (dropTurn s) t { kind := .truncatedStream, off := pc }
      else
        nextTurn s = .tick →
          t = { dropTurn s with
            dec := { s.dec with
              state := if s.in1 pc = 0 then .copyingLiteral else .interpretingInstructions
              secType := s.in1 pc
              secLen := BitVec.ofNat 16 length
              payPos := 0 } })

/-- R184, R188, on the block's whole turn or a tick inside a Code payload: the tag is checked first, then that 5 payload bytes remain,
both at the tag's offset; and a tick that meets no error loads the DeltaIter. -/
def Obligations.InstructionIsCheckedInOrder : Prop :=
  ∀ s : State, DecoderInv s → s.active = .decoder → s.dec.state = .interpretingInstructions →
    s.dec.payPos.toNat < s.dec.secLen.toNat → nextTurn s = .whole ∨ nextTurn s = .tick →
    ∃ t, step s = .next t ∧
      (let q := s.dec.pc.toNat + 3 + s.dec.payPos.toNat
      if s.in1 q ≠ 0 then FatalEnd (dropTurn s) t { kind := .unknownOpcode, off := q }
      else if s.dec.secLen.toNat < s.dec.payPos.toNat + 5 then
        FatalEnd (dropTurn s) t { kind := .truncatedInstruction, off := q }
      else
        nextTurn s = .tick →
          t = { dropTurn s with
            dec := { s.dec with
              state := .emittingRun
              payPos := BitVec.ofNat 16 (s.dec.payPos.toNat + 5)
              diStart := s.in1 (q + 1)
              diCount := BitVec.ofNat 16 ((s.in1 (q + 2)).toNat + 256 * (s.in1 (q + 3)).toNat)
              diDelta := s.in1 (q + 4)
              diK := 0
              diVal := s.in1 (q + 1) } })

/-- The rows of R188's table that move a byte or end a section or an instruction, one tick each: the advance of PC, the byte written at
OPOS, the counters, CapacityExceeded when OUT is full, and the end with OUT_LEN = OPOS. -/
def Obligations.DecoderTicksFollowTheTable : Prop :=
  ∀ s : State, s.active = .decoder → nextTurn s = .tick →
    (s.dec.state = .readingHeader → s.dec.pc.toNat = s.n →
      step s = .next { dropTurn s with dec := { s.dec with state := .done } }) ∧
    (s.dec.state = .copyingLiteral ∨ s.dec.state = .interpretingInstructions → s.dec.payPos = s.dec.secLen →
      step s = .next { dropTurn s with
        dec := { s.dec with
          state := .readingHeader, pc := BitVec.ofNat 32 (s.dec.pc.toNat + 3 + s.dec.secLen.toNat) } }) ∧
    (s.dec.state = .copyingLiteral → s.dec.payPos.toNat < s.dec.secLen.toNat →
      ∃ t, step s = .next t ∧
        if s.dec.opos.toNat < s.caps.outCap.toNat then
          StreamFrame (dropTurn s) t ∧
          t.dec = { s.dec with
            opos := BitVec.ofNat 32 (s.dec.opos.toNat + 1), payPos := BitVec.ofNat 16 (s.dec.payPos.toNat + 1) } ∧
          t.outBuf.read s.dec.opos.toNat = s.in1 (s.dec.pc.toNat + 3 + s.dec.payPos.toNat) ∧
          ∀ a, a ≠ s.dec.opos.toNat → t.outBuf.read a = s.outBuf.read a
        else FatalEnd (dropTurn s) t { kind := .capacityExceeded, off := 0 }) ∧
    (s.dec.state = .emittingRun → s.dec.diK = s.dec.diCount →
      step s = .next { dropTurn s with dec := { s.dec with state := .interpretingInstructions } }) ∧
    (s.dec.state = .emittingRun → s.dec.diK.toNat < s.dec.diCount.toNat →
      ∃ t, step s = .next t ∧
        if s.dec.opos.toNat < s.caps.outCap.toNat then
          StreamFrame (dropTurn s) t ∧
          t.dec = { s.dec with
            opos := BitVec.ofNat 32 (s.dec.opos.toNat + 1)
            diK := BitVec.ofNat 16 (s.dec.diK.toNat + 1)
            diVal := s.dec.diVal + s.dec.diDelta } ∧
          t.outBuf.read s.dec.opos.toNat = s.dec.diVal ∧
          ∀ a, a ≠ s.dec.opos.toNat → t.outBuf.read a = s.outBuf.read a
        else FatalEnd (dropTurn s) t { kind := .capacityExceeded, off := 0 }) ∧
    (DecoderInv s → s.dec.state = .done →
      ∃ t, step s = .next t ∧ OkEnd (dropTurn s) t (s.outBuf.readBytes 0 s.dec.opos.toNat) 0 0 false)

/-- R189: after `k` emitting ticks DI_VAL is `(DI_START + k * DI_DELTA) mod 256`, and the bytes emitted are those of the closed form. -/
def Obligations.RunValueIsTheClosedForm : Prop :=
  ∀ (s : State) (k : Nat), s.active = .decoder → s.dec.state = .emittingRun → s.dec.diK = 0 →
    s.dec.diVal = s.dec.diStart → k ≤ s.dec.diCount.toNat →
    s.dec.opos.toNat + k ≤ s.caps.outCap.toNat →
    (ticks k s).dec.state = .emittingRun ∧ (ticks k s).dec.diK.toNat = k ∧
      (ticks k s).dec.diVal = BitVec.ofNat 8 (s.dec.diStart.toNat + k * s.dec.diDelta.toNat) ∧
      ∀ x, x < k → (ticks k s).outBuf.read (s.dec.opos.toNat + x) =
        BitVec.ofNat 8 (s.dec.diStart.toNat + x * s.dec.diDelta.toNat)

/-- Running a stream instruction whole is running its ticks, to the same state in every register (R187, R247). The whole turn and the
tick are the model's two granularities (log 5). -/
def Obligations.WholeStreamInstructionIsItsTicks : Prop :=
  ∀ (s t : State) (i : Instr), s.active = .decoder → fetch s = .ok (some i) → exec i s = .next t →
    ∃ k, 0 < k ∧ ticks k s = t

/-- R187: the complete definition of DECOMPRESS and the step machine give the same outcome: the ticks of an accepted DECOMPRESS reach
the very state its meaning gives. That the START check is the first tick is the model's reading (log 10). -/
def Obligations.DecompressIsItsTicks : Prop :=
  ∀ (s t : State) (type : Byte), s.active = .accepted → cmdOp s.latch.cmd = 0x02 →
    exec (.decompress type) s = .next t → ∃ k, 0 < k ∧ ticks k s = t

/-- R180, R192, R215: DECOMPRESS writes what the stream stands for, or ends in the first error in stream order, CapacityExceeded at the
first output byte past OUT_CAP. The stream's meaning is `streamResult`, a function of its bytes. -/
def Obligations.DecompressMeetsTheStreamsMeaning : Prop :=
  ∀ (type : Byte) (s : State), ∃ t, exec (.decompress type) s = .next t ∧ t.enc = s.enc ∧ t.acc = s.acc ∧
    (let r := streamResult s.n 0 s.input
    if s.n > s.caps.inCap.toNat then FatalEnd s t { kind := .badCommand, off := 0 }
    else if r.1.length > s.caps.outCap.toNat then FatalEnd s t { kind := .capacityExceeded, off := 0 }
    else
      match r.2 with
      | some e => FatalEnd s t e
      | none => OkEnd s t r.1 0 0 false)

/-- R188, 90_conflicts.md C8: a run that ends in Done takes exactly 2*S + 2*I + O + 1 ticks from ReadingHeader (one tick before it
begins the command, one after it ends it). The ticks before and after are the model's reading (log 10, 16). -/
def Obligations.DecoderTakesTheTablesSteps : Prop :=
  ∀ (s : State) (out : List Byte), s.active = .accepted → cmdOp s.latch.cmd = 0x02 → s.n ≤ s.caps.inCap.toNat →
    streamResult s.n 0 s.input = (out, none) → out.length ≤ s.caps.outCap.toNat →
    (∀ j, j ≤ streamSteps s.n s.input + out.length → (ticks (1 + j) s).dec.state ≠ .done) ∧
      (ticks (1 + (streamSteps s.n s.input + out.length + 1)) s).dec.state = .done ∧
      (ticks (1 + (streamSteps s.n s.input + out.length + 1)) s).active = .decoder ∧
      (ticks (1 + (streamSteps s.n s.input + out.length + 1) + 1) s).active = .idle

/-! ### The framer -/

/-- R101: ENCODE_HEADER writes the type byte and the little-endian length; UnknownSectionType, PayloadTooLarge and CapacityExceeded in
that order, each at offset 0. -/
def Obligations.EncodeHeaderWritesTheHeader : Prop :=
  ∀ (type : Byte) (s : State), s.n ≤ s.caps.inCap.toNat → ∃ t, exec (.encodeHeader type) s = .next t ∧ UnitsKept s t ∧
    (if type ≠ 0 ∧ type ≠ 1 then FatalEnd s t { kind := .unknownSectionType, off := 0 }
    else if s.pLen > 65535 then FatalEnd s t { kind := .payloadTooLarge, off := 0 }
    else if s.caps.outCap.toNat < 3 then FatalEnd s t { kind := .capacityExceeded, off := 0 }
    else OkEnd s t [type, BitVec.ofNat 8 (s.pLen % 256), BitVec.ofNat 8 (s.pLen / 256)] 0 0 false)

/-- R103: TRY_MAKE_SECTION writes the header and the payload `IN[A_OFF .. A_OFF+P_LEN-1]`; UnknownSectionType, then BadCommand, then the
normal failure above 65535 bytes, then CapacityExceeded. -/
def Obligations.TryMakeSectionWritesTheSectionOrFails : Prop :=
  ∀ (type : Byte) (s : State), s.n ≤ s.caps.inCap.toNat → ∃ t, exec (.tryMakeSection type) s = .next t ∧ UnitsKept s t ∧
    (if type ≠ 0 ∧ type ≠ 1 then FatalEnd s t { kind := .unknownSectionType, off := 0 }
    else if s.aOff + s.pLen > s.n then FatalEnd s t { kind := .badCommand, off := 0 }
    else if s.pLen > 65535 then FailEnd s t
    else if 3 + s.pLen > s.caps.outCap.toNat then FatalEnd s t { kind := .capacityExceeded, off := 0 }
    else
      OkEnd s t
        (type :: BitVec.ofNat 8 (s.pLen % 256) :: BitVec.ofNat 8 (s.pLen / 256) :: s.inBuf.readBytes s.aOff s.pLen)
        0 0 false)

/-- R106: MAKE_SECTION is TRY_MAKE_SECTION with a fatal PayloadTooLarge at A_OFF above 65535 bytes. -/
def Obligations.MakeSectionWritesTheSectionOrIsFatal : Prop :=
  ∀ (type : Byte) (s : State), s.n ≤ s.caps.inCap.toNat → ∃ t, exec (.makeSection type) s = .next t ∧ UnitsKept s t ∧
    (if type ≠ 0 ∧ type ≠ 1 then FatalEnd s t { kind := .unknownSectionType, off := 0 }
    else if s.aOff + s.pLen > s.n then FatalEnd s t { kind := .badCommand, off := 0 }
    else if s.pLen > 65535 then FatalEnd s t { kind := .payloadTooLarge, off := s.aOff }
    else if 3 + s.pLen > s.caps.outCap.toNat then FatalEnd s t { kind := .capacityExceeded, off := 0 }
    else
      OkEnd s t
        (type :: BitVec.ofNat 8 (s.pLen % 256) :: BitVec.ofNat 8 (s.pLen / 256) :: s.inBuf.readBytes s.aOff s.pLen)
        0 0 false)

/-- R107: READ_HEADER reports the type and length of the header at A_OFF and does not look at the payload. OUT_LEN is 0, so all of
OUT is unspecified by R74, though R107 says that nothing is written (DEDUCED, log 8). -/
def Obligations.ReadHeaderReportsTypeAndLength : Prop :=
  ∀ (type : Byte) (s : State), s.n ≤ s.caps.inCap.toNat → ∃ t, exec (.readHeader type) s = .next t ∧ UnitsKept s t ∧
    (if s.aOff + 3 > s.n then FatalEnd s t { kind := .truncatedStream, off := s.aOff }
    else if s.in1 s.aOff ≠ 0 ∧ s.in1 s.aOff ≠ 1 then FatalEnd s t { kind := .unknownSectionType, off := s.aOff }
    else
      OkEnd s t [] ((s.in1 (s.aOff + 1)).toNat + 256 * (s.in1 (s.aOff + 2)).toNat) (s.in1 s.aOff) false)

/-- R109: READ_PAYLOAD copies the payload of the section at A_OFF to OUT, uninterpreted, and reports its type and length. -/
def Obligations.ReadPayloadCopiesThePayload : Prop :=
  ∀ (type : Byte) (s : State), s.n ≤ s.caps.inCap.toNat → ∃ t, exec (.readPayload type) s = .next t ∧ UnitsKept s t ∧
    (let length := (s.in1 (s.aOff + 1)).toNat + 256 * (s.in1 (s.aOff + 2)).toNat
    if s.aOff + 3 > s.n then FatalEnd s t { kind := .truncatedStream, off := s.aOff }
    else if s.in1 s.aOff ≠ 0 ∧ s.in1 s.aOff ≠ 1 then FatalEnd s t { kind := .unknownSectionType, off := s.aOff }
    else if s.aOff + 3 + length > s.n then FatalEnd s t { kind := .truncatedStream, off := s.aOff }
    else if length > s.caps.outCap.toNat then FatalEnd s t { kind := .capacityExceeded, off := 0 }
    else OkEnd s t (s.inBuf.readBytes (s.aOff + 3) length) length (s.in1 s.aOff) false)

/-- R111: MERGE writes the merged section, filled to 65535 payload bytes, and then the overflow section if the payloads do not fit in one;
section A's faults, section B's, TypeMismatch at B_OFF and CapacityExceeded in that order. -/
def Obligations.MergeWritesMergedThenOverflow : Prop :=
  ∀ (type : Byte) (s : State), s.n ≤ s.caps.inCap.toNat → ∃ t, exec (.merge type) s = .next t ∧ UnitsKept s t ∧
    (match readSection s s.aOff, readSection s s.bOff with
    | .error e, _ => FatalEnd s t e
    | .ok _, .error e => FatalEnd s t e
    | .ok a, .ok b =>
      let both := a.payload ++ b.payload
      let ser (p : List Byte) : List Byte :=
        tagByte a.type :: BitVec.ofNat 8 (p.length % 256) :: BitVec.ofNat 8 (p.length / 256) :: p
      let merged := ser (both.take 65535)
      let out := if both.length > 65535 then merged ++ ser (both.drop 65535) else merged
      if a.type ≠ b.type then FatalEnd s t { kind := .typeMismatch, off := s.bOff }
      else if out.length > s.caps.outCap.toNat then FatalEnd s t { kind := .capacityExceeded, off := 0 }
      else OkEnd s t out merged.length (tagByte a.type) (decide (both.length > 65535)))

/-- R105: reading a section at an offset: the header bytes, then the type, then the payload bytes. -/
def Obligations.ReadSectionChecksInOrder : Prop :=
  ∀ (s : State) (off : Nat),
    let length := (s.in1 (off + 1)).toNat + 256 * (s.in1 (off + 2)).toNat
    let type : SecType := if s.in1 off = 0 then .data else .code
    (readHeader s off =
      if off + 3 > s.n then .error { kind := .truncatedStream, off := off }
      else if s.in1 off ≠ 0 ∧ s.in1 off ≠ 1 then .error { kind := .unknownSectionType, off := off }
      else .ok (type, length)) ∧
    (readSection s off =
      if off + 3 > s.n then .error { kind := .truncatedStream, off := off }
      else if s.in1 off ≠ 0 ∧ s.in1 off ≠ 1 then .error { kind := .unknownSectionType, off := off }
      else if off + 3 + length > s.n then .error { kind := .truncatedStream, off := off }
      else .ok { type := type, payload := s.inBuf.readBytes (off + 3) length })

/-- R110, R112 items 1 to 7: merge never crosses types; it is lossless, fills the first section to 65535 bytes, overflows exactly when
the payloads do not fit, never with an empty section, and splits on an instruction boundary when both lengths are multiples of 5. -/
def Obligations.MergeLaws : Prop :=
  ∀ (a b : Section) (offB : Nat), a.payload.length ≤ 65535 → b.payload.length ≤ 65535 →
    (a.type ≠ b.type → merge a b offB = .error { kind := .typeMismatch, off := offB }) ∧
    (a.type = b.type → ∃ m o, merge a b offB = .ok (m, o) ∧ m.type = a.type ∧
      m.payload.length = min (a.payload.length + b.payload.length) 65535 ∧
      (o = none → m.payload = a.payload ++ b.payload ∧ a.payload.length + b.payload.length ≤ 65535) ∧
      (∀ x, o = some x → x.type = a.type ∧ m.payload ++ x.payload = a.payload ++ b.payload ∧
        1 ≤ x.payload.length ∧ x.payload.length ≤ 65535 ∧
        x.payload.length + 65535 = a.payload.length + b.payload.length ∧
        (a.payload.length % 5 = 0 → b.payload.length % 5 = 0 → x.payload.length % 5 = 0)) ∧
      (a.payload.length = 65535 → b.payload ≠ [] → m = a ∧ o = some b) ∧
      (b.payload = [] → m = a ∧ o = none) ∧
      (a.payload.length % 5 = 0 → b.payload.length % 5 = 0 → m.payload.length % 5 = 0))

/-! ### The encoder -/

/-- R140, R160: COMPRESS writes the serialized coalesced raw list of its input; its only faults are BadCommand at START and
CapacityExceeded. `streamBytes` gives a section list's bytes by R81. -/
def Obligations.CompressWritesTheStream : Prop :=
  ∀ (type : Byte) (s : State), ∃ t, exec (.compress type) s = .next t ∧ t.dec = s.dec ∧
    (let out := streamBytes (coalesce (scan (s.inBuf.readBytes 0 s.n)))
    if s.n > s.caps.inCap.toNat then FatalEnd s t { kind := .badCommand, off := 0 }
    else if out.length > s.caps.outCap.toNat then FatalEnd s t { kind := .capacityExceeded, off := 0 }
    else OkEnd s t out 0 0 false)

/-- R143, R154: the detector finds the longest run of constant first difference from its anchor, capped at 65535 bytes. -/
def Obligations.DetectRunIsMaximal : Prop :=
  ∀ (b : List Byte) (a : Nat), a + 1 < b.length →
    let j := (detectRun b a).2
    (detectRun b a).1 = b.getD (a + 1) 0 - b.getD a 0 ∧ a + 2 ≤ j ∧ j ≤ b.length ∧ j - a ≤ 65535 ∧
      (∀ p, a < p → p < j → b.getD p 0 - b.getD (p - 1) 0 = (detectRun b a).1) ∧
      (j < b.length → j - a < 65535 → b.getD j 0 - b.getD (j - 1) 0 ≠ (detectRun b a).1)

/-- R149, with R142 to R148: the raw list is that of the scan loop. An input of fewer than 2 bytes is one Data section; from an anchor
with a byte after it, a run above the threshold is a Code section, then its break byte and the next anchor after it, or the end; any
other run is one literal section and the next anchor is its end; the last byte alone is a Data section. -/
def Obligations.RawListFollowsTheLoop : Prop :=
  ∀ b : List Byte,
    (b.length < 2 → scan b = [{ type := .data, payload := b }]) ∧
    (let from_ (a : Nat) : List Section := scanFrom b b.length a
    (2 ≤ b.length → scan b = from_ 0) ∧
    ∀ a,
      (b.length ≤ a → from_ a = []) ∧
      (a + 1 = b.length → from_ a = [{ type := .data, payload := [b.getD a 0] }]) ∧
      (a + 1 < b.length →
        let delta := (detectRun b a).1
        let j := (detectRun b a).2
        from_ a =
          if j - a - 1 > 10 then
            { type := .code, payload := encode (.deltaIter (b.getD a 0) (BitVec.ofNat 16 (j - a)) delta) } ::
              (if j < b.length then { type := .data, payload := [b.getD j 0] } :: from_ (j + 1) else [])
          else { type := .data, payload := (b.drop a).take (j - a) } :: from_ j))

/-- R152: the shape of the raw list. -/
def Obligations.RawListShape : Prop :=
  ∀ b : List Byte,
    (∀ x ∈ scan b,
      match x.type with
      | .code => ∃ (start delta : Byte) (count : Half), x.payload = encode (.deltaIter start count delta) ∧ 12 ≤ count.toNat
      | .data => x.payload.length ≤ 11 ∧ (x.payload = [] → b = [])) ∧
    ∀ (k : Nat) (x y : Section), (scan b)[k]? = some x → (scan b)[k + 1]? = some y → x.type = .code → y.type = .data

/-- R151: the raw sections stand for the input's bytes, each once, in order. -/
def Obligations.RawListCoversTheInput : Prop :=
  ∀ b : List Byte, (scan b).flatMap sectionBytes = b

/-- R153: a run of 11 bytes is one literal section and a run of 12 one DeltaIter of count 12. -/
def Obligations.ThresholdBoundary : Prop :=
  ∀ start delta : Byte,
    compress (runBytes start 11 delta) = [0x00, 0x0B, 0x00] ++ runBytes start 11 delta ∧
    compress (runBytes start 12 delta) = [0x01, 0x05, 0x00, 0x00, start, 0x0C, 0x00, delta]

/-- R157: a maximal run of adjacent same-type sections whose payloads concatenate to L bytes becomes max(1, ceil(L / 65535)) sections,
all full but the last; other sections are coalesced on their own; so two adjacent output sections have one type only when the earlier
is full. -/
def Obligations.CoalescingLaw : Prop :=
  (∀ (type : SecType) (run : List Section), run ≠ [] →
    (∀ x ∈ run, x.type = type ∧ x.payload.length ≤ 65535) →
    let out := coalesce run
    let all := run.flatMap Section.payload
    (∀ x ∈ out, x.type = type ∧ x.payload.length ≤ 65535) ∧
    out.flatMap Section.payload = all ∧
    out.length = max 1 ((all.length + 65534) / 65535) ∧
    (∀ (k : Nat) (x : Section), out[k]? = some x → k + 1 < out.length → x.payload.length = 65535) ∧
    ∀ (rest : List Section), (∀ y, rest.head? = some y → y.type ≠ type) →
      coalesce (run ++ rest) = out ++ coalesce rest) ∧
  ∀ (raw : List Section) (k : Nat) (x y : Section), (∀ z ∈ raw, z.payload.length ≤ 65535) →
    (coalesce raw)[k]? = some x → (coalesce raw)[k + 1]? = some y → x.type = y.type → x.payload.length = 65535

/-- R158: every Code section of a COMPRESS output holds exactly one DeltaIter. -/
def Obligations.OutputCodeSectionsHoldOneDeltaIter : Prop :=
  ∀ (b : List Byte), ∀ x ∈ coalesce (scan b), x.type = .code →
    ∃ (start delta : Byte) (count : Half), x.payload = encode (.deltaIter start count delta)

/-- R150, the rows before Flush, on the block's whole turn or a tick: what one step of Detect, EmitCode, EmitBreak, EmitLiteral and
EmitTail loads, appends and moves to, and what the first tick of an accepted COMPRESS does. The first tick (log 10), the registers it
keeps (log 31), Detect as one step (log 17), the empty input's section (log 14) and the way back from EmitTail (log 15) are the model's
reading. -/
def Obligations.EncoderTicksFollowTheOrder : Prop :=
  (∀ s : State, s.active = .accepted → cmdOp s.latch.cmd = 0x01 → s.n ≤ s.caps.inCap.toNat → nextTurn s = .tick →
    step s = .next { dropTurn s with
      active := .encoder
      enc := { s.enc with state := .detect, anchor := 0, raw := [], outs := [] }
      acc := { s.acc with valid := false } }) ∧
  ∀ s : State, s.active = .encoder → nextTurn s = .whole ∨ nextTurn s = .tick →
    let b := s.inBuf.readBytes 0 s.n
    let a := s.enc.anchor.toNat
    let j := s.enc.j.toNat
    let raw := s.enc.raw
    (s.enc.state = .detect → a + 1 < s.n →
      let delta := (detectRun b a).1
      let j' := (detectRun b a).2
      step s = .next { dropTurn s with
        enc := { s.enc with
          state := if j' - a - 1 > 10 then .emitCode else .emitLiteral
          j := BitVec.ofNat 32 j'
          delta := delta
          runLen := BitVec.ofNat 32 (j' - a - 1) } }) ∧
    (s.enc.state = .detect → a + 1 = s.n →
      step s = .next { dropTurn s with enc := { s.enc with state := .emitTail } }) ∧
    (s.enc.state = .detect → s.n ≤ a →
      step s = .next { dropTurn s with
        enc := { s.enc with
          state := .flush
          raw := if s.n = 0 then raw ++ [{ type := .data, payload := [] }] else raw } }) ∧
    (s.enc.state = .emitCode →
      let x : Section :=
        { type := .code, payload := encode (.deltaIter (b.getD a 0) (BitVec.ofNat 16 (j - a)) s.enc.delta) }
      step s = .next { dropTurn s with
        enc :=
          if j < s.n then { s.enc with state := .emitBreak, raw := raw ++ [x] }
          else { s.enc with state := .detect, raw := raw ++ [x], anchor := s.latch.aLen } }) ∧
    (s.enc.state = .emitBreak →
      step s = .next { dropTurn s with
        enc := { s.enc with
          state := .detect
          raw := raw ++ [{ type := .data, payload := [b.getD j 0] }]
          anchor := BitVec.ofNat 32 (j + 1) } }) ∧
    (s.enc.state = .emitLiteral →
      step s = .next { dropTurn s with
        enc := { s.enc with
          state := .detect
          raw := raw ++ [{ type := .data, payload := (b.drop a).take (j - a) }]
          anchor := s.enc.j } }) ∧
    (s.enc.state = .emitTail →
      step s = .next { dropTurn s with
        enc := { s.enc with
          state := .detect
          raw := raw ++ [{ type := .data, payload := [b.getD a 0] }]
          anchor := s.latch.aLen } })

/-- R150, Flush and Done, with R155 and R159, on the block's whole turn or a tick: a raw section is loaded into the accumulator, merged
with it or puts it out; the last accumulator is put out; the stream is written to OUT, or CapacityExceeded; Done ends the command.
The cut of Flush into these steps is the model's reading (log 16). -/
def Obligations.FlushTicksFoldAndWrite : Prop :=
  ∀ s : State, EncoderInv s → s.active = .encoder → nextTurn s = .whole ∨ nextTurn s = .tick →
    let held : Section := { type := if s.acc.type = 1 then .code else .data, payload := s.acc.data }
    let loaded (x : Section) : AccRegs :=
      { valid := true
        type := match x.type with | .data => 0 | .code => 1
        data := x.payload
        len := BitVec.ofNat 16 x.payload.length }
    (∀ (x : Section) (rest : List Section), s.enc.state = .flush → s.enc.raw = x :: rest →
      (s.acc.valid = false →
        step s = .next { dropTurn s with enc := { s.enc with raw := rest }, acc := loaded x }) ∧
      (s.acc.valid = true → x.type ≠ held.type →
        step s = .next { dropTurn s with
          enc := { s.enc with raw := rest, outs := s.enc.outs ++ [held] }, acc := loaded x }) ∧
      (s.acc.valid = true → x.type = held.type →
        let both := held.payload ++ x.payload
        step s = .next
          (if both.length ≤ 65535 then
            { dropTurn s with
              enc := { s.enc with raw := rest }, acc := loaded { type := held.type, payload := both } }
          else
            { dropTurn s with
              enc := { s.enc with
                raw := rest, outs := s.enc.outs ++ [{ type := held.type, payload := both.take 65535 }] }
              acc := loaded { type := held.type, payload := both.drop 65535 } }))) ∧
    (s.enc.state = .flush → s.enc.raw = [] → s.acc.valid = true →
      step s = .next { dropTurn s with
        enc := { s.enc with outs := s.enc.outs ++ [held] }, acc := { s.acc with valid := false } }) ∧
    (s.enc.state = .flush → s.enc.raw = [] → s.acc.valid = false →
      let out := streamBytes s.enc.outs
      ∃ t, step s = .next t ∧
        if out.length > s.caps.outCap.toNat then
          FatalEnd (dropTurn s) t { kind := .capacityExceeded, off := 0 } ∧
            t.enc = { s.enc with state := .fatal } ∧ t.acc = s.acc ∧ t.dec = s.dec
        else
          t = { dropTurn s with enc := { s.enc with state := .done }, outBuf := t.outBuf } ∧
            (∀ k, k < out.length → t.outBuf.read k = out.getD k 0) ∧
            ∀ k, out.length ≤ k → t.outBuf.read k = s.outBuf.read k) ∧
    (s.enc.state = .done →
      ∃ t, step s = .next t ∧ OkEnd (dropTurn s) t (streamBytes s.enc.outs) 0 0 false ∧ UnitsKept s t)

/-- The encoder's step order gives the stream of COMPRESS: the ticks of an accepted COMPRESS reach the state its meaning gives,
but for the encoder's and the coalescer's own registers, which no later command sees (R40, R150). How Detect and Flush are cut
into ticks, and that the START check is the first of them, is the model's reading (log 10, 14 to 17); what each way leaves in those
registers is its choice (log 32). -/
def Obligations.CompressIsItsTicks : Prop :=
  ∀ (s t : State) (type : Byte), s.active = .accepted → cmdOp s.latch.cmd = 0x01 →
    exec (.compress type) s = .next t →
    ∃ k, 0 < k ∧ { ticks k s with enc := t.enc, acc := t.acc } = t

/-- R161: decompressing what compressing gave gives the input back. `u` is any state that decompresses the bytes `t` left in OUT. How
the second command ends is said in the model's own fields too (log 4, 6, 7, 9). -/
def Obligations.CompressThenDecompressIsTheInput : Prop :=
  ∀ (s t u : State) (type type' : Byte), exec (.compress type) s = .next t → fatalBit t.regs.status = false →
    u.latch.aLen = t.regs.outLen → u.n ≤ u.caps.inCap.toNat → s.n ≤ u.caps.outCap.toNat →
    (∀ a, a < u.n → u.inBuf.read a = t.outBuf.read a) →
    ∃ v, exec (.decompress type') u = .next v ∧ OkEnd u v (s.inBuf.readBytes 0 s.n) 0 0 false

/-! ### The host interface -/

/-- R42, R245, with R40's initial states: START with BUSY = 0 clears the results, sets BUSY alone, latches the operands and starts
the unit; with BUSY = 1, or with bit 0 clear, the write of CTRL changes nothing. That the START checks come at the next turn is
the model's reading (log 10). -/
def Obligations.StartIsAcceptedOnlyWhenIdle : Prop :=
  ∀ (s : State) (v : Word), ∃ t, hostAct (.writeReg 0x04 4 v) s = .next t ∧
    if v.getLsbD 0 = true ∧ busyBit s.regs.status = false then
      t.regs = { s.regs with status := 1, outLen := 0, resLen := 0, errOff := 0 } ∧
      t.latch =
        { cmd := s.regs.cmd, aLen := s.regs.aLen, aOff := s.regs.aOff, bOff := s.regs.bOff, pLen := s.regs.pLen } ∧
      t.active = .accepted ∧ t.inBuf = s.inBuf ∧ t.outBuf = s.outBuf ∧ t.caps = s.caps ∧ t.draws = s.draws ∧
      t.rdata = s.rdata ∧ t.schedule = s.schedule ∧
      (cmdOp s.regs.cmd = 0x02 → t.dec.state = .readingHeader ∧ t.dec.pc = 0 ∧ t.dec.opos = 0) ∧
      (cmdOp s.regs.cmd = 0x01 →
        t.enc.state = .detect ∧ t.enc.anchor = 0 ∧ t.enc.raw = [] ∧ t.acc.valid = false)
    else t = s

/-- R89, R211: an illegal OP or A_LEN above IN_CAP ends the accepted command in Fatal(BadCommand, 0), whole or by the step
machine. When the check is made, and that OUT is drawn anew, is the model's reading (log 8, 10). -/
def Obligations.StartChecksEndInBadCommand : Prop :=
  ∀ s : State, s.active = .accepted → nextTurn s = .whole ∨ nextTurn s = .tick →
    cmdOp s.latch.cmd = 0 ∨ 9 ≤ (cmdOp s.latch.cmd).toNat ∨ s.n > s.caps.inCap.toNat →
    ∃ t, step s = .next t ∧ FatalEnd (dropTurn s) t { kind := .badCommand, off := 0 }

/-- R21, R32: the ten registers at their offsets; CTRL and every other aligned offset read 0; a read changes nothing. `rdata` is
the model's own (log 6), and that the window has no upper end is its reading (log 12). -/
def Obligations.RegisterReads : Prop :=
  ∀ (s : State) (off : Nat), off % 4 = 0 →
    hostAct (.readReg off 4) s = .next { s with
      rdata :=
        if off = 0x00 then s.regs.cmd else if off = 0x08 then s.regs.status else if off = 0x0C then s.regs.aLen
        else if off = 0x10 then s.regs.aOff else if off = 0x14 then s.regs.bOff else if off = 0x18 then s.regs.pLen
        else if off = 0x1C then s.regs.outLen else if off = 0x20 then s.regs.resLen
        else if off = 0x24 then s.regs.errOff else 0 }

/-- R22, R25 to R28, R32: the operand registers hold what is written, CMD without its reserved bits; writes of the read-only registers
and of offsets that hold none change nothing. That the window has no upper end is the model's reading (log 12). -/
def Obligations.RegisterWrites : Prop :=
  ∀ (s : State) (v : Word),
    hostAct (.writeReg 0x00 4 v) s =
      .next { s with regs := { s.regs with cmd := (v.extractLsb' 0 16).setWidth 32 } } ∧
    hostAct (.writeReg 0x0C 4 v) s = .next { s with regs := { s.regs with aLen := v } } ∧
    hostAct (.writeReg 0x10 4 v) s = .next { s with regs := { s.regs with aOff := v } } ∧
    hostAct (.writeReg 0x14 4 v) s = .next { s with regs := { s.regs with bOff := v } } ∧
    hostAct (.writeReg 0x18 4 v) s = .next { s with regs := { s.regs with pLen := v } } ∧
    ∀ off, off % 4 = 0 → off = 0x08 ∨ 0x1C ≤ off → hostAct (.writeReg off 4 v) s = .next s

/-- R33, R244: a sub-word or misaligned register access is refused, and so is a write of IN while BUSY = 1. -/
def Obligations.HostViolationsAreRefused : Prop :=
  (∀ (s : State) (off width : Nat) (v : Word), width ≠ 4 ∨ off % 4 ≠ 0 →
    hostAct (.readReg off width) s = .refused (.registerAccess off width) ∧
    hostAct (.writeReg off width v) s = .refused (.registerAccess off width)) ∧
  ∀ (s : State) (off : Nat) (v : Byte), off < s.caps.inCap.toNat → busyBit s.regs.status = true →
    hostAct (.writeIn off v) s = .refused (.inWriteWhileBusy off)

/-- R35, R66: the host reads and, with BUSY = 0, writes single bytes of IN; a write changes that byte alone, a read none; OUT
reads with BUSY = 0 return its byte and change nothing. Single bytes and `rdata` are the model's own (log 6, 11). -/
def Obligations.HostBufferAccesses : Prop :=
  (∀ (s : State) (off : Nat), off < s.caps.inCap.toNat →
    hostAct (.readIn off) s = .next { s with rdata := (s.inBuf.read off).setWidth 32 }) ∧
  (∀ (s : State) (off : Nat) (v : Byte), off < s.caps.inCap.toNat → busyBit s.regs.status = false →
    ∃ t, hostAct (.writeIn off v) s = .next t ∧ t = { s with inBuf := t.inBuf } ∧ t.inBuf.read off = v ∧
      ∀ a, a ≠ off → t.inBuf.read a = s.inBuf.read a) ∧
  ∀ (s : State) (off : Nat), off < s.caps.outCap.toNat → busyBit s.regs.status = false →
    hostAct (.readOut off) s = .next { s with rdata := (s.outBuf.read off).setWidth 32 }

/-- R246: a host read of OUT while BUSY = 1 returns an unspecified byte, a free value drawn anew, and changes nothing else. The
form of the free value is the model's (log 1, 7). -/
def Obligations.OutReadWhileBusyIsUnspecified : Prop :=
  ∀ (s : State) (off : Nat), off < s.caps.outCap.toNat → busyBit s.regs.status = true →
    hostAct (.readOut off) s =
      .next { s with rdata := (Config.freeByte s.draws off).setWidth 32, draws := s.draws + 1 }
end

