-- ==== Sys2Proof/Laws/Memory.lean ====
section
/-! SUPPORT. The laws of the byte buffers: what a read gives after each operation, and that each keeps the canonical form. -/

namespace Sys2Proof.Machine

/-! ### Reading cells -/

theorem lookup_insert_same (a : Nat) (v : Byte) (cells : List Host.Cell) : lookupCell (insertCell a v cells) a = some v := by
  induction cells with
  | nil => simp [insertCell, lookupCell]
  | cons c rest ih =>
    obtain ⟨x, u⟩ := c
    simp only [insertCell]
    split
    · simp [lookupCell]
    · split
      · simp [lookupCell]
      · rename_i hx
        simp [lookupCell, ih, Ne.symm hx]

theorem lookup_insert_other {a x : Nat} (h : x ≠ a) (v : Byte) (cells : List Host.Cell) :
    lookupCell (insertCell a v cells) x = lookupCell cells x := by
  induction cells with
  | nil => simp [insertCell, lookupCell, Ne.symm h]
  | cons c rest ih =>
    obtain ⟨y, u⟩ := c
    simp only [insertCell]
    split
    · simp [lookupCell, Ne.symm h]
    · split
      · rename_i hy
        subst hy
        simp [lookupCell, Ne.symm h]
      · simp only [lookupCell]
        split <;> simp_all

theorem lookup_filter_below {n a : Nat} (h : a < n) (cells : List Host.Cell) :
    lookupCell (cells.filter (fun c => c.1 < n)) a = lookupCell cells a := by
  induction cells with
  | nil => rfl
  | cons c rest ih =>
    obtain ⟨x, v⟩ := c
    by_cases hx : x < n
    · simp [hx, lookupCell, ih]
    · have hne : x ≠ a := by omega
      simp [hx, lookupCell, hne, ih]

theorem lookup_filter_above {n a : Nat} (h : n ≤ a) (cells : List Host.Cell) :
    lookupCell (cells.filter (fun c => c.1 < n)) a = none := by
  induction cells with
  | nil => rfl
  | cons c rest ih =>
    obtain ⟨x, v⟩ := c
    by_cases hx : x < n
    · have hne : x ≠ a := by omega
      simp [hx, lookupCell, hne, ih]
    · simp [hx, ih]

/-! ### Reads after writes -/

@[simp] theorem read_write_same (m : Memory) (a : Nat) (v : Byte) : (m.write a v).read a = v := by
  simp [Memory.read, Memory.write, lookup_insert_same]

theorem read_write_other {a x : Nat} (h : x ≠ a) (m : Memory) (v : Byte) : (m.write a v).read x = m.read x := by
  simp [Memory.read, Memory.write, lookup_insert_other h]

@[simp] theorem write_epoch (m : Memory) (a : Nat) (v : Byte) : (m.write a v).epoch = m.epoch := rfl

theorem read_writeBytes_below {a x : Nat} (h : x < a) (bytes : List Byte) (m : Memory) :
    (m.writeBytes a bytes).read x = m.read x := by
  induction bytes generalizing a with
  | nil => rfl
  | cons v rest ih =>
    rw [Memory.writeBytes, read_write_other (by omega)]
    exact ih (by omega)

theorem read_writeBytes_inside (k : Nat) (bytes : List Byte) (h : k < bytes.length) (a : Nat) (m : Memory) :
    (m.writeBytes a bytes).read (a + k) = bytes.getD k 0 := by
  induction bytes generalizing a k with
  | nil => simp at h
  | cons v rest ih =>
    cases k with
    | zero => simp [Memory.writeBytes]
    | succ k =>
      rw [Memory.writeBytes, read_write_other (by omega)]
      have := ih k (by simpa using h) (a + 1)
      rw [Nat.add_assoc, Nat.add_comm 1 k] at this
      simpa using this

theorem read_writeBytes_above {a x : Nat} (bytes : List Byte) (h : a + bytes.length ≤ x) (m : Memory) :
    (m.writeBytes a bytes).read x = m.read x := by
  induction bytes generalizing a with
  | nil => rfl
  | cons v rest ih =>
    simp only [List.length_cons] at h
    rw [Memory.writeBytes, read_write_other (by omega)]
    exact ih (by omega)

/-- Everything a block write does to reads. -/
theorem read_writeBytes (m : Memory) (a : Nat) (bytes : List Byte) (x : Nat) :
    (m.writeBytes a bytes).read x = if a ≤ x ∧ x < a + bytes.length then bytes.getD (x - a) 0 else m.read x := by
  split
  · rename_i h
    have := read_writeBytes_inside (x - a) bytes (by omega) a m
    rwa [Nat.add_sub_cancel' h.1] at this
  · by_cases hx : x < a
    · exact read_writeBytes_below hx bytes m
    · exact read_writeBytes_above bytes (by omega) m

/-- Every byte a block write has written is listed. -/
theorem lookup_writeBytes_isSome (m : Memory) (a : Nat) (bytes : List Byte) (x : Nat)
    (h : a ≤ x ∧ x < a + bytes.length) : (lookupCell (m.writeBytes a bytes).cells x).isSome = true := by
  induction bytes generalizing a with
  | nil => simp at h; omega
  | cons v rest ih =>
    simp only [Memory.writeBytes, Memory.write]
    by_cases hx : x = a
    · subst hx; simp [lookup_insert_same]
    · rw [lookup_insert_other hx]
      exact ih (a + 1) (by simp only [List.length_cons] at h; omega)

/-- A write keeps every listed byte listed. -/
theorem lookup_write_isSome (m : Memory) (a : Nat) (v : Byte) (x : Nat)
    (h : (lookupCell m.cells x).isSome = true ∨ x = a) : (lookupCell (m.write a v).cells x).isSome = true := by
  simp only [Memory.write]
  by_cases hx : x = a
  · subst hx; simp [lookup_insert_same]
  · rw [lookup_insert_other hx]; exact h.resolve_right hx

@[simp] theorem read_unspecified (draw a : Nat) : (Memory.unspecified draw).read a = Config.freeByte draw a := rfl

/-- What `keepBelow` leaves of a byte: listed ones below `n` stay, every other is the new draw's. -/
theorem read_keepBelow (m : Memory) (n draw a : Nat) :
    (m.keepBelow n draw).read a =
      if a < n then (lookupCell m.cells a).getD (Config.freeByte draw a) else Config.freeByte draw a := by
  unfold Memory.read Memory.keepBelow
  split
  · rw [lookup_filter_below (by assumption)]
  · rw [lookup_filter_above (by omega)]; rfl

theorem read_keepBelow_listed {m : Memory} {n a : Nat} (draw : Nat) (h : a < n)
    (hl : (lookupCell m.cells a).isSome = true) : (m.keepBelow n draw).read a = m.read a := by
  obtain ⟨v, hv⟩ := Option.isSome_iff_exists.mp hl
  rw [read_keepBelow, if_pos h]
  simp [Memory.read, hv]

/-! ### Block reads -/

@[simp] theorem length_readBytes (m : Memory) (a n : Nat) : (m.readBytes a n).length = n := by
  induction n generalizing a with
  | zero => rfl
  | succ n ih => simp [Memory.readBytes, ih]

theorem getD_readBytes {n k : Nat} (h : k < n) (m : Memory) (a : Nat) : (m.readBytes a n).getD k 0 = m.read (a + k) := by
  induction n generalizing a k with
  | zero => omega
  | succ n ih =>
    cases k with
    | zero => simp [Memory.readBytes]
    | succ k =>
      have := ih (k := k) (by omega) (a + 1)
      rw [Nat.add_assoc, Nat.add_comm 1 k] at this
      simpa [Memory.readBytes] using this

theorem readBytes_congr {m m' : Memory} {a n : Nat} (h : ∀ x, a ≤ x → x < a + n → m.read x = m'.read x) :
    m.readBytes a n = m'.readBytes a n := by
  induction n generalizing a with
  | zero => rfl
  | succ n ih =>
    simp only [Memory.readBytes]
    rw [h a (by omega) (by omega), ih (fun x h1 h2 => h x (by omega) (by omega))]

theorem take_readBytes (m : Memory) (a n k : Nat) (h : k ≤ n) : (m.readBytes a n).take k = m.readBytes a k := by
  induction k generalizing a n with
  | zero => simp [Memory.readBytes]
  | succ k ih =>
    obtain ⟨n, rfl⟩ : ∃ n', n = n' + 1 := ⟨n - 1, by omega⟩
    simp [Memory.readBytes, ih (a + 1) n (by omega)]

theorem drop_readBytes (m : Memory) (a n k : Nat) (h : k ≤ n) : (m.readBytes a n).drop k = m.readBytes (a + k) (n - k) := by
  induction k generalizing a n with
  | zero => simp
  | succ k ih =>
    obtain ⟨n, rfl⟩ : ∃ n', n = n' + 1 := ⟨n - 1, by omega⟩
    simp only [Memory.readBytes, List.drop_succ_cons]
    rw [ih (a + 1) n (by omega), Nat.add_assoc, Nat.add_comm 1 k, Nat.add_sub_add_right]

/-- Reading back what was written. -/
theorem readBytes_writeBytes (m : Memory) (a : Nat) (bytes : List Byte) :
    (m.writeBytes a bytes).readBytes a bytes.length = bytes := by
  refine List.ext_getElem (by simp) fun k h1 h2 => ?_
  have := getD_readBytes (n := bytes.length) (k := k) h2 (m.writeBytes a bytes) a
  rw [read_writeBytes_inside k bytes h2, List.getD_eq_getElem _ _ h1, List.getD_eq_getElem _ _ h2] at this
  exact this

/-! ### The canonical form -/

/-- Rising addresses: the head is below every other address. -/
theorem cellsRising_cons (x : Nat) (v : Byte) (rest : List Host.Cell) :
    cellsRising ((x, v) :: rest) = true ↔ (∀ c ∈ rest, x < c.1) ∧ cellsRising rest = true := by
  induction rest generalizing x v with
  | nil => simp [cellsRising]
  | cons c rest ih =>
    obtain ⟨y, u⟩ := c
    simp only [cellsRising, Bool.and_eq_true, decide_eq_true_eq, List.mem_cons, forall_eq_or_imp, ih y u]
    constructor
    · rintro ⟨h, h1, h2⟩
      exact ⟨⟨h, fun c hc => Nat.lt_trans h (h1 c hc)⟩, h1, h2⟩
    · rintro ⟨⟨h, -⟩, h1, h2⟩
      exact ⟨h, h1, h2⟩

theorem mem_insertCell {a : Nat} {v : Byte} {cells : List Host.Cell} {c : Host.Cell} (h : c ∈ insertCell a v cells) :
    c = (a, v) ∨ c ∈ cells := by
  induction cells with
  | nil => simpa [insertCell] using h
  | cons d rest ih =>
    obtain ⟨x, u⟩ := d
    simp only [insertCell] at h
    split at h
    · simpa using h
    · split at h
      · rcases List.mem_cons.mp h with h | h
        · exact .inl h
        · exact .inr (List.mem_cons_of_mem _ h)
      · rcases List.mem_cons.mp h with h | h
        · exact .inr (by simp [h])
        · exact (ih h).imp id (List.mem_cons_of_mem _)

theorem insertCell_rising (a : Nat) (v : Byte) (cells : List Host.Cell) (h : cellsRising cells = true) :
    cellsRising (insertCell a v cells) = true := by
  induction cells with
  | nil => simp [insertCell, cellsRising]
  | cons c rest ih =>
    obtain ⟨x, u⟩ := c
    have hc := (cellsRising_cons x u rest).mp h
    simp only [insertCell]
    split
    · rename_i hlt
      refine (cellsRising_cons _ _ _).mpr ⟨fun d hd => ?_, h⟩
      rcases List.mem_cons.mp hd with rfl | hd
      · exact hlt
      · exact Nat.lt_trans hlt (hc.1 d hd)
    · split
      · rename_i heq
        subst heq
        exact (cellsRising_cons _ _ _).mpr hc
      · refine (cellsRising_cons _ _ _).mpr ⟨fun d hd => ?_, ih hc.2⟩
        rcases mem_insertCell hd with rfl | hd
        · simp only; omega
        · exact hc.1 d hd

theorem filter_rising (p : Host.Cell → Bool) (cells : List Host.Cell) (h : cellsRising cells = true) :
    cellsRising (cells.filter p) = true := by
  induction cells with
  | nil => rfl
  | cons c rest ih =>
    obtain ⟨x, u⟩ := c
    have hc := (cellsRising_cons x u rest).mp h
    by_cases hp : p (x, u) = true
    · rw [List.filter_cons_of_pos hp]
      exact (cellsRising_cons _ _ _).mpr ⟨fun d hd => hc.1 d (List.mem_of_mem_filter hd), ih hc.2⟩
    · rw [List.filter_cons_of_neg hp]
      exact ih hc.2

theorem write_wf (m : Memory) (a : Nat) (v : Byte) (h : m.wf = true) : (m.write a v).wf = true :=
  insertCell_rising a v m.cells h

theorem writeBytes_wf (m : Memory) (a : Nat) (bytes : List Byte) (h : m.wf = true) : (m.writeBytes a bytes).wf = true := by
  induction bytes generalizing a with
  | nil => exact h
  | cons v rest ih => exact write_wf _ a v (ih (a + 1))

theorem unspecified_wf (draw : Nat) : (Memory.unspecified draw).wf = true := rfl

theorem keepBelow_wf (m : Memory) (n draw : Nat) (h : m.wf = true) : (m.keepBelow n draw).wf = true :=
  filter_rising _ m.cells h

/-- The reset buffers are in canonical form. -/
theorem reset_wf : State.reset.inBuf.wf = true ∧ State.reset.outBuf.wf = true := ⟨rfl, rfl⟩

/-- A write lists no address but those written and those already listed. -/
theorem mem_writeBytes {m : Memory} {a : Nat} {bytes : List Byte} {c : Host.Cell} (h : c ∈ (m.writeBytes a bytes).cells) :
    (a ≤ c.1 ∧ c.1 < a + bytes.length) ∨ c ∈ m.cells := by
  induction bytes generalizing a with
  | nil => exact .inr h
  | cons v rest ih =>
    simp only [List.length_cons]
    rcases mem_insertCell h with rfl | h
    · exact .inl ⟨Nat.le_refl _, by simp only; omega⟩
    · rcases ih h with ⟨h1, h2⟩ | h
      · exact .inl ⟨by omega, by omega⟩
      · exact .inr h

end Sys2Proof.Machine
end

