-- ==== Sys2Proof/Laws/State.lean ====
section
/-! SUPPORT. For every named update of the state, each field after it: true by rfl, so that no proof unfolds an update. -/

namespace Sys2Proof.Machine

/-! ### `finishOk` -/

@[simp] theorem finishOk_regs (n r : Nat) (y : Byte) (o : Bool) (s : State) :
    (finishOk n r y o s).regs = { s.regs with status := statusOk y o, outLen := BitVec.ofNat 32 n, resLen := BitVec.ofNat 32 r, errOff := 0 } := rfl
@[simp] theorem finishOk_latch (n r : Nat) (y : Byte) (o : Bool) (s : State) :
    (finishOk n r y o s).latch = s.latch := rfl
@[simp] theorem finishOk_active (n r : Nat) (y : Byte) (o : Bool) (s : State) :
    (finishOk n r y o s).active = .idle := rfl
@[simp] theorem finishOk_inBuf (n r : Nat) (y : Byte) (o : Bool) (s : State) :
    (finishOk n r y o s).inBuf = s.inBuf := rfl
@[simp] theorem finishOk_outBuf (n r : Nat) (y : Byte) (o : Bool) (s : State) :
    (finishOk n r y o s).outBuf = s.outBuf.keepBelow n s.draws := rfl
@[simp] theorem finishOk_dec (n r : Nat) (y : Byte) (o : Bool) (s : State) :
    (finishOk n r y o s).dec = s.dec := rfl
@[simp] theorem finishOk_enc (n r : Nat) (y : Byte) (o : Bool) (s : State) :
    (finishOk n r y o s).enc = s.enc := rfl
@[simp] theorem finishOk_acc (n r : Nat) (y : Byte) (o : Bool) (s : State) :
    (finishOk n r y o s).acc = s.acc := rfl
@[simp] theorem finishOk_caps (n r : Nat) (y : Byte) (o : Bool) (s : State) :
    (finishOk n r y o s).caps = s.caps := rfl
@[simp] theorem finishOk_draws (n r : Nat) (y : Byte) (o : Bool) (s : State) :
    (finishOk n r y o s).draws = s.draws + 1 := rfl
@[simp] theorem finishOk_rdata (n r : Nat) (y : Byte) (o : Bool) (s : State) :
    (finishOk n r y o s).rdata = s.rdata := rfl
@[simp] theorem finishOk_schedule (n r : Nat) (y : Byte) (o : Bool) (s : State) :
    (finishOk n r y o s).schedule = s.schedule := rfl

/-! ### `finishFail` -/

@[simp] theorem finishFail_regs (s : State) :
    (finishFail s).regs = { s.regs with status := statusFail, outLen := 0, resLen := 0, errOff := s.latch.aOff } := rfl
@[simp] theorem finishFail_latch (s : State) :
    (finishFail s).latch = s.latch := rfl
@[simp] theorem finishFail_active (s : State) :
    (finishFail s).active = .idle := rfl
@[simp] theorem finishFail_inBuf (s : State) :
    (finishFail s).inBuf = s.inBuf := rfl
@[simp] theorem finishFail_outBuf (s : State) :
    (finishFail s).outBuf = s.outBuf := rfl
@[simp] theorem finishFail_dec (s : State) :
    (finishFail s).dec = s.dec := rfl
@[simp] theorem finishFail_enc (s : State) :
    (finishFail s).enc = s.enc := rfl
@[simp] theorem finishFail_acc (s : State) :
    (finishFail s).acc = s.acc := rfl
@[simp] theorem finishFail_caps (s : State) :
    (finishFail s).caps = s.caps := rfl
@[simp] theorem finishFail_draws (s : State) :
    (finishFail s).draws = s.draws := rfl
@[simp] theorem finishFail_rdata (s : State) :
    (finishFail s).rdata = s.rdata := rfl
@[simp] theorem finishFail_schedule (s : State) :
    (finishFail s).schedule = s.schedule := rfl

/-! ### `raiseFatal` -/

@[simp] theorem raiseFatal_regs (e : FatalErr) (s : State) :
    (raiseFatal e s).regs = { s.regs with status := statusFatal e.kind, outLen := 0, resLen := 0, errOff := BitVec.ofNat 32 e.off } := rfl
@[simp] theorem raiseFatal_latch (e : FatalErr) (s : State) :
    (raiseFatal e s).latch = s.latch := rfl
@[simp] theorem raiseFatal_active (e : FatalErr) (s : State) :
    (raiseFatal e s).active = .idle := rfl
@[simp] theorem raiseFatal_inBuf (e : FatalErr) (s : State) :
    (raiseFatal e s).inBuf = s.inBuf := rfl
@[simp] theorem raiseFatal_outBuf (e : FatalErr) (s : State) :
    (raiseFatal e s).outBuf = Memory.unspecified s.draws := rfl
@[simp] theorem raiseFatal_dec (e : FatalErr) (s : State) :
    (raiseFatal e s).dec = s.dec := rfl
@[simp] theorem raiseFatal_enc (e : FatalErr) (s : State) :
    (raiseFatal e s).enc = s.enc := rfl
@[simp] theorem raiseFatal_acc (e : FatalErr) (s : State) :
    (raiseFatal e s).acc = s.acc := rfl
@[simp] theorem raiseFatal_caps (e : FatalErr) (s : State) :
    (raiseFatal e s).caps = s.caps := rfl
@[simp] theorem raiseFatal_draws (e : FatalErr) (s : State) :
    (raiseFatal e s).draws = s.draws + 1 := rfl
@[simp] theorem raiseFatal_rdata (e : FatalErr) (s : State) :
    (raiseFatal e s).rdata = s.rdata := rfl
@[simp] theorem raiseFatal_schedule (e : FatalErr) (s : State) :
    (raiseFatal e s).schedule = s.schedule := rfl

/-! ### `decFatal` -/

@[simp] theorem decFatal_regs (e : FatalErr) (s : State) :
    (decFatal e s).regs = (raiseFatal e s).regs := rfl
@[simp] theorem decFatal_latch (e : FatalErr) (s : State) :
    (decFatal e s).latch = s.latch := rfl
@[simp] theorem decFatal_active (e : FatalErr) (s : State) :
    (decFatal e s).active = .idle := rfl
@[simp] theorem decFatal_inBuf (e : FatalErr) (s : State) :
    (decFatal e s).inBuf = s.inBuf := rfl
@[simp] theorem decFatal_outBuf (e : FatalErr) (s : State) :
    (decFatal e s).outBuf = Memory.unspecified s.draws := rfl
@[simp] theorem decFatal_dec (e : FatalErr) (s : State) :
    (decFatal e s).dec = { s.dec with state := .fatal } := rfl
@[simp] theorem decFatal_enc (e : FatalErr) (s : State) :
    (decFatal e s).enc = s.enc := rfl
@[simp] theorem decFatal_acc (e : FatalErr) (s : State) :
    (decFatal e s).acc = s.acc := rfl
@[simp] theorem decFatal_caps (e : FatalErr) (s : State) :
    (decFatal e s).caps = s.caps := rfl
@[simp] theorem decFatal_draws (e : FatalErr) (s : State) :
    (decFatal e s).draws = s.draws + 1 := rfl
@[simp] theorem decFatal_rdata (e : FatalErr) (s : State) :
    (decFatal e s).rdata = s.rdata := rfl
@[simp] theorem decFatal_schedule (e : FatalErr) (s : State) :
    (decFatal e s).schedule = s.schedule := rfl

/-! ### `encFatal` -/

@[simp] theorem encFatal_regs (e : FatalErr) (s : State) :
    (encFatal e s).regs = (raiseFatal e s).regs := rfl
@[simp] theorem encFatal_latch (e : FatalErr) (s : State) :
    (encFatal e s).latch = s.latch := rfl
@[simp] theorem encFatal_active (e : FatalErr) (s : State) :
    (encFatal e s).active = .idle := rfl
@[simp] theorem encFatal_inBuf (e : FatalErr) (s : State) :
    (encFatal e s).inBuf = s.inBuf := rfl
@[simp] theorem encFatal_outBuf (e : FatalErr) (s : State) :
    (encFatal e s).outBuf = Memory.unspecified s.draws := rfl
@[simp] theorem encFatal_dec (e : FatalErr) (s : State) :
    (encFatal e s).dec = s.dec := rfl
@[simp] theorem encFatal_enc (e : FatalErr) (s : State) :
    (encFatal e s).enc = { s.enc with state := .fatal } := rfl
@[simp] theorem encFatal_acc (e : FatalErr) (s : State) :
    (encFatal e s).acc = s.acc := rfl
@[simp] theorem encFatal_caps (e : FatalErr) (s : State) :
    (encFatal e s).caps = s.caps := rfl
@[simp] theorem encFatal_draws (e : FatalErr) (s : State) :
    (encFatal e s).draws = s.draws + 1 := rfl
@[simp] theorem encFatal_rdata (e : FatalErr) (s : State) :
    (encFatal e s).rdata = s.rdata := rfl
@[simp] theorem encFatal_schedule (e : FatalErr) (s : State) :
    (encFatal e s).schedule = s.schedule := rfl

/-! ### `startEncoder` -/

@[simp] theorem startEncoder_regs (s : State) :
    (startEncoder s).regs = s.regs := rfl
@[simp] theorem startEncoder_latch (s : State) :
    (startEncoder s).latch = s.latch := rfl
@[simp] theorem startEncoder_active (s : State) :
    (startEncoder s).active = s.active := rfl
@[simp] theorem startEncoder_inBuf (s : State) :
    (startEncoder s).inBuf = s.inBuf := rfl
@[simp] theorem startEncoder_outBuf (s : State) :
    (startEncoder s).outBuf = s.outBuf := rfl
@[simp] theorem startEncoder_dec (s : State) :
    (startEncoder s).dec = s.dec := rfl
@[simp] theorem startEncoder_enc (s : State) :
    (startEncoder s).enc = { s.enc with state := .detect, anchor := 0, raw := [], outs := [] } := rfl
@[simp] theorem startEncoder_acc (s : State) :
    (startEncoder s).acc = { s.acc with valid := false } := rfl
@[simp] theorem startEncoder_caps (s : State) :
    (startEncoder s).caps = s.caps := rfl
@[simp] theorem startEncoder_draws (s : State) :
    (startEncoder s).draws = s.draws := rfl
@[simp] theorem startEncoder_rdata (s : State) :
    (startEncoder s).rdata = s.rdata := rfl
@[simp] theorem startEncoder_schedule (s : State) :
    (startEncoder s).schedule = s.schedule := rfl

/-! ### `startDecoder` -/

@[simp] theorem startDecoder_regs (s : State) :
    (startDecoder s).regs = s.regs := rfl
@[simp] theorem startDecoder_latch (s : State) :
    (startDecoder s).latch = s.latch := rfl
@[simp] theorem startDecoder_active (s : State) :
    (startDecoder s).active = s.active := rfl
@[simp] theorem startDecoder_inBuf (s : State) :
    (startDecoder s).inBuf = s.inBuf := rfl
@[simp] theorem startDecoder_outBuf (s : State) :
    (startDecoder s).outBuf = s.outBuf := rfl
@[simp] theorem startDecoder_dec (s : State) :
    (startDecoder s).dec = { s.dec with state := .readingHeader, pc := 0, opos := 0 } := rfl
@[simp] theorem startDecoder_enc (s : State) :
    (startDecoder s).enc = s.enc := rfl
@[simp] theorem startDecoder_acc (s : State) :
    (startDecoder s).acc = s.acc := rfl
@[simp] theorem startDecoder_caps (s : State) :
    (startDecoder s).caps = s.caps := rfl
@[simp] theorem startDecoder_draws (s : State) :
    (startDecoder s).draws = s.draws := rfl
@[simp] theorem startDecoder_rdata (s : State) :
    (startDecoder s).rdata = s.rdata := rfl
@[simp] theorem startDecoder_schedule (s : State) :
    (startDecoder s).schedule = s.schedule := rfl

/-! ### `closeSection` -/

@[simp] theorem closeSection_regs (s : State) :
    (closeSection s).regs = s.regs := rfl
@[simp] theorem closeSection_latch (s : State) :
    (closeSection s).latch = s.latch := rfl
@[simp] theorem closeSection_active (s : State) :
    (closeSection s).active = s.active := rfl
@[simp] theorem closeSection_inBuf (s : State) :
    (closeSection s).inBuf = s.inBuf := rfl
@[simp] theorem closeSection_outBuf (s : State) :
    (closeSection s).outBuf = s.outBuf := rfl
@[simp] theorem closeSection_dec (s : State) :
    (closeSection s).dec = { s.dec with state := .readingHeader, pc := BitVec.ofNat 32 (s.dec.pc.toNat + 3 + s.dec.secLen.toNat) } := rfl
@[simp] theorem closeSection_enc (s : State) :
    (closeSection s).enc = s.enc := rfl
@[simp] theorem closeSection_acc (s : State) :
    (closeSection s).acc = s.acc := rfl
@[simp] theorem closeSection_caps (s : State) :
    (closeSection s).caps = s.caps := rfl
@[simp] theorem closeSection_draws (s : State) :
    (closeSection s).draws = s.draws := rfl
@[simp] theorem closeSection_rdata (s : State) :
    (closeSection s).rdata = s.rdata := rfl
@[simp] theorem closeSection_schedule (s : State) :
    (closeSection s).schedule = s.schedule := rfl

/-! ### `loadDelta` -/

@[simp] theorem loadDelta_regs (a : Byte) (c : Half) (d : Byte) (s : State) :
    (loadDelta a c d s).regs = s.regs := rfl
@[simp] theorem loadDelta_latch (a : Byte) (c : Half) (d : Byte) (s : State) :
    (loadDelta a c d s).latch = s.latch := rfl
@[simp] theorem loadDelta_active (a : Byte) (c : Half) (d : Byte) (s : State) :
    (loadDelta a c d s).active = s.active := rfl
@[simp] theorem loadDelta_inBuf (a : Byte) (c : Half) (d : Byte) (s : State) :
    (loadDelta a c d s).inBuf = s.inBuf := rfl
@[simp] theorem loadDelta_outBuf (a : Byte) (c : Half) (d : Byte) (s : State) :
    (loadDelta a c d s).outBuf = s.outBuf := rfl
@[simp] theorem loadDelta_dec (a : Byte) (c : Half) (d : Byte) (s : State) :
    (loadDelta a c d s).dec = { s.dec with state := .emittingRun, payPos := BitVec.ofNat 16 (s.dec.payPos.toNat + 5), diStart := a, diCount := c, diDelta := d, diK := 0, diVal := a } := rfl
@[simp] theorem loadDelta_enc (a : Byte) (c : Half) (d : Byte) (s : State) :
    (loadDelta a c d s).enc = s.enc := rfl
@[simp] theorem loadDelta_acc (a : Byte) (c : Half) (d : Byte) (s : State) :
    (loadDelta a c d s).acc = s.acc := rfl
@[simp] theorem loadDelta_caps (a : Byte) (c : Half) (d : Byte) (s : State) :
    (loadDelta a c d s).caps = s.caps := rfl
@[simp] theorem loadDelta_draws (a : Byte) (c : Half) (d : Byte) (s : State) :
    (loadDelta a c d s).draws = s.draws := rfl
@[simp] theorem loadDelta_rdata (a : Byte) (c : Half) (d : Byte) (s : State) :
    (loadDelta a c d s).rdata = s.rdata := rfl
@[simp] theorem loadDelta_schedule (a : Byte) (c : Half) (d : Byte) (s : State) :
    (loadDelta a c d s).schedule = s.schedule := rfl

/-! ### `closeDelta` -/

@[simp] theorem closeDelta_regs (s : State) :
    (closeDelta s).regs = s.regs := rfl
@[simp] theorem closeDelta_latch (s : State) :
    (closeDelta s).latch = s.latch := rfl
@[simp] theorem closeDelta_active (s : State) :
    (closeDelta s).active = s.active := rfl
@[simp] theorem closeDelta_inBuf (s : State) :
    (closeDelta s).inBuf = s.inBuf := rfl
@[simp] theorem closeDelta_outBuf (s : State) :
    (closeDelta s).outBuf = s.outBuf := rfl
@[simp] theorem closeDelta_dec (s : State) :
    (closeDelta s).dec = { s.dec with state := .interpretingInstructions } := rfl
@[simp] theorem closeDelta_enc (s : State) :
    (closeDelta s).enc = s.enc := rfl
@[simp] theorem closeDelta_acc (s : State) :
    (closeDelta s).acc = s.acc := rfl
@[simp] theorem closeDelta_caps (s : State) :
    (closeDelta s).caps = s.caps := rfl
@[simp] theorem closeDelta_draws (s : State) :
    (closeDelta s).draws = s.draws := rfl
@[simp] theorem closeDelta_rdata (s : State) :
    (closeDelta s).rdata = s.rdata := rfl
@[simp] theorem closeDelta_schedule (s : State) :
    (closeDelta s).schedule = s.schedule := rfl

/-! ### `dropTurn` -/

@[simp] theorem dropTurn_regs (s : State) :
    (dropTurn s).regs = s.regs := rfl
@[simp] theorem dropTurn_latch (s : State) :
    (dropTurn s).latch = s.latch := rfl
@[simp] theorem dropTurn_active (s : State) :
    (dropTurn s).active = s.active := rfl
@[simp] theorem dropTurn_inBuf (s : State) :
    (dropTurn s).inBuf = s.inBuf := rfl
@[simp] theorem dropTurn_outBuf (s : State) :
    (dropTurn s).outBuf = s.outBuf := rfl
@[simp] theorem dropTurn_dec (s : State) :
    (dropTurn s).dec = s.dec := rfl
@[simp] theorem dropTurn_enc (s : State) :
    (dropTurn s).enc = s.enc := rfl
@[simp] theorem dropTurn_acc (s : State) :
    (dropTurn s).acc = s.acc := rfl
@[simp] theorem dropTurn_caps (s : State) :
    (dropTurn s).caps = s.caps := rfl
@[simp] theorem dropTurn_draws (s : State) :
    (dropTurn s).draws = s.draws := rfl
@[simp] theorem dropTurn_rdata (s : State) :
    (dropTurn s).rdata = s.rdata := rfl
@[simp] theorem dropTurn_schedule (s : State) :
    (dropTurn s).schedule = s.schedule.tail := rfl

/-! ### `hostReset` -/

@[simp] theorem hostReset_regs (s : State) :
    (hostReset s).regs = HostRegs.reset := rfl
@[simp] theorem hostReset_latch (s : State) :
    (hostReset s).latch = Latch.reset := rfl
@[simp] theorem hostReset_active (s : State) :
    (hostReset s).active = .idle := rfl
@[simp] theorem hostReset_inBuf (s : State) :
    (hostReset s).inBuf = Memory.unspecified s.draws := rfl
@[simp] theorem hostReset_outBuf (s : State) :
    (hostReset s).outBuf = Memory.unspecified (s.draws + 1) := rfl
@[simp] theorem hostReset_dec (s : State) :
    (hostReset s).dec = DecRegs.reset := rfl
@[simp] theorem hostReset_enc (s : State) :
    (hostReset s).enc = EncRegs.reset := rfl
@[simp] theorem hostReset_acc (s : State) :
    (hostReset s).acc = AccRegs.reset := rfl
@[simp] theorem hostReset_caps (s : State) :
    (hostReset s).caps = s.caps := rfl
@[simp] theorem hostReset_draws (s : State) :
    (hostReset s).draws = s.draws + 2 := rfl
@[simp] theorem hostReset_rdata (s : State) :
    (hostReset s).rdata = s.rdata := rfl
@[simp] theorem hostReset_schedule (s : State) :
    (hostReset s).schedule = s.schedule := rfl

end Sys2Proof.Machine
end

