-- ==== Sys2Proof/Laws/Ops.lean ====
section
/-! SUPPORT. What each shared operation can do, said once: STATUS fields, MemWrite, how a command ends, a unit's run. -/

namespace Sys2Proof.Machine

/-! ### The fields of STATUS (R24) -/

@[simp] theorem busyBit_statusWord (b d f x o : Bool) (e r : Byte) : busyBit (statusWord b d f x o e r) = b := by
  simp only [busyBit, statusWord, BitVec.getLsbD_append]
  simp

@[simp] theorem doneBit_statusWord (b d f x o : Bool) (e r : Byte) : doneBit (statusWord b d f x o e r) = d := by
  simp only [doneBit, statusWord, BitVec.getLsbD_append]
  simp

@[simp] theorem failBit_statusWord (b d f x o : Bool) (e r : Byte) : failBit (statusWord b d f x o e r) = f := by
  simp only [failBit, statusWord, BitVec.getLsbD_append]
  simp

@[simp] theorem fatalBit_statusWord (b d f x o : Bool) (e r : Byte) : fatalBit (statusWord b d f x o e r) = x := by
  simp only [fatalBit, statusWord, BitVec.getLsbD_append]
  simp

@[simp] theorem hasOvfBit_statusWord (b d f x o : Bool) (e r : Byte) : hasOvfBit (statusWord b d f x o e r) = o := by
  simp only [hasOvfBit, statusWord, BitVec.getLsbD_append]
  simp

@[simp] theorem errField_statusWord (b d f x o : Bool) (e r : Byte) : errField (statusWord b d f x o e r) = e := by
  apply BitVec.eq_of_getLsbD_eq
  intro i hi
  simp only [errField, statusWord, BitVec.getLsbD_extractLsb', BitVec.getLsbD_append]
  interval_cases i <;> simp

@[simp] theorem resTypeField_statusWord (b d f x o : Bool) (e r : Byte) : resTypeField (statusWord b d f x o e r) = r := by
  apply BitVec.eq_of_getLsbD_eq
  intro i hi
  simp only [resTypeField, statusWord, BitVec.getLsbD_extractLsb', BitVec.getLsbD_append]
  interval_cases i <;> simp

/-- The reserved bits 7:5 and 31:24 of STATUS are 0. -/
theorem statusWord_reserved (b d f x o : Bool) (e r : Byte) :
    (statusWord b d f x o e r).extractLsb' 5 3 = 0 ∧ (statusWord b d f x o e r).extractLsb' 24 8 = 0 := by
  constructor <;>
  · apply BitVec.eq_of_getLsbD_eq
    intro i hi
    simp only [statusWord, BitVec.getLsbD_extractLsb', BitVec.getLsbD_append]
    interval_cases i <;> simp

theorem statusBusy_eq : statusBusy = 1 := by decide

/-- Every kind has a code from 1 to 8, and no two kinds share one. -/
theorem code_range (k : ErrKind) : 1 ≤ k.code.toNat ∧ k.code.toNat ≤ 8 := by cases k <;> decide

theorem code_injective (k k' : ErrKind) (h : k.code = k'.code) : k = k' := by
  cases k <;> cases k' <;> first | rfl | exact absurd h (by decide)

/-! ### MemWrite (R61) -/

/-- What MemWrite can do: raise CapacityExceeded at 0, or write its bytes. -/
theorem memWrite_cases (a : Nat) (bytes : List Byte) (s : State) :
    (s.caps.outCap.toNat < a + bytes.length ∧ memWrite a bytes s = .error { kind := .capacityExceeded, off := 0 }) ∨
    (a + bytes.length ≤ s.caps.outCap.toNat ∧
      memWrite a bytes s = .ok { s with outBuf := s.outBuf.writeBytes a bytes }) := by
  unfold memWrite
  split
  · exact .inl ⟨by omega, rfl⟩
  · exact .inr ⟨by omega, rfl⟩

/-! ### How a command ends -/

/-- `raise Fatal` records the error and leaves everything else alone (R212, R213, R217). -/
theorem raiseFatal_end (e : FatalErr) (s : State) (h : e.off < 4294967296) : FatalEnd s (raiseFatal e s) e where
  inBuf := rfl
  latch := rfl
  caps := rfl
  schedule := rfl
  rdata := rfl
  cmd := rfl
  aLen := rfl
  aOff := rfl
  bOff := rfl
  pLen := rfl
  busy := by simp [statusFatal]
  done := by simp [statusFatal]
  fail := by simp [statusFatal]
  fatal := by simp [statusFatal]
  ovf := by simp [statusFatal]
  err := by simp [statusFatal]
  type := by simp [statusFatal]
  outLen := rfl
  resLen := rfl
  errOff := by simp [Nat.mod_eq_of_lt h]
  active := rfl
  out := fun a => by simp
  draws := rfl

theorem raiseFatal_units (e : FatalErr) (s : State) : UnitsKept s (raiseFatal e s) := ⟨rfl, rfl, rfl⟩

/-- `FatalEnd` does not see the unit registers. -/
theorem FatalEnd.ofUnits {s s' t : State} {e : FatalErr} (h : FatalEnd s' t e) (hb : BlockFrame s s')
    (hd : s'.draws = s.draws) : FatalEnd s t e where
  inBuf := h.inBuf.trans hb.inBuf
  latch := h.latch.trans hb.latch
  caps := h.caps.trans hb.caps
  schedule := h.schedule.trans hb.schedule
  rdata := h.rdata.trans hb.rdata
  cmd := h.cmd.trans hb.cmd
  aLen := h.aLen.trans hb.aLen
  aOff := h.aOff.trans hb.aOff
  bOff := h.bOff.trans hb.bOff
  pLen := h.pLen.trans hb.pLen
  busy := h.busy
  done := h.done
  fail := h.fail
  fatal := h.fatal
  ovf := h.ovf
  err := h.err
  type := h.type
  outLen := h.outLen
  resLen := h.resLen
  errOff := h.errOff
  active := h.active
  out := hd ▸ h.out
  draws := hd ▸ h.draws

theorem BlockFrame.refl (s : State) : BlockFrame s s := ⟨rfl, rfl, rfl, rfl, rfl, rfl, rfl, rfl, rfl, rfl⟩

theorem BlockFrame.trans {s t u : State} (h : BlockFrame s t) (h' : BlockFrame t u) : BlockFrame s u :=
  ⟨h'.inBuf.trans h.inBuf, h'.latch.trans h.latch, h'.caps.trans h.caps, h'.schedule.trans h.schedule,
    h'.rdata.trans h.rdata, h'.cmd.trans h.cmd, h'.aLen.trans h.aLen, h'.aOff.trans h.aOff, h'.bOff.trans h.bOff,
    h'.pLen.trans h.pLen⟩

theorem decFatal_end (e : FatalErr) (s : State) (h : e.off < 4294967296) : FatalEnd s (decFatal e s) e :=
  (raiseFatal_end e _ h).ofUnits ⟨rfl, rfl, rfl, rfl, rfl, rfl, rfl, rfl, rfl, rfl⟩ rfl

theorem encFatal_end (e : FatalErr) (s : State) (h : e.off < 4294967296) : FatalEnd s (encFatal e s) e :=
  (raiseFatal_end e _ h).ofUnits ⟨rfl, rfl, rfl, rfl, rfl, rfl, rfl, rfl, rfl, rfl⟩ rfl

/-- `Fail(PayloadTooLarge)` is recorded and OUT stays (R214). -/
theorem finishFail_end (s : State) : FailEnd s (finishFail s) where
  inBuf := rfl
  latch := rfl
  caps := rfl
  schedule := rfl
  rdata := rfl
  cmd := rfl
  aLen := rfl
  aOff := rfl
  bOff := rfl
  pLen := rfl
  busy := by simp [statusFail]
  done := by simp [statusFail]
  fail := by simp [statusFail]
  fatal := by simp [statusFail]
  ovf := by simp [statusFail]
  err := by simp [statusFail, ErrKind.code]
  type := by simp [statusFail]
  outLen := rfl
  resLen := rfl
  errOff := rfl
  active := rfl
  out := rfl
  draws := rfl

/-- `Ok` with `out` already in OUT from offset 0 (R42, R74). -/
theorem finishOk_end {s : State} {out : List Byte} {resLen : Nat} {resType : Byte} {hasOvf : Bool}
    (hlen : out.length < 4294967296) (hres : resLen < 4294967296)
    (hl : ∀ k, k < out.length → (lookupCell s.outBuf.cells k).isSome = true)
    (hr : ∀ k, k < out.length → s.outBuf.read k = out.getD k 0) :
    OkEnd s (finishOk out.length resLen resType hasOvf s) out resLen resType hasOvf where
  inBuf := rfl
  latch := rfl
  caps := rfl
  schedule := rfl
  rdata := rfl
  cmd := rfl
  aLen := rfl
  aOff := rfl
  bOff := rfl
  pLen := rfl
  busy := by simp [statusOk]
  done := by simp [statusOk]
  fail := by simp [statusOk]
  fatal := by simp [statusOk]
  ovf := by simp [statusOk]
  err := by simp [statusOk]
  type := by simp [statusOk]
  outLen := by simp [Nat.mod_eq_of_lt hlen]
  resLen := by simp [Nat.mod_eq_of_lt hres]
  errOff := rfl
  active := rfl
  bytes := fun k hk => by
    rw [finishOk_outBuf, read_keepBelow_listed s.draws hk (hl k hk), hr k hk]
  beyond := fun a ha => by
    rw [finishOk_outBuf, read_keepBelow, if_neg (by omega)]
  draws := rfl

theorem OkEnd.ofState {s s' t : State} {out : List Byte} {r : Nat} {y : Byte} {o : Bool} (h : OkEnd s' t out r y o)
    (hb : BlockFrame s s') (hd : s'.draws = s.draws) : OkEnd s t out r y o where
  inBuf := h.inBuf.trans hb.inBuf
  latch := h.latch.trans hb.latch
  caps := h.caps.trans hb.caps
  schedule := h.schedule.trans hb.schedule
  rdata := h.rdata.trans hb.rdata
  cmd := h.cmd.trans hb.cmd
  aLen := h.aLen.trans hb.aLen
  aOff := h.aOff.trans hb.aOff
  bOff := h.bOff.trans hb.bOff
  pLen := h.pLen.trans hb.pLen
  busy := h.busy
  done := h.done
  fail := h.fail
  fatal := h.fatal
  ovf := h.ovf
  err := h.err
  type := h.type
  outLen := h.outLen
  resLen := h.resLen
  errOff := h.errOff
  active := h.active
  bytes := h.bytes
  beyond := hd ▸ h.beyond
  draws := hd ▸ h.draws

/-- A command's outcome, written from offset 0: what `complete` can do with an `Ok`. -/
theorem complete_ok (out : List Byte) (resLen : Nat) (resType : Byte) (hasOvf : Bool) (s : State)
    (hres : resLen < 4294967296) :
    UnitsKept s (complete (.ok out resLen resType hasOvf) s) ∧
    (if out.length > s.caps.outCap.toNat then
      FatalEnd s (complete (.ok out resLen resType hasOvf) s) { kind := .capacityExceeded, off := 0 }
    else OkEnd s (complete (.ok out resLen resType hasOvf) s) out resLen resType hasOvf) := by
  have hcap := s.caps.outCap.isLt
  rcases memWrite_cases 0 out s with ⟨h, hw⟩ | ⟨h, hw⟩
  · simp only [complete, hw]
    rw [if_pos (by omega)]
    exact ⟨raiseFatal_units _ _, raiseFatal_end _ _ (by decide)⟩
  · simp only [complete, hw]
    rw [if_neg (by omega)]
    refine ⟨⟨rfl, rfl, rfl⟩, ?_⟩
    refine (finishOk_end (by omega) hres ?_ ?_).ofState ⟨rfl, rfl, rfl, rfl, rfl, rfl, rfl, rfl, rfl, rfl⟩ rfl
    · exact fun k hk => lookup_writeBytes_isSome _ _ _ _ ⟨Nat.zero_le _, by omega⟩
    · intro k hk
      have := read_writeBytes_inside k out hk 0 s.outBuf
      rwa [Nat.zero_add] at this

/-- The START check passes when A_LEN is within IN_CAP (R211). -/
theorem startError_none {s : State} (h : s.n ≤ s.caps.inCap.toNat) : startError s = none := by
  simp [startError, Nat.not_lt.mpr h]

theorem startError_some {s : State} (h : s.n > s.caps.inCap.toNat) :
    startError s = some { kind := .badCommand, off := 0 } := by
  simp [startError, h]

/-! ### A unit's run -/

@[simp] theorem going_andThen (s : State) (f : State → Flow) : (Flow.going s).andThen f = f s := rfl

@[simp] theorem ended_andThen (s : State) (f : State → Flow) : (Flow.ended s).andThen f = .ended s := rfl

@[simp] theorem going_state (s : State) : (Flow.going s).state = s := rfl

@[simp] theorem ended_state (s : State) : (Flow.ended s).state = s := rfl

theorem andThen_assoc (r : Flow) (f g : State → Flow) : (r.andThen f).andThen g = r.andThen (fun s => (f s).andThen g) := by
  cases r <;> rfl

/-- What emitting a byte can do: CapacityExceeded when OUT is full, else the byte at OPOS and OPOS + 1. -/
theorem emitByte_cases (b : Byte) (s : State) :
    (s.caps.outCap.toNat ≤ s.dec.opos.toNat ∧
      emitByte b s = .ended (decFatal { kind := .capacityExceeded, off := 0 } s)) ∨
    (s.dec.opos.toNat < s.caps.outCap.toNat ∧
      emitByte b s = .going { s with
        outBuf := s.outBuf.write s.dec.opos.toNat b
        dec := { s.dec with opos := BitVec.ofNat 32 (s.dec.opos.toNat + 1) } }) := by
  rcases memWrite_cases s.dec.opos.toNat [b] s with ⟨h, hw⟩ | ⟨h, hw⟩
  · exact .inl ⟨by simp at h; omega, by simp [emitByte, hw]⟩
  · exact .inr ⟨by simp at h; omega, by simp [emitByte, hw, Memory.writeBytes]⟩

/-- What entering a section can do (R181). -/
theorem enterSection_cases (y : SecType) (length : Half) (s : State) :
    (s.n < s.dec.pc.toNat + 3 + length.toNat ∧
      enterSection y length s = .ended (decFatal { kind := .truncatedStream, off := s.dec.pc.toNat } s)) ∨
    (s.dec.pc.toNat + 3 + length.toNat ≤ s.n ∧
      enterSection y length s = .going { s with
        dec := { s.dec with
          state := payloadState y
          secType := tagByte y
          secLen := length
          payPos := 0 } }) := by
  by_cases h : s.dec.pc.toNat + 3 + length.toNat > s.n
  · exact .inl ⟨h, by rw [enterSection, Config.headerLen, if_pos h]⟩
  · exact .inr ⟨by omega, by rw [enterSection, Config.headerLen, if_neg h]⟩

end Sys2Proof.Machine
end

