-- ==== Sys2Proof/Laws/Decoder.lean ====
section
/-! SUPPORT. What the decoder's loops do, in closed form: the copy of R183, the run of R185. -/

namespace Sys2Proof.Machine

/-! ### Bytes written one after the other -/

/-- The buffer with the bytes written from `a` up, one at a time: what a unit that emits byte by byte leaves (R61). -/
def Memory.writeUp (m : Memory) (a : Nat) : List Byte → Memory
  | [] => m
  | v :: rest => (m.write a v).writeUp (a + 1) rest

theorem read_writeUp (m : Memory) (a : Nat) (bytes : List Byte) (x : Nat) :
    (m.writeUp a bytes).read x = if a ≤ x ∧ x < a + bytes.length then bytes.getD (x - a) 0 else m.read x := by
  induction bytes generalizing m a with
  | nil => rw [if_neg (by simp)]; rfl
  | cons v rest ih =>
    rw [Memory.writeUp, ih]
    simp only [List.length_cons]
    by_cases hx : x = a
    · subst hx
      rw [if_neg (by omega), if_pos (by omega), read_write_same, Nat.sub_self, List.getD_cons_zero]
    · by_cases h : a + 1 ≤ x ∧ x < a + 1 + rest.length
      · rw [if_pos h, if_pos (by omega)]
        obtain ⟨d, hd⟩ : ∃ d, x - a = d + 1 := ⟨x - a - 1, by omega⟩
        rw [hd, List.getD_cons_succ]
        congr 1
        omega
      · rw [if_neg h, if_neg (by omega), read_write_other hx]

theorem lookup_writeUp_isSome (m : Memory) (a : Nat) (bytes : List Byte) (x : Nat)
    (h : (lookupCell m.cells x).isSome = true ∨ (a ≤ x ∧ x < a + bytes.length)) :
    (lookupCell (m.writeUp a bytes).cells x).isSome = true := by
  induction bytes generalizing m a with
  | nil => exact h.resolve_right (by simp)
  | cons v rest ih =>
    refine ih _ _ ?_
    by_cases hx : x = a
    · exact .inl (lookup_write_isSome m a v x (.inr hx))
    · rcases h with h | h
      · exact .inl (lookup_write_isSome m a v x (.inl h))
      · exact .inr (by simp only [List.length_cons] at h; omega)

theorem writeUp_append (m : Memory) (a : Nat) (p q : List Byte) :
    m.writeUp a (p ++ q) = (m.writeUp a p).writeUp (a + p.length) q := by
  induction p generalizing m a with
  | nil => rfl
  | cons v rest ih => simp [Memory.writeUp, ih, Nat.add_comm 1, Nat.add_assoc]

theorem writeUp_wf (m : Memory) (a : Nat) (bytes : List Byte) (h : m.wf = true) : (m.writeUp a bytes).wf = true := by
  induction bytes generalizing m a with
  | nil => exact h
  | cons v rest ih => exact ih _ _ (write_wf m a v h)

/-! ### What emitting leaves alone -/

theorem StreamFrame.refl (s : State) : StreamFrame s s := ⟨BlockFrame.refl s, rfl, rfl, rfl, rfl, rfl⟩

theorem StreamFrame.trans {s t u : State} (h : StreamFrame s t) (h' : StreamFrame t u) : StreamFrame s u :=
  ⟨h.toBlockFrame.trans h'.toBlockFrame, h'.regs.trans h.regs, h'.active.trans h.active, h'.enc.trans h.enc,
    h'.acc.trans h.acc, h'.draws.trans h.draws⟩

/-- The decoder's registers and OUT are all a stream instruction changes. -/
theorem StreamFrame.ofUpdate (s : State) (m : Memory) (d : DecRegs) : StreamFrame s { s with outBuf := m, dec := d } :=
  ⟨⟨rfl, rfl, rfl, rfl, rfl, rfl, rfl, rfl, rfl, rfl⟩, rfl, rfl, rfl, rfl, rfl⟩

/-- The run has ended in CapacityExceeded, raised in a state that differs from `s` in OUT and the decoder only. -/
def EndedFull (s : State) (r : Flow) : Prop :=
  ∃ u, StreamFrame s u ∧ r = .ended (decFatal { kind := .capacityExceeded, off := 0 } u)

theorem EndedFull.ofFrame {s u : State} {r : Flow} (h : StreamFrame s u) (h' : EndedFull u r) : EndedFull s r := by
  obtain ⟨v, hv, rfl⟩ := h'
  exact ⟨v, h.trans hv, rfl⟩

theorem FatalEnd.ofStream {s u t : State} {e : FatalErr} (h : StreamFrame s u) (h' : FatalEnd u t e) : FatalEnd s t e :=
  h'.ofUnits h.toBlockFrame h.draws

theorem EndedFull.fatal {s : State} {r : Flow} (h : EndedFull s r) :
    FatalEnd s r.state { kind := .capacityExceeded, off := 0 } := by
  obtain ⟨u, hu, rfl⟩ := h
  exact (decFatal_end _ u (by decide)).ofStream hu

theorem ofNat32_toNat_add (w : Word) (k : Nat) (h : w.toNat + k < 4294967296) :
    (BitVec.ofNat 32 (w.toNat + k)).toNat = w.toNat + k := by
  simp [Nat.mod_eq_of_lt h]

theorem ofNat16_toNat_add (w : Half) (k : Nat) (h : w.toNat + k < 65536) :
    (BitVec.ofNat 16 (w.toNat + k)).toNat = w.toNat + k := by
  simp [Nat.mod_eq_of_lt h]

/-! ### The copy loop (R183) -/

/-- The state after `k` bytes of a Data payload. -/
def copied (k : Nat) (s : State) : State :=
  { s with
    outBuf := s.outBuf.writeUp s.dec.opos.toNat (s.inBuf.readBytes (tagOffset s) k)
    dec := { s.dec with
      payPos := BitVec.ofNat 16 (s.dec.payPos.toNat + k)
      opos := BitVec.ofNat 32 (s.dec.opos.toNat + k) } }

theorem copied_frame (k : Nat) (s : State) : StreamFrame s (copied k s) := StreamFrame.ofUpdate s _ _

theorem copied_zero (s : State) : copied 0 s = s := by
  simp [copied, Memory.readBytes, Memory.writeUp]

theorem copied_copied (j k : Nat) (s : State) (hp : s.dec.payPos.toNat + j + k < 65536)
    (ho : s.dec.opos.toNat + j + k < 4294967296) : copied k (copied j s) = copied (j + k) s := by
  have hp' : (s.dec.payPos.toNat + j) % 65536 = s.dec.payPos.toNat + j := Nat.mod_eq_of_lt (by omega)
  have ho' : (s.dec.opos.toNat + j) % 4294967296 = s.dec.opos.toNat + j := Nat.mod_eq_of_lt (by omega)
  have hsplit : s.inBuf.readBytes (tagOffset s) (j + k) =
      s.inBuf.readBytes (tagOffset s) j ++ s.inBuf.readBytes (tagOffset s + j) k := by
    rw [← take_readBytes s.inBuf (tagOffset s) (j + k) j (by omega)]
    have h2 := drop_readBytes s.inBuf (tagOffset s) (j + k) j (by omega)
    rw [Nat.add_sub_cancel_left] at h2
    rw [← h2, List.take_append_drop]
  simp only [copied, tagOffset, BitVec.toNat_ofNat, Nat.reducePow, hp', ho', Nat.add_assoc]
  simp only [tagOffset, Nat.add_assoc] at hsplit
  rw [hsplit, writeUp_append]
  simp

/-- One byte of the copy: what `copyByte` can do. -/
theorem copyByte_cases (s : State) :
    (s.caps.outCap.toNat ≤ s.dec.opos.toNat ∧
      copyByte s = .ended (decFatal { kind := .capacityExceeded, off := 0 } s)) ∨
    (s.dec.opos.toNat < s.caps.outCap.toNat ∧ copyByte s = .going (copied 1 s)) := by
  rcases emitByte_cases (s.in1 (tagOffset s)) s with ⟨h, he⟩ | ⟨h, he⟩
  · exact .inl ⟨h, by simp [copyByte, he]⟩
  · exact .inr ⟨h, by rw [copyByte, he]; rfl⟩

/-- The copy loop when OUT has room. -/
theorem copyPayload_fits (k : Nat) (s : State) (hp : s.dec.payPos.toNat + k < 65536)
    (h : k = 0 ∨ s.dec.opos.toNat + k ≤ s.caps.outCap.toNat) :
    copyPayload k s = .going (closeSection (copied k s)) := by
  have hcap := s.caps.outCap.isLt
  induction k generalizing s with
  | zero => rw [copied_zero]; rfl
  | succ k ih =>
    have h' : s.dec.opos.toNat + (k + 1) ≤ s.caps.outCap.toNat := h.resolve_left (by omega)
    rcases copyByte_cases s with ⟨hf, -⟩ | ⟨-, he⟩
    · omega
    · rw [copyPayload, he, going_andThen, ih (copied 1 s), copied_copied 1 k s (by omega) (by omega), Nat.add_comm 1 k]
      · simp only [copied]
        rw [ofNat16_toNat_add _ _ (by omega)]
        omega
      · right
        simp only [copied]
        rw [ofNat32_toNat_add _ _ (by omega)]
        omega
      · exact hcap

/-- The copy loop when OUT fills. -/
theorem copyPayload_full (k : Nat) (s : State) (hk : k ≠ 0) (h : s.dec.opos.toNat + k > s.caps.outCap.toNat) :
    EndedFull s (copyPayload k s) := by
  have hcap := s.caps.outCap.isLt
  induction k generalizing s with
  | zero => exact absurd rfl hk
  | succ k ih =>
    rcases copyByte_cases s with ⟨-, he⟩ | ⟨hlt, he⟩
    · exact ⟨s, StreamFrame.refl s, by rw [copyPayload, he, ended_andThen]⟩
    · rw [copyPayload, he, going_andThen]
      refine (ih (copied 1 s) (by omega) ?_ hcap).ofFrame (copied_frame 1 s)
      simp only [copied]
      rw [ofNat32_toNat_add _ _ (by omega)]
      omega

/-! ### The run loop (R185) -/

/-- The bytes of indices `k .. k + n - 1` of a run. -/
def runSlice (start delta : Byte) (k n : Nat) : List Byte := (List.range n).map (fun x => runByte start delta (k + x))

@[simp] theorem length_runSlice (start delta : Byte) (k n : Nat) : (runSlice start delta k n).length = n := by
  simp [runSlice]

theorem runSlice_append (start delta : Byte) (k m n : Nat) :
    runSlice start delta k (m + n) = runSlice start delta k m ++ runSlice start delta (k + m) n := by
  simp [runSlice, List.range_add, Nat.add_assoc]

theorem runSlice_zero_eq (start delta : Byte) (n : Nat) : runSlice start delta 0 n = runBytes start n delta := by
  simp [runSlice, runBytes, runByte]

theorem getD_runBytes (start delta : Byte) {n k : Nat} (h : k < n) :
    (runBytes start n delta).getD k 0 = BitVec.ofNat 8 (start.toNat + k * delta.toNat) := by
  simp [runBytes, h]

@[simp] theorem length_runBytes (start : Byte) (n : Nat) (delta : Byte) : (runBytes start n delta).length = n := by
  simp [runBytes]

/-- The accumulate-and-wrap law: adding delta to the byte of index `k` gives the byte of index `k + 1` (R189). -/
theorem runByte_succ (start delta : Byte) (k : Nat) : runByte start delta (k + 1) = runByte start delta k + delta := by
  apply BitVec.eq_of_toNat_eq
  simp only [runByte, BitVec.toNat_ofNat, BitVec.toNat_add]
  rw [Nat.add_mul, Nat.one_mul, ← Nat.add_assoc]
  omega

theorem runByte_zero (start delta : Byte) : runByte start delta 0 = start := by
  simp [runByte]

/-- The state after `n` more bytes of a run. -/
def emitted (start delta : Byte) (n : Nat) (s : State) : State :=
  { s with
    outBuf := s.outBuf.writeUp s.dec.opos.toNat (runSlice start delta s.dec.diK.toNat n)
    dec := { s.dec with
      diK := BitVec.ofNat 16 (s.dec.diK.toNat + n)
      diVal := runByte start delta (s.dec.diK.toNat + n)
      opos := BitVec.ofNat 32 (s.dec.opos.toNat + n) } }

theorem emitted_frame (start delta : Byte) (n : Nat) (s : State) : StreamFrame s (emitted start delta n s) :=
  StreamFrame.ofUpdate s _ _

theorem emitted_zero (start delta : Byte) (s : State) (h : s.dec.diVal = runByte start delta s.dec.diK.toNat) :
    emitted start delta 0 s = s := by
  simp [emitted, runSlice, Memory.writeUp, ← h]

theorem emitted_emitted (start delta : Byte) (j k : Nat) (s : State) (hk : s.dec.diK.toNat + j + k < 65536)
    (ho : s.dec.opos.toNat + j + k < 4294967296) :
    emitted start delta k (emitted start delta j s) = emitted start delta (j + k) s := by
  have hk' : (s.dec.diK.toNat + j) % 65536 = s.dec.diK.toNat + j := Nat.mod_eq_of_lt (by omega)
  have ho' : (s.dec.opos.toNat + j) % 4294967296 = s.dec.opos.toNat + j := Nat.mod_eq_of_lt (by omega)
  simp only [emitted, BitVec.toNat_ofNat, Nat.reducePow, hk', ho', Nat.add_assoc]
  rw [runSlice_append, writeUp_append]
  simp

/-- The run loop when OUT has room. -/
theorem emitRun_fits (start delta : Byte) (n : Nat) (s : State) (hv : s.dec.diVal = runByte start delta s.dec.diK.toNat)
    (hk : s.dec.diK.toNat + n < 65536) (h : n = 0 ∨ s.dec.opos.toNat + n ≤ s.caps.outCap.toNat) :
    emitRun start delta n s = .going (closeDelta (emitted start delta n s)) := by
  have hcap := s.caps.outCap.isLt
  induction n generalizing s with
  | zero => rw [emitted_zero start delta s hv]; rfl
  | succ n ih =>
    have h' : s.dec.opos.toNat + (n + 1) ≤ s.caps.outCap.toNat := h.resolve_left (by omega)
    rcases emitByte_cases (runByte start delta s.dec.diK.toNat) s with ⟨hf, -⟩ | ⟨-, he⟩
    · omega
    · have h1 : emitRun start delta (n + 1) s = emitRun start delta n (emitted start delta 1 s) := by
        rw [emitRun, he, going_andThen]
        simp [emitted, runSlice, Memory.writeUp]
      rw [h1, ih (emitted start delta 1 s), emitted_emitted start delta 1 n s (by omega) (by omega), Nat.add_comm 1 n]
      · simp only [emitted]
        rw [ofNat16_toNat_add _ _ (by omega)]
      · simp only [emitted]
        rw [ofNat16_toNat_add _ _ (by omega)]
        omega
      · right
        simp only [emitted]
        rw [ofNat32_toNat_add _ _ (by omega)]
        omega
      · exact hcap

/-- The run loop when OUT fills. -/
theorem emitRun_full (start delta : Byte) (n : Nat) (s : State) (hn : n ≠ 0)
    (h : s.dec.opos.toNat + n > s.caps.outCap.toNat) : EndedFull s (emitRun start delta n s) := by
  have hcap := s.caps.outCap.isLt
  induction n generalizing s with
  | zero => exact absurd rfl hn
  | succ n ih =>
    rcases emitByte_cases (runByte start delta s.dec.diK.toNat) s with ⟨-, he⟩ | ⟨hlt, he⟩
    · exact ⟨s, StreamFrame.refl s, by rw [emitRun, he, ended_andThen]⟩
    · rw [emitRun, he, going_andThen]
      refine EndedFull.ofFrame (StreamFrame.ofUpdate s _ _) (ih _ ?_ ?_ hcap)
      · omega
      · show (BitVec.ofNat 32 (s.dec.opos.toNat + 1)).toNat + n > s.caps.outCap.toNat
        rw [ofNat32_toNat_add _ _ (by omega)]
        omega

end Sys2Proof.Machine
end

