-- ==== Sys2Proof/Laws/Fetch.lean ====
section
/-! SUPPORT. What a fetch can do, said once: the header at PC (R181), the instruction at the tag offset (R184), the accepted command
(R88, R211); and the u16 of two bytes (R10). -/

namespace Sys2Proof

theorem le16_toNat (lo hi : Byte) : (le16 lo hi).toNat = lo.toNat + 256 * hi.toNat := by
  have hl := lo.isLt
  rw [le16, BitVec.toNat_append, Nat.shiftLeft_eq, Nat.mul_comm, ← Nat.two_pow_add_eq_or_of_lt hl]
  omega

theorem loByte_le16 (lo hi : Byte) : loByte (le16 lo hi) = lo := by
  apply BitVec.eq_of_toNat_eq
  have hl := lo.isLt
  simp only [loByte, BitVec.extractLsb'_toNat, le16_toNat, Nat.shiftRight_zero]
  omega

theorem hiByte_le16 (lo hi : Byte) : hiByte (le16 lo hi) = hi := by
  apply BitVec.eq_of_toNat_eq
  have hl := lo.isLt
  have hh := hi.isLt
  simp only [hiByte, BitVec.extractLsb'_toNat, le16_toNat, Nat.shiftRight_eq_div_pow]
  omega

theorem le16_loByte_hiByte (v : Half) : le16 (loByte v) (hiByte v) = v := by
  apply BitVec.eq_of_toNat_eq
  have hv := v.isLt
  simp only [le16_toNat, loByte, hiByte, BitVec.extractLsb'_toNat, Nat.shiftRight_eq_div_pow]
  omega

namespace Machine

theorem secTypeOf_tagByte (t : SecType) : secTypeOf (tagByte t) = some t := by cases t <;> rfl

/-- What fetching a header can do (R181, R182). -/
theorem fetchSection_cases (s : State) :
    (s.n < s.dec.pc.toNat + 3 ∧ fetchSection s = .error { kind := .truncatedStream, off := s.dec.pc.toNat }) ∨
    (s.dec.pc.toNat + 3 ≤ s.n ∧
      ((s.in1 s.dec.pc.toNat ≠ 0 ∧ s.in1 s.dec.pc.toNat ≠ 1 ∧
          fetchSection s = .error { kind := .unknownSectionType, off := s.dec.pc.toNat }) ∨
        (s.in1 s.dec.pc.toNat = 0 ∧ fetchSection s = .ok (.data (s.in2 (s.dec.pc.toNat + 1)))) ∨
        (s.in1 s.dec.pc.toNat = 1 ∧ fetchSection s = .ok (.code (s.in2 (s.dec.pc.toNat + 1)))))) := by
  by_cases h : s.dec.pc.toNat + 3 ≤ s.n
  · refine .inr ⟨h, ?_⟩
    have hm : min Config.headerLen (s.n - s.dec.pc.toNat) = 3 := by simp only [Config.headerLen]; omega
    simp only [fetchSection, hm, State.inBytes, Memory.readBytes, decode, decodeHeader, State.in1, State.in2]
    by_cases h0 : s.inBuf.read s.dec.pc.toNat = 0
    · exact .inr (.inl ⟨h0, by rw [if_pos h0]⟩)
    · by_cases h1 : s.inBuf.read s.dec.pc.toNat = 1
      · exact .inr (.inr ⟨h1, by rw [if_neg h0, if_pos h1]⟩)
      · exact .inl ⟨h0, h1, by rw [if_neg h0, if_neg h1]; rfl⟩
  · refine .inl ⟨by omega, ?_⟩
    have hk : s.n - s.dec.pc.toNat = 0 ∨ s.n - s.dec.pc.toNat = 1 ∨ s.n - s.dec.pc.toNat = 2 := by omega
    rcases hk with hk | hk | hk <;>
      simp [fetchSection, hk, Config.headerLen, State.inBytes, Memory.readBytes, decode, decodeHeader, decodeErrorKind]

/-- What fetching an instruction of a Code payload can do, payload bytes remaining (R184). -/
theorem fetchInstruction_cases (s : State) (h : s.dec.payPos.toNat < s.dec.secLen.toNat) :
    (s.in1 (tagOffset s) ≠ 0 ∧ fetchInstruction s = .error { kind := .unknownOpcode, off := tagOffset s }) ∨
    (s.in1 (tagOffset s) = 0 ∧
      ((s.dec.secLen.toNat < s.dec.payPos.toNat + 5 ∧
          fetchInstruction s = .error { kind := .truncatedInstruction, off := tagOffset s }) ∨
        (s.dec.payPos.toNat + 5 ≤ s.dec.secLen.toNat ∧
          fetchInstruction s = .ok
            (.deltaIter (s.in1 (tagOffset s + 1)) (s.in2 (tagOffset s + 2)) (s.in1 (tagOffset s + 4)))))) := by
  obtain ⟨r, hr⟩ : ∃ r, s.dec.secLen.toNat - s.dec.payPos.toNat = r + 1 := ⟨_, (Nat.sub_add_cancel (by omega)).symm⟩
  by_cases h0 : s.inBuf.read (tagOffset s) = 0
  · refine .inr ⟨h0, ?_⟩
    by_cases h5 : s.dec.payPos.toNat + 5 ≤ s.dec.secLen.toNat
    · refine .inr ⟨h5, ?_⟩
      have hm : min Config.instrLen (s.dec.secLen.toNat - s.dec.payPos.toNat) = 5 := by
        simp only [Config.instrLen]
        omega
      simp only [fetchInstruction, hm, State.inBytes, Memory.readBytes, decode, decodePayload, h0, if_true, State.in1,
        State.in2]
    · refine .inl ⟨by omega, ?_⟩
      have hk : r = 0 ∨ r = 1 ∨ r = 2 ∨ r = 3 := by omega
      rcases hk with rfl | rfl | rfl | rfl <;>
        simp [fetchInstruction, hr, Config.instrLen, State.inBytes, Memory.readBytes, decode, decodePayload, h0,
          decodeErrorKind]
  · refine .inl ⟨h0, ?_⟩
    have hm : ∃ k, min Config.instrLen (s.dec.secLen.toNat - s.dec.payPos.toNat) = k + 1 := by
      simp only [Config.instrLen, hr]
      exact ⟨min 4 r, by omega⟩
    obtain ⟨k, hm⟩ := hm
    simp only [fetchInstruction, hm, State.inBytes, Memory.readBytes, decode, decodePayload, if_neg h0, decodeErrorKind]

end Machine
end Sys2Proof
end

