-- ==== Sys2Proof/Laws/Framer.lean ====
section
/-! SUPPORT. What the framer's shared operations can do, said once: operands (R100, R104), serialization (R13, R102), merge of one type
(R110), a command from its START check on (R211). -/

namespace Sys2Proof.Machine

/-- What reading TYPE can do (R100). -/
theorem typeOperand_cases (type : Byte) :
    (type ≠ 0 ∧ type ≠ 1 ∧ typeOperand type = .error { kind := .unknownSectionType, off := 0 }) ∨
    ∃ t, typeOperand type = .ok t ∧ tagByte t = type := by
  by_cases h0 : type = 0
  · exact .inr ⟨.data, by simp [typeOperand, secTypeOf, h0], h0.symm⟩
  · by_cases h1 : type = 1
    · exact .inr ⟨.code, by simp [typeOperand, secTypeOf, h1], h1.symm⟩
    · exact .inl ⟨h0, h1, by rw [typeOperand, secTypeOf, if_neg h0, if_neg h1]⟩

/-- What reading the payload operand can do (R104). -/
theorem payloadOperand_cases (s : State) :
    (s.n < s.aOff + s.pLen ∧ payloadOperand s = .error { kind := .badCommand, off := 0 }) ∨
    (s.aOff + s.pLen ≤ s.n ∧ payloadOperand s = .ok (s.inBuf.readBytes s.aOff s.pLen)) := by
  by_cases h : s.aOff + s.pLen > s.n
  · exact .inl ⟨h, by rw [payloadOperand, if_pos h]⟩
  · exact .inr ⟨by omega, by rw [payloadOperand, if_neg h]; rfl⟩

/-- A header's bytes, by the arithmetic of R102. -/
theorem encodeHeader_eq (t : SecType) (len : Nat) (h : len ≤ 65535) :
    encodeHeader t len = [tagByte t, BitVec.ofNat 8 (len % 256), BitVec.ofNat 8 (len / 256)] := by
  have hl : len % 65536 = len := Nat.mod_eq_of_lt (by omega)
  have hlo : loByte (BitVec.ofNat 16 len) = BitVec.ofNat 8 (len % 256) := by
    apply BitVec.eq_of_toNat_eq
    simp [loByte, hl]
  have hhi : hiByte (BitVec.ofNat 16 len) = BitVec.ofNat 8 (len / 256) := by
    apply BitVec.eq_of_toNat_eq
    simp [hiByte, hl, Nat.shiftRight_eq_div_pow]
  rw [encodeHeader, headerBytes, le16bytes, hlo, hhi]

@[simp] theorem length_encodeHeader (t : SecType) (len : Nat) : (encodeHeader t len).length = 3 := rfl

@[simp] theorem length_ser (x : Section) : x.ser.length = 3 + x.payload.length := by simp [Section.ser]

/-- A stream's bytes in the terms of `streamBytes`, every section within its bound. -/
theorem serialize_eq (sections : List Section) (h : ∀ x ∈ sections, x.payload.length ≤ 65535) :
    serialize sections = streamBytes sections := by
  induction sections with
  | nil => rfl
  | cons x rest ih =>
    have hx := h x List.mem_cons_self
    have hr := ih fun y hy => h y (List.mem_cons_of_mem x hy)
    simp only [serialize, streamBytes, List.flatMap_cons, Section.ser, encodeHeader_eq x.type _ hx] at hr ⊢
    rw [hr]
    cases x.type <;> rfl

/-- The accumulator as a section, when ACC_LEN is the length of ACC (R39). -/
theorem asSection_eq (r : AccRegs) (h : r.len.toNat = r.data.length) :
    r.asSection = { type := if r.type = 1 then .code else .data, payload := r.data } := by
  rw [AccRegs.asSection, h, List.take_length]

/-- What merging two sections of one type can do (R110). -/
theorem mergeSame_cases (a b : Section) :
    (a.payload.length + b.payload.length ≤ 65535 ∧
      mergeSame a b = ({ type := a.type, payload := a.payload ++ b.payload }, none)) ∨
    (65535 < a.payload.length + b.payload.length ∧
      mergeSame a b =
        ({ type := a.type, payload := a.payload ++ b.payload.take (65535 - a.payload.length) },
          some { type := a.type, payload := b.payload.drop (65535 - a.payload.length) })) := by
  by_cases h : a.payload.length + b.payload.length ≤ 65535
  · exact .inl ⟨h, by rw [mergeSame, Config.maxLen, if_pos h]⟩
  · exact .inr ⟨by omega, by rw [mergeSame, Config.maxLen, if_neg h]⟩

/-- A command from its START check on (R211). -/
theorem runCommand_cases (f : State → CmdOutcome) (s : State) :
    (s.caps.inCap.toNat < s.n ∧ runCommand f s = raiseFatal { kind := .badCommand, off := 0 } s) ∨
    (s.n ≤ s.caps.inCap.toNat ∧ runCommand f s = complete (f s) s) := by
  by_cases h : s.n > s.caps.inCap.toNat
  · exact .inl ⟨h, by rw [runCommand, startError_some h]⟩
  · exact .inr ⟨by omega, by rw [runCommand, startError_none (by omega)]⟩

end Sys2Proof.Machine
end

