-- ==== Sys2Proof/Laws/PerInstr.lean ====
section
/-! SUPPORT. The per-instruction family: how many bytes an instruction's words take, and which byte names it. -/

namespace Sys2Proof.Laws.EncodeShape

/-- The bytes an instruction of a level takes (R81, R84, R88). -/
def width : Level → Nat
  | .sectionStream => 3
  | .codePayload => 5
  | .cmdRegister => 4

/-- An instruction's words take the width of its level, and its first byte names an instruction of that level only: the type
bytes are 0 and 1, the tag is 0, the OPs are 1 to 8 (R82, R85, R88). -/
def Statement (i : Instr) : Prop :=
  (encode i).length = width i.level ∧
    match i.level with
    | .sectionStream => ((encode i).headD 0).toNat ≤ 1
    | .codePayload => (encode i).headD 0 = 0
    | .cmdRegister => 1 ≤ ((encode i).headD 0).toNat ∧ ((encode i).headD 0).toNat ≤ 8

theorem data (length : Half) : Statement (.data length) := ⟨rfl, Nat.le_of_ble_eq_true rfl⟩
theorem code (length : Half) : Statement (.code length) := ⟨rfl, Nat.le_of_ble_eq_true rfl⟩
theorem deltaIter (start : Byte) (count : Half) (delta : Byte) : Statement (.deltaIter start count delta) := ⟨rfl, rfl⟩
theorem compress (type : Byte) : Statement (.compress type) := ⟨rfl, Nat.le_of_ble_eq_true rfl, Nat.le_of_ble_eq_true rfl⟩
theorem decompress (type : Byte) : Statement (.decompress type) := ⟨rfl, Nat.le_of_ble_eq_true rfl, Nat.le_of_ble_eq_true rfl⟩
theorem encodeHeader (type : Byte) : Statement (.encodeHeader type) := ⟨rfl, Nat.le_of_ble_eq_true rfl, Nat.le_of_ble_eq_true rfl⟩
theorem tryMakeSection (type : Byte) : Statement (.tryMakeSection type) := ⟨rfl, Nat.le_of_ble_eq_true rfl, Nat.le_of_ble_eq_true rfl⟩
theorem makeSection (type : Byte) : Statement (.makeSection type) := ⟨rfl, Nat.le_of_ble_eq_true rfl, Nat.le_of_ble_eq_true rfl⟩
theorem readHeader (type : Byte) : Statement (.readHeader type) := ⟨rfl, Nat.le_of_ble_eq_true rfl, Nat.le_of_ble_eq_true rfl⟩
theorem readPayload (type : Byte) : Statement (.readPayload type) := ⟨rfl, Nat.le_of_ble_eq_true rfl, Nat.le_of_ble_eq_true rfl⟩
theorem merge (type : Byte) : Statement (.merge type) := ⟨rfl, Nat.le_of_ble_eq_true rfl, Nat.le_of_ble_eq_true rfl⟩

end Sys2Proof.Laws.EncodeShape
end

