-- ==== Sys2Proof/Laws/Step.lean ====
section
/-! SUPPORT. What a step can do, said once: whose turn it is, what the block runs on it, and that no meaning stops the machine. -/

namespace Sys2Proof.Machine

/-- Every meaning answers a next state. -/
theorem exec_next (i : Instr) (s : State) : ∃ t, exec i s = .next t := by
  cases i <;> exact ⟨_, rfl⟩

/-- What OP selects (R88, R89). -/
theorem decodeOp_cases (op type : Byte) :
    ((op = 0 ∨ 9 ≤ op.toNat) ∧ decodeOp op type = .error (.badCommand op)) ∨
    (1 ≤ op.toNat ∧ op.toNat ≤ 8 ∧ ∃ i, decodeOp op type = .ok i ∧ i.level = .cmdRegister) := by
  by_cases h9 : 9 ≤ op.toNat
  · refine .inl ⟨.inr h9, ?_⟩
    unfold decodeOp
    split <;> first | omega | rfl
  · by_cases h0 : op = 0
    · subst h0
      exact .inl ⟨.inl rfl, rfl⟩
    · have hpos : op.toNat ≠ 0 := fun h => h0 (BitVec.eq_of_toNat_eq h)
      refine .inr ⟨by omega, by omega, ?_⟩
      have h : op.toNat = 1 ∨ op.toNat = 2 ∨ op.toNat = 3 ∨ op.toNat = 4 ∨ op.toNat = 5 ∨ op.toNat = 6 ∨ op.toNat = 7 ∨
          op.toNat = 8 := by omega
      rcases h with h | h | h | h | h | h | h | h <;> simp only [decodeOp, h] <;> exact ⟨_, rfl, rfl⟩

/-- What fetching the accepted command can do (R211). -/
theorem fetchCommand_cases (s : State) :
    ((cmdOp s.latch.cmd = 0 ∨ 9 ≤ (cmdOp s.latch.cmd).toNat) ∧
      fetchCommand s = .error { kind := .badCommand, off := 0 }) ∨
    (1 ≤ (cmdOp s.latch.cmd).toNat ∧ (cmdOp s.latch.cmd).toNat ≤ 8 ∧
      ∃ i, fetchCommand s = .ok i ∧ i.level = .cmdRegister) := by
  have hop : BitVec.ofNat 8 s.latch.cmd.toNat = cmdOp s.latch.cmd := by
    apply BitVec.eq_of_toNat_eq
    simp [cmdOp]
  simp only [fetchCommand, commandWord, numberBytes, decode, decodeCommand, hop]
  rcases decodeOp_cases (cmdOp s.latch.cmd) (BitVec.ofNat 8 (s.latch.cmd.toNat / 256)) with ⟨h, hd⟩ | ⟨h1, h8, i, hd, hl⟩
  · exact .inl ⟨h, by rw [hd]; rfl⟩
  · exact .inr ⟨h1, h8, i, by rw [hd], hl⟩

/-- What the block's whole turn can do. -/
theorem blockWhole_cases (s : State) :
    (∃ i, fetch s = .ok (some i) ∧ blockWhole s = exec i s) ∨
    (fetch s = .ok none ∧ blockWhole s = .next (unitTick s)) ∨
    ∃ e, fetch s = .error e ∧ blockWhole s = .next (raiseFetch e s) := by
  unfold blockWhole
  split
  · exact .inl ⟨_, ‹_›, rfl⟩
  · exact .inr (.inl ⟨‹_›, rfl⟩)
  · exact .inr (.inr ⟨_, ‹_›, rfl⟩)

/-- What the block's tick can do. -/
theorem blockTick_cases (s : State) :
    (s.active = .accepted ∧
      ((∃ i, fetchCommand s = .ok i ∧ blockTick s = beginCommand i s) ∨
        ∃ e, fetchCommand s = .error e ∧ blockTick s = .next (raiseFatal e s))) ∨
    (s.active ≠ .accepted ∧ blockTick s = .next (unitTick s)) := by
  unfold blockTick
  split
  · refine .inl ⟨‹_›, ?_⟩
    split
    · exact .inl ⟨_, ‹_›, rfl⟩
    · exact .inr ⟨_, ‹_›, rfl⟩
  all_goals exact .inr ⟨by simp [*], rfl⟩

/-- Beginning a command answers a next state. -/
theorem beginCommand_next (i : Instr) (s : State) : ∃ t, beginCommand i s = .next t := by
  cases i <;> exact ⟨_, rfl⟩

/-- The block's turns answer a next state. -/
theorem blockWhole_next (s : State) : ∃ t, blockWhole s = .next t := by
  rcases blockWhole_cases s with ⟨i, -, h⟩ | ⟨-, h⟩ | ⟨e, -, h⟩
  · rw [h]
    exact exec_next i s
  · exact ⟨_, h⟩
  · exact ⟨_, h⟩

theorem blockTick_next (s : State) : ∃ t, blockTick s = .next t := by
  rcases blockTick_cases s with ⟨-, ⟨i, -, h⟩ | ⟨e, -, h⟩⟩ | ⟨-, h⟩
  · rw [h]
    exact beginCommand_next i s
  · exact ⟨_, h⟩
  · exact ⟨_, h⟩

/-- Whose turn a step takes (log 4). -/
theorem step_cases (s : State) :
    (nextTurn s = .whole ∧ step s = blockWhole (dropTurn s)) ∨ (nextTurn s = .tick ∧ step s = blockTick (dropTurn s)) ∨
    ∃ a, nextTurn s = .host a ∧ step s = hostAct a (dropTurn s) := by
  unfold step
  cases h : nextTurn s with
  | whole => exact .inl ⟨rfl, rfl⟩
  | tick => exact .inr (.inl ⟨rfl, rfl⟩)
  | host a => exact .inr (.inr ⟨a, rfl, rfl⟩)

/-- While the encoder runs, the block's turn, whole or a tick, is one step of the encoder. -/
theorem step_encoder {s : State} (ha : s.active = .encoder) (ht : nextTurn s = .whole ∨ nextTurn s = .tick) :
    step s = .next (encTick (dropTurn s)) := by
  have hd : (dropTurn s).active = .encoder := ha
  rcases ht with ht | ht
  · simp only [step, ht, takeTurn, blockWhole, fetch, unitTick, hd]
  · simp only [step, ht, takeTurn, blockTick, unitTick, hd]

/-- While the decoder runs, a tick is one step of the decoder. -/
theorem step_decoder_tick {s : State} (ha : s.active = .decoder) (ht : nextTurn s = .tick) :
    step s = .next (decTick (dropTurn s)) := by
  have hd : (dropTurn s).active = .decoder := ha
  simp only [step, ht, takeTurn, blockTick, unitTick, hd]

end Sys2Proof.Machine
end

