-- ==== Sys2Proof/Tests/Slice0.lean ====
section
/-! SUPPORT. Tests: ill-formed terms are refused, words written out from the spec decode, single steps on small states give what
95_test_vectors.md says. Each test names the vector it comes from. -/

namespace Sys2Proof.Tests

open Sys2Proof.Machine

/-! ### Well-formedness (R22) -/

theorem test_wf_refuses_encodeHeader_type_2 : (Instr.encodeHeader 2).wf = false := by decide
theorem test_wf_refuses_tryMakeSection_type_2 : (Instr.tryMakeSection 2).wf = false := by decide
theorem test_wf_refuses_makeSection_type_255 : (Instr.makeSection 255).wf = false := by decide
theorem test_wf_accepts_types_0_and_1 :
    (Instr.encodeHeader 0).wf = true ∧ (Instr.tryMakeSection 1).wf = true ∧ (Instr.makeSection 1).wf = true := by decide

/-! ### Decoding words written out from the encodings (R81, R84, R88) -/

/-- R183: `DATA 0x41, 0x42` = 00 02 00 41 42. -/
theorem test_decode_data : decode .sectionStream [0x00, 0x02, 0x00, 0x41, 0x42] = .ok (.data 2, [0x41, 0x42]) := by decide
/-- P1: a Code section of 10 bytes, 01 0A 00. -/
theorem test_decode_code : decode .sectionStream [0x01, 0x0A, 0x00] = .ok (.code 10, []) := by decide
/-- V-F4: length 258 is 02 01. -/
theorem test_decode_code_high_byte : decode .sectionStream [0x01, 0x02, 0x01] = .ok (.code 258, []) := by decide
/-- V-E12: count 4464 is 70 11. -/
theorem test_decode_deltaIter :
    decode .codePayload [0x00, 0xFA, 0x70, 0x11, 0x05] = .ok (.deltaIter 0xFA 4464 0x05, []) := by decide
theorem test_decode_compress : decode .cmdRegister [0x01, 0x00, 0x00, 0x00] = .ok (.compress 0, []) := by decide
theorem test_decode_decompress : decode .cmdRegister [0x02, 0x00, 0x00, 0x00] = .ok (.decompress 0, []) := by decide
theorem test_decode_encodeHeader : decode .cmdRegister [0x03, 0x01, 0x00, 0x00] = .ok (.encodeHeader 1, []) := by decide
theorem test_decode_tryMakeSection :
    decode .cmdRegister [0x04, 0x00, 0x00, 0x00] = .ok (.tryMakeSection 0, []) := by decide
theorem test_decode_makeSection : decode .cmdRegister [0x05, 0x01, 0x00, 0x00] = .ok (.makeSection 1, []) := by decide
theorem test_decode_readHeader : decode .cmdRegister [0x06, 0x00, 0x00, 0x00] = .ok (.readHeader 0, []) := by decide
theorem test_decode_readPayload : decode .cmdRegister [0x07, 0x00, 0x00, 0x00] = .ok (.readPayload 0, []) := by decide
theorem test_decode_merge : decode .cmdRegister [0x08, 0x00, 0x00, 0x00] = .ok (.merge 0, []) := by decide
/-- V-D12, V-D19, V-X2, V-X3: illegal type byte, tag and OPs. -/
theorem test_decode_rejects :
    decode .sectionStream [0x02, 0x00, 0x00] = .error (.unknownSectionType 2) ∧
    decode .codePayload [0x01, 0xFF, 0xFF, 0xFF, 0xFF] = .error (.unknownOpcode 1) ∧
    decode .cmdRegister [0x00, 0x00, 0x00, 0x00] = .error (.badCommand 0) ∧
    decode .cmdRegister [0x09, 0x00, 0x00, 0x00] = .error (.badCommand 9) := by decide
/-- The table's 40-bit word of W5's DeltaIter: bit 0 is the least significant bit of the tag. -/
theorem test_table_word : decodeTableWord 40 0x05000AFA00 = some (.deltaIter 0xFA 10 0x05) := by decide

/-! ### Small states -/

/-- The state a step answers. -/
def next : Host.Outcome State Fault Refusal → State
  | .next s => s
  | .fault _ => State.reset
  | .refused _ => State.reset

/-- An accepted command on the bytes of IN, all of them valid. -/
def commandState (op : Word) (bytes : List Byte) (aOff bOff pLen : Word) : State :=
  { State.reset with
    regs := { HostRegs.reset with cmd := op, status := 1 }
    latch := { cmd := op, aLen := BitVec.ofNat 32 bytes.length, aOff := aOff, bOff := bOff, pLen := pLen }
    active := .accepted
    inBuf := State.reset.inBuf.writeBytes 0 bytes }

/-- The decoder at a header at offset 0 of the bytes of IN. -/
def streamState (bytes : List Byte) : State :=
  let s := commandState 2 bytes 0 0 0
  { s with active := .decoder, dec := { s.dec with state := .readingHeader } }

/-- The decoder at an instruction of a Code payload that is all of IN from offset 3 on. -/
def payloadState (bytes : List Byte) : State :=
  let s := streamState bytes
  { s with
    dec := { s.dec with
      state := .interpretingInstructions, secType := 1, secLen := BitVec.ofNat 16 (bytes.length - 3) } }

/-- STATUS, OUT_LEN, RES_LEN, ERR_OFF and `OUT[0 .. OUT_LEN-1]`, read after a step. -/
def result (o : Host.Outcome State Fault Refusal) : Word × Word × Word × Word × List Byte :=
  let t := next o
  (t.regs.status, t.regs.outLen, t.regs.resLen, t.regs.errOff, t.outBuf.readBytes 0 t.regs.outLen.toNat)

/-- What the decoder has emitted below OPOS, and where it stands. -/
def progress (o : Host.Outcome State Fault Refusal) : DecState × Word × Half × Word × List Byte :=
  let t := next o
  (t.dec.state, t.dec.pc, t.dec.payPos, t.dec.opos, t.outBuf.readBytes 0 t.dec.opos.toNat)

/-! ### One step of each instruction -/

/-- R183. -/
theorem test_data_copies : progress (step (streamState [0x00, 0x02, 0x00, 0x41, 0x42])) =
    (.readingHeader, 5, 2, 2, [0x41, 0x42]) := by decide
/-- V-D11. -/
theorem test_data_truncated :
    result (step (streamState [0x00, 0x05, 0x00, 0x01, 0x02])) = (0x50A, 0, 0, 0, []) := by decide
/-- R184, V-D8. -/
theorem test_code_interprets :
    progress (step (streamState [0x01, 0x0A, 0x00, 0x00, 0x01, 0x03, 0x00, 0x01, 0x00, 0x09, 0x02, 0x00, 0x00])) =
      (.readingHeader, 13, 10, 5, [0x01, 0x02, 0x03, 0x09, 0x09]) := by decide
/-- V-D17. -/
theorem test_code_truncated_instruction :
    result (step (streamState [0x01, 0x07, 0x00, 0x00, 0x07, 0x03, 0x00, 0x02, 0x00, 0x00])) = (0x60A, 0, 0, 8, []) := by
  decide
/-- W5: values wrap modulo 256. -/
theorem test_deltaIter_wraps :
    progress (step (payloadState [0x01, 0x05, 0x00, 0x00, 0xFA, 0x0A, 0x00, 0x05])) =
      (.interpretingInstructions, 0, 5, 10, [0xFA, 0xFF, 0x04, 0x09, 0x0E, 0x13, 0x18, 0x1D, 0x22, 0x27]) := by decide
/-- V-D4: count 0 emits nothing. -/
theorem test_deltaIter_count_zero :
    progress (step (payloadState [0x01, 0x05, 0x00, 0x00, 0x05, 0x00, 0x00, 0x03])) =
      (.interpretingInstructions, 0, 5, 0, []) := by decide
/-- W6. -/
theorem test_compress_all_equal :
    result (step (commandState 1 [7, 7, 7, 7, 7, 7, 7, 7, 7, 7, 7, 7] 0 0 0)) =
      (2, 8, 0, 0, [0x01, 0x05, 0x00, 0x00, 0x07, 0x0C, 0x00, 0x00]) := by decide
/-- V-E8: break byte and tail, coalesced. -/
theorem test_compress_break_and_tail :
    result (step (commandState 1 [0, 1, 2, 3, 4, 5, 6, 7, 8, 9, 10, 11, 0x64, 0xC8] 0 0 0)) =
      (2, 13, 0, 0, [0x01, 0x05, 0x00, 0x00, 0x00, 0x0C, 0x00, 0x01, 0x00, 0x02, 0x00, 0x64, 0xC8]) := by decide
/-- A short form of P1: a literal, a run, an empty section. -/
theorem test_decompress_mixed :
    result (step (commandState 2 [0, 1, 0, 0x48, 1, 5, 0, 0, 0x30, 3, 0, 1, 0, 0, 0] 0 0 0)) =
      (2, 4, 0, 0, [0x48, 0x30, 0x31, 0x32]) := by decide
/-- W8. -/
theorem test_decompress_unknown_opcode :
    result (step (commandState 2 [0x01, 0x05, 0x00, 0x63, 0, 0, 0, 0] 0 0 0)) = (0x40A, 0, 0, 3, []) := by decide
/-- V-F4. -/
theorem test_encodeHeader_258 : result (step (commandState 0x103 [] 0 0 258)) = (2, 3, 0, 0, [0x01, 0x02, 0x01]) := by
  decide
/-- V-F6. -/
theorem test_encodeHeader_too_long : result (step (commandState 3 [] 0 0 65536)) = (0x10A, 0, 0, 0, []) := by decide
/-- V-F19. -/
theorem test_tryMakeSection :
    result (step (commandState 4 [0xAA, 0xBB] 0 0 2)) = (2, 5, 0, 0, [0x00, 0x02, 0x00, 0xAA, 0xBB]) := by decide
/-- V-F20. -/
theorem test_tryMakeSection_past_A_LEN :
    result (step (commandState 4 [0xAA, 0xBB] 1 0 2)) = (0x80A, 0, 0, 0, []) := by decide
/-- V-F22. -/
theorem test_makeSection :
    result (step (commandState 0x105 [0x00, 0x07, 0x0C, 0x00, 0x00] 0 0 5)) =
      (2, 8, 0, 0, [0x01, 0x05, 0x00, 0x00, 0x07, 0x0C, 0x00, 0x00]) := by decide
/-- R100: an illegal TYPE. -/
theorem test_makeSection_illegal_type : result (step (commandState 0x205 [0x00] 0 0 1)) = (0x30A, 0, 0, 0, []) := by decide
/-- V-F14. -/
theorem test_readHeader :
    result (step (commandState 6 [0, 3, 0, 0x41, 0x42, 0x43, 1, 5, 0] 6 0 0)) = (0x10002, 0, 5, 0, []) := by decide
/-- V-F17. -/
theorem test_readHeader_truncated : result (step (commandState 6 [0, 3] 0 0 0)) = (0x50A, 0, 0, 0, []) := by decide
/-- V-F16. -/
theorem test_readPayload :
    result (step (commandState 7 [0, 3, 0, 0x41, 0x42, 0x43] 0 0 0)) = (2, 3, 3, 0, [0x41, 0x42, 0x43]) := by decide
/-- V-F15. -/
theorem test_readPayload_truncated :
    result (step (commandState 7 [0, 3, 0, 0x41, 0x42, 0x43, 1, 5, 0] 6 0 0)) = (0x50A, 0, 0, 6, []) := by decide
/-- V-F7. -/
theorem test_merge :
    result (step (commandState 8 [0, 2, 0, 1, 2, 0, 1, 0, 3] 0 5 0)) = (2, 6, 6, 0, [0, 3, 0, 1, 2, 3]) := by decide
/-- V-F13. -/
theorem test_merge_type_mismatch :
    result (step (commandState 8 [0, 2, 0, 1, 2, 1, 5, 0, 0, 7, 0x0C, 0, 0] 0 5 0)) = (0x20A, 0, 0, 5, []) := by decide

/-! ### The host interface -/

/-- V-X5: CMD's bits 31:16 are reserved. -/
theorem test_cmd_reserved_bits :
    (next (step { State.reset with schedule := [.host (.writeReg 0 4 0xFFFF0102)] })).regs.cmd = 0x00000102 := by decide
/-- V-X8: offset 0x28 reads 0, after a read that did not. -/
theorem test_unmapped_register_reads_zero :
    (next (step { State.reset with rdata := 7, schedule := [.host (.readReg 0x28 4)] })).rdata = 0 := by decide
/-- V-X2 and V-X7: a START with OP 0 is accepted (STATUS reads BUSY only), then ends in BadCommand. -/
theorem test_start_with_op_zero :
    (next (step { State.reset with schedule := [.host (.writeReg 4 4 1)] })).regs.status = 1 ∧
    (next (step (next (step { State.reset with schedule := [.host (.writeReg 4 4 1)] })))).regs.status = 0x80A := by decide

/-! ### Where a placed instruction stands (log 20) -/

theorem test_withFetchWord_deltaIter :
    progress (step (State.reset.withFetchWord 40 0x0500030200)) =
      (.interpretingInstructions, 0, 5, 3, [0x02, 0x07, 0x0C]) := by decide
theorem test_withFetchWord_code : (next (step (State.reset.withFetchWord 24 0x000001))).dec.pc = 3 := by decide
theorem test_withFetchWord_compress : (next (step (State.reset.withFetchWord 32 0x00000001))).regs.status = 2 := by decide


/-! ### Witnesses: for every statement with hypotheses, states and operands that meet all of them, each clause at a boundary -/

/-- The latched operands replaced. -/
def latched (aLen aOff bOff pLen : Word) (s : State) : State :=
  { s with latch := { s.latch with aLen := aLen, aOff := aOff, bOff := bOff, pLen := pLen } }

/-- The capacities replaced. -/
def capped (inCap outCap : Word) (s : State) : State := { s with caps := { inCap := inCap, outCap := outCap } }

/-- The block's step machine moves next. -/
def ticking (s : State) : State := { s with schedule := [.tick] }

/-- The decoder with two bytes of a run of two emitted. -/
def emittingState : State :=
  let s := ticking (payloadState [0x01, 0x05, 0x00, 0x00, 0x07, 0x02, 0x00, 0x03])
  { s with
    outBuf := s.outBuf.writeBytes 0 [0x07, 0x0A]
    dec := { s.dec with
      state := .emittingRun, payPos := 5, diStart := 7, diCount := 2, diDelta := 3, diK := 2, diVal := 13, opos := 2 } }

/-- The decoder before the first byte of that run. -/
def runStartState : State :=
  { emittingState with
    outBuf := State.reset.outBuf
    dec := { emittingState.dec with diK := 0, diVal := 7, opos := 0 } }

/-- The encoder about to emit a run of 12 bytes that ends the input. -/
def encodingState : State :=
  let s := ticking (commandState 1 [7, 7, 7, 7, 7, 7, 7, 7, 7, 7, 7, 7] 0 0 0)
  { s with active := .encoder, enc := { s.enc with state := .emitCode, anchor := 0, j := 12, delta := 0, runLen := 11 } }

theorem witness_StepKeepsMemoryCanonical : MemoryInv runStartState ∧ ∃ t, step runStartState = .next t :=
  ⟨by constructor <;> decide, _, rfl⟩

theorem witness_StepKeepsStatusLegal : StatusInv emittingState ∧ ∃ t, step emittingState = .next t :=
  ⟨by constructor <;> decide, _, rfl⟩

theorem witness_StepKeepsDecoderBounds :
    (DecoderInv emittingState ∧ emittingState.active = .decoder ∧ ∃ t, step emittingState = .next t) ∧
    (DecoderInv runStartState ∧ ∃ t, step runStartState = .next t) :=
  ⟨⟨by constructor <;> decide, rfl, _, rfl⟩, by constructor <;> decide, _, rfl⟩

theorem witness_StepKeepsEncoderBounds :
    EncoderInv encodingState ∧ encodingState.active = .encoder ∧ ∃ t, step encodingState = .next t :=
  ⟨by constructor <;> decide, rfl, _, rfl⟩

/-- One state for each of the three places the block fetches at. -/
theorem witness_StepRunsTheFetchedInstruction :
    (let s := commandState 0x103 [] 0 0 0
    nextTurn s = .whole ∧ s.active = .accepted ∧
      decode .cmdRegister (numberBytes 4 s.latch.cmd.toNat) = .ok (.encodeHeader 1, [])) ∧
    (let s := streamState [0x00, 0x00, 0x00]
    nextTurn s = .whole ∧ s.active = .decoder ∧ s.dec.state = .readingHeader ∧ s.dec.pc.toNat + 3 ≤ s.n ∧
      decode .sectionStream [s.in1 0, s.in1 1, s.in1 2] = .ok (.data 0, [])) ∧
    (let s := payloadState [0x01, 0x05, 0x00, 0x00, 0x07, 0x02, 0x00, 0x03]
    nextTurn s = .whole ∧ s.active = .decoder ∧ s.dec.state = .interpretingInstructions ∧
      s.dec.payPos.toNat + 5 ≤ s.dec.secLen.toNat ∧ tagOffset s = 3 ∧
      decode .codePayload [s.in1 3, s.in1 4, s.in1 5, s.in1 6, s.in1 7] = .ok (.deltaIter 7 2 3, [])) := by decide

/-- A turn of each kind: the block's, an access the host may make, one it may not. -/
theorem witness_StepStopsOnlyOnHostViolations :
    dutifulTurn State.reset = true ∧
    dutifulTurn { State.reset with schedule := [.host (.writeIn 0xFFFFFFFE 1)] } = true ∧
    dutifulTurn { State.reset with schedule := [.host (.writeIn 0xFFFFFFFF 1)] } = false := by decide

theorem witness_IdleBlockDoesNothing :
    State.reset.active = .idle ∧ nextTurn State.reset = .whole ∧ nextTurn (ticking State.reset) = .tick := by decide

theorem witness_BlockNeverWritesInOrOperands :
    nextTurn emittingState = .tick ∧ (∃ t, step emittingState = .next t) ∧
    nextTurn (streamState [0, 1, 0, 9]) = .whole ∧ ∃ t, step (streamState [0, 1, 0, 9]) = .next t :=
  ⟨rfl, ⟨_, rfl⟩, rfl, _, rfl⟩

theorem witness_OperandWritesDoNotReachTheRunningCommand :
    nextTurn runStartState = .tick ∧ runStartState.active = .decoder ∧ ∃ t, step runStartState = .next t :=
  ⟨rfl, rfl, _, rfl⟩

/-- Two states with equal operands and IN and different OUT and units. -/
theorem witness_CommandResultDependsOnlyOnOperandsAndIn :
    let s := commandState 4 [0xAA, 0xBB] 0 0 2
    let u := { s with outBuf := s.outBuf.write 0 9, dec := { s.dec with state := .done, opos := 3 } }
    (Instr.tryMakeSection 0).level = .cmdRegister ∧ s.latch = u.latch ∧ s.caps = u.caps ∧
      (∀ a, a < s.n → s.inBuf.read a = u.inBuf.read a) ∧ (∃ t, exec (.tryMakeSection 0) s = .next t) ∧
      ∃ v, exec (.tryMakeSection 0) u = .next v :=
  ⟨rfl, rfl, rfl, fun _ _ => rfl, ⟨_, rfl⟩, _, rfl⟩

theorem witness_EveryCommandEnds :
    (Instr.compress 0).level = .cmdRegister ∧ (commandState 1 [1, 2] 0 0 0).active = .accepted := by decide

theorem witness_EncodeOfDecode :
    decode .sectionStream [0x00, 0xFF, 0xFF, 0x41] = .ok (.data 65535, [0x41]) ∧
    decode .codePayload [0x00, 0xFF, 0x00, 0x00, 0x01] = .ok (.deltaIter 0xFF 0 1, []) ∧
    decode .cmdRegister [0x08, 0xFF, 0x12, 0x34, 0x56] = .ok (.merge 0xFF, [0x56]) := by decide

theorem witness_IllegalEncodingsAreRejected :
    (2 ≤ (2 : Byte).toNat ∧ 2 ≤ (255 : Byte).toNat) ∧ (1 ≤ (1 : Byte).toNat ∧ 1 ≤ (255 : Byte).toNat) ∧
    ((0 : Byte) = 0 ∧ 9 ≤ (9 : Byte).toNat ∧ 9 ≤ (255 : Byte).toNat) := by decide

/-- The branches of R181 in order: 2 bytes left, 3 left; type 2; a payload one byte past the stream; one that just fits. -/
theorem witness_HeaderIsCheckedInOrder :
    (∀ bytes ∈ [[0x00, 0x00], [0x02, 0x00, 0x00], [0x00, 0x01, 0x00], [0x01, 0x01, 0x00, 0x00]],
      let s := streamState bytes
      s.active = .decoder ∧ s.dec.state = .readingHeader ∧ s.dec.pc.toNat < s.n ∧ nextTurn s = .whole ∧
        nextTurn (ticking s) = .tick) ∧
    (streamState [0x00, 0x00]).dec.pc.toNat + 3 > (streamState [0x00, 0x00]).n ∧
    (streamState [0x02, 0x00, 0x00]).in1 0 = 2 ∧
    0 + 3 + 1 > (streamState [0x00, 0x01, 0x00]).n ∧
    ¬ 0 + 3 + 1 > (streamState [0x01, 0x01, 0x00, 0x00]).n := by decide

/-- The branches of R184 in order: tag 1 with 1 byte left; tag 0 with 4 bytes left; tag 0 with 5 bytes left. -/
theorem witness_InstructionIsCheckedInOrder :
    ∀ bytes ∈ [[0x01, 0x01, 0x00, 0x01], [0x01, 0x04, 0x00, 0x00, 0x07, 0x02, 0x00],
        [0x01, 0x05, 0x00, 0x00, 0x07, 0x02, 0x00, 0x03]],
      let s := payloadState bytes
      DecoderInv s ∧ s.active = .decoder ∧ s.dec.state = .interpretingInstructions ∧
        s.dec.payPos.toNat < s.dec.secLen.toNat ∧ nextTurn s = .whole ∧ nextTurn (ticking s) = .tick := by
  intro bytes h
  simp only [List.mem_cons, List.not_mem_nil, or_false] at h
  rcases h with rfl | rfl | rfl
  all_goals exact ⟨by constructor <;> decide, by decide⟩

/-- The decoder copying a Data section of one byte, `done` bytes of it copied, at `opos` in an OUT of one byte. -/
def copyingState (done : Half) (opos : Word) : State :=
  let s := capped 4 1 (ticking (streamState [0x00, 0x01, 0x00, 0x41]))
  { s with dec := { s.dec with state := .copyingLiteral, secLen := 1, payPos := done, opos := opos } }

/-- The decoder at the first byte of a run, in an OUT of two bytes that is full. -/
def fullRunState : State := capped 8 2 { runStartState with dec := { runStartState.dec with opos := 2 } }

/-- Each row of the table that R188 gives a state and a condition, and both outcomes of a row that writes OUT. -/
theorem witness_DecoderTicksFollowTheTable :
    (∀ s ∈ [ticking (streamState []), copyingState 0 0, copyingState 0 1, copyingState 1 1, emittingState,
        runStartState, fullRunState], s.active = .decoder ∧ nextTurn s = .tick) ∧
    (ticking (streamState [])).dec.pc.toNat = (ticking (streamState [])).n ∧
    (copyingState 0 0).dec.payPos.toNat < (copyingState 0 0).dec.secLen.toNat ∧
    (copyingState 0 0).dec.opos.toNat < (copyingState 0 0).caps.outCap.toNat ∧
    ¬ (copyingState 0 1).dec.opos.toNat < (copyingState 0 1).caps.outCap.toNat ∧
    (copyingState 1 1).dec.payPos = (copyingState 1 1).dec.secLen ∧
    emittingState.dec.diK = emittingState.dec.diCount ∧
    runStartState.dec.diK.toNat < runStartState.dec.diCount.toNat ∧
    runStartState.dec.opos.toNat < runStartState.caps.outCap.toNat ∧
    ¬ fullRunState.dec.opos.toNat < fullRunState.caps.outCap.toNat := by decide

theorem witness_DecoderTicksFollowTheTable_done :
    let s := { ticking (streamState []) with dec := { (streamState []).dec with state := .done } }
    DecoderInv s ∧ s.dec.state = .done ∧ s.active = .decoder ∧ nextTurn s = .tick :=
  ⟨by constructor <;> decide, rfl, rfl, rfl⟩

theorem witness_RunValueIsTheClosedForm :
    let s := runStartState
    s.active = .decoder ∧ s.dec.state = .emittingRun ∧ s.dec.diK = 0 ∧ s.dec.diVal = s.dec.diStart ∧
      2 ≤ s.dec.diCount.toNat ∧ s.dec.opos.toNat + 2 ≤ s.caps.outCap.toNat := by decide

/-- One state at each of the three instructions. -/
theorem witness_WholeStreamInstructionIsItsTicks :
    (let s := streamState [0x00, 0x01, 0x00, 0x41]
    s.active = .decoder ∧ fetch s = .ok (some (.data 1)) ∧ ∃ t, exec (.data 1) s = .next t) ∧
    (let s := streamState [0x01, 0x05, 0x00, 0x00, 0x07, 0x02, 0x00, 0x03]
    s.active = .decoder ∧ fetch s = .ok (some (.code 5)) ∧ ∃ t, exec (.code 5) s = .next t) ∧
    (let s := payloadState [0x01, 0x05, 0x00, 0x00, 0x07, 0x02, 0x00, 0x03]
    s.active = .decoder ∧ fetch s = .ok (some (.deltaIter 7 2 3)) ∧ ∃ t, exec (.deltaIter 7 2 3) s = .next t) :=
  ⟨⟨rfl, by decide, _, rfl⟩, ⟨rfl, by decide, _, rfl⟩, rfl, by decide, _, rfl⟩

theorem witness_DecompressIsItsTicks :
    let s := commandState 2 [0x00, 0x01, 0x00, 0x41] 0 0 0
    s.active = .accepted ∧ cmdOp s.latch.cmd = 0x02 ∧ ∃ t, exec (.decompress 0) s = .next t :=
  ⟨rfl, by decide, _, rfl⟩

/-- OUT just large enough for the stream's one byte. -/
theorem witness_DecoderTakesTheTablesSteps :
    let s := capped 4 1 (commandState 2 [0x00, 0x01, 0x00, 0x41] 0 0 0)
    s.active = .accepted ∧ cmdOp s.latch.cmd = 0x02 ∧ s.n ≤ s.caps.inCap.toNat ∧
      streamResult s.n 0 s.input = ([0x41], none) ∧ [(0x41 : Byte)].length ≤ s.caps.outCap.toNat := by decide

/-- The branches of DATA: a payload one byte past the stream, one past OUT, one that just fits both. -/
theorem witness_DataCopiesItsPayload :
    (let s := streamState [0x00, 0x01, 0x00]
    s.dec.pc.toNat + 3 + (1 : Half).toNat > s.n) ∧
    (let s := capped 5 1 (streamState [0x00, 0x02, 0x00, 0x41, 0x42])
    ¬ s.dec.pc.toNat + 3 + (2 : Half).toNat > s.n ∧ s.dec.opos.toNat + (2 : Half).toNat > s.caps.outCap.toNat) ∧
    (let s := capped 4 1 (streamState [0x00, 0x01, 0x00, 0x41])
    ¬ s.dec.pc.toNat + 3 + (1 : Half).toNat > s.n ∧ ¬ s.dec.opos.toNat + (1 : Half).toNat > s.caps.outCap.toNat) := by
  decide

/-- The branches of CODE: a payload past the stream, a run past OUT, tag 1, an instruction cut short, a whole run. -/
theorem witness_CodeInterpretsItsPayload :
    (streamState [0x01, 0x01, 0x00]).n < 0 + 3 + (1 : Half).toNat ∧
    codeResult 3 [0x00, 0x07, 0x02, 0x00, 0x03] = ([0x07, 0x0A], none) ∧
    (capped 8 1 (streamState [0x01, 0x05, 0x00, 0x00, 0x07, 0x02, 0x00, 0x03])).caps.outCap.toNat < 0 + 2 ∧
    codeResult 3 [0x01] = ([], some { kind := .unknownOpcode, off := 3 }) ∧
    codeResult 3 [0x00, 0x07, 0x02, 0x00] = ([], some { kind := .truncatedInstruction, off := 3 }) := by decide

/-- The branches of ENCODE_HEADER: TYPE 2, 65536 bytes, OUT of 2 bytes, 65535 bytes. -/
theorem witness_EncodeHeaderWritesTheHeader :
    (let s := commandState 0x203 [] 0 0 0
    s.n ≤ s.caps.inCap.toNat ∧ (2 : Byte) ≠ 0 ∧ (2 : Byte) ≠ 1) ∧
    (let s := commandState 3 [] 0 0 65536
    s.n ≤ s.caps.inCap.toNat ∧ s.pLen > 65535) ∧
    (let s := capped 1 2 (commandState 3 [] 0 0 65535)
    s.n ≤ s.caps.inCap.toNat ∧ ¬ s.pLen > 65535 ∧ s.caps.outCap.toNat < 3) ∧
    (let s := capped 1 3 (commandState 3 [] 0 0 65535)
    s.n ≤ s.caps.inCap.toNat ∧ ¬ s.pLen > 65535 ∧ ¬ s.caps.outCap.toNat < 3) := by decide

/-- The branches of TRY_MAKE_SECTION and MAKE_SECTION: a payload one byte past A_LEN, 65536 bytes, OUT one byte short, 65535 bytes. -/
theorem witness_TryMakeSectionWritesTheSectionOrFails :
    (let s := latched 2 1 0 2 (commandState 4 [] 0 0 0)
    s.n ≤ s.caps.inCap.toNat ∧ s.aOff + s.pLen > s.n) ∧
    (let s := latched 65536 0 0 65536 (commandState 4 [] 0 0 0)
    s.n ≤ s.caps.inCap.toNat ∧ ¬ s.aOff + s.pLen > s.n ∧ s.pLen > 65535) ∧
    (let s := capped 65535 65537 (latched 65535 0 0 65535 (commandState 4 [] 0 0 0))
    s.n ≤ s.caps.inCap.toNat ∧ ¬ s.aOff + s.pLen > s.n ∧ ¬ s.pLen > 65535 ∧ 3 + s.pLen > s.caps.outCap.toNat) ∧
    (let s := capped 65535 65538 (latched 65535 0 0 65535 (commandState 4 [] 0 0 0))
    s.n ≤ s.caps.inCap.toNat ∧ ¬ s.aOff + s.pLen > s.n ∧ ¬ s.pLen > 65535 ∧ ¬ 3 + s.pLen > s.caps.outCap.toNat) := by
  decide

theorem witness_MakeSectionWritesTheSectionOrIsFatal :
    (let s := latched 65536 0 0 65536 (commandState 5 [] 0 0 0)
    s.n ≤ s.caps.inCap.toNat ∧ ¬ s.aOff + s.pLen > s.n ∧ s.pLen > 65535) ∧
    (let s := capped 65535 65538 (latched 65535 0 0 65535 (commandState 5 [] 0 0 0))
    s.n ≤ s.caps.inCap.toNat ∧ ¬ s.aOff + s.pLen > s.n ∧ ¬ s.pLen > 65535 ∧ ¬ 3 + s.pLen > s.caps.outCap.toNat) := by
  decide

/-- The branches of READ_HEADER: 2 bytes left, type 2, a header that just fits. -/
theorem witness_ReadHeaderReportsTypeAndLength :
    (let s := commandState 6 [0, 0, 1] 1 0 0
    s.n ≤ s.caps.inCap.toNat ∧ s.aOff + 3 > s.n) ∧
    (let s := commandState 6 [0, 2, 0, 0] 1 0 0
    s.n ≤ s.caps.inCap.toNat ∧ ¬ s.aOff + 3 > s.n ∧ s.in1 s.aOff ≠ 0 ∧ s.in1 s.aOff ≠ 1) ∧
    (let s := commandState 6 [0, 1, 0xFF, 0xFF] 1 0 0
    s.n ≤ s.caps.inCap.toNat ∧ ¬ s.aOff + 3 > s.n ∧ s.in1 s.aOff = 1) := by decide

/-- The later branches of READ_PAYLOAD: a payload one byte past A_LEN, one past OUT, one that just fits both. -/
theorem witness_ReadPayloadCopiesThePayload :
    (let s := commandState 7 [0, 2, 0, 9] 0 0 0
    s.n ≤ s.caps.inCap.toNat ∧ s.in1 0 = 0 ∧ s.aOff + 3 + 2 > s.n) ∧
    (let s := capped 5 1 (commandState 7 [0, 2, 0, 9, 8] 0 0 0)
    s.n ≤ s.caps.inCap.toNat ∧ s.in1 0 = 0 ∧ ¬ s.aOff + 3 + 2 > s.n ∧ 2 > s.caps.outCap.toNat) ∧
    (let s := capped 5 2 (commandState 7 [0, 2, 0, 9, 8] 0 0 0)
    s.n ≤ s.caps.inCap.toNat ∧ s.in1 0 = 0 ∧ ¬ s.aOff + 3 + 2 > s.n ∧ ¬ 2 > s.caps.outCap.toNat) := by decide

/-- The branches of MERGE: a fault of A, a fault of B, two types, and two sections of one type. -/
theorem witness_MergeWritesMergedThenOverflow :
    (∀ s ∈ [commandState 8 [2, 0, 0, 0, 0, 0] 0 3 0, commandState 8 [0, 0, 0, 0, 0] 0 3 0,
        commandState 8 [0, 0, 0, 1, 0, 0] 0 3 0, commandState 8 [0, 2, 0, 1, 2, 0, 1, 0, 3] 0 5 0],
      s.n ≤ s.caps.inCap.toNat) ∧
    readSection (commandState 8 [2, 0, 0, 0, 0, 0] 0 3 0) 0 = .error { kind := .unknownSectionType, off := 0 } ∧
    readSection (commandState 8 [0, 0, 0, 0, 0] 0 3 0) 3 = .error { kind := .truncatedStream, off := 3 } ∧
    readSection (commandState 8 [0, 0, 0, 1, 0, 0] 0 3 0) 3 = .ok { type := .code, payload := [] } ∧
    readSection (commandState 8 [0, 2, 0, 1, 2, 0, 1, 0, 3] 0 5 0) 0 = .ok { type := .data, payload := [1, 2] } ∧
    readSection (commandState 8 [0, 2, 0, 1, 2, 0, 1, 0, 3] 0 5 0) 5 = .ok { type := .data, payload := [3] } := by decide

/-- The clauses of the merge laws: two types; one type; A full and B not empty; B empty. -/
theorem witness_MergeLaws :
    (let a : Section := { type := .data, payload := [] }
    let b : Section := { type := .code, payload := [] }
    a.payload.length ≤ 65535 ∧ b.payload.length ≤ 65535 ∧ a.type ≠ b.type) ∧
    (let a : Section := { type := .code, payload := List.replicate 65535 0 }
    let b : Section := { type := .code, payload := [0, 0, 0, 0, 0] }
    a.payload.length ≤ 65535 ∧ b.payload.length ≤ 65535 ∧ a.type = b.type ∧ a.payload.length = 65535 ∧ b.payload ≠ [] ∧
      a.payload.length % 5 = 0 ∧ b.payload.length % 5 = 0) ∧
    (let a : Section := { type := .data, payload := [1] }
    let b : Section := { type := .data, payload := [] }
    a.type = b.type ∧ b.payload = []) := by
  simp only [List.length_replicate]
  decide

theorem witness_DetectRunIsMaximal :
    0 + 1 < [(1 : Byte), 2].length ∧ 1 + 1 < [(1 : Byte), 2, 3, 9].length := by decide

/-- A run of two Data sections before a Code section; and two adjacent output sections of one type. -/
theorem witness_CoalescingLaw :
    (let run : List Section := [{ type := .data, payload := [] }, { type := .data, payload := [1] }]
    run ≠ [] ∧ (∀ x ∈ run, x.type = SecType.data ∧ x.payload.length ≤ 65535)) ∧
    (∀ y : Section, [({ type := .code, payload := [] } : Section)].head? = some y → y.type ≠ SecType.data) := by
  refine ⟨by decide, ?_⟩
  intro y h
  cases h
  decide

theorem witness_CoalescingLaw_full :
    let x : Section := { type := .data, payload := List.replicate 65535 0 }
    let y : Section := { type := .data, payload := [1] }
    (∀ z ∈ [x, y], z.payload.length ≤ 65535) ∧ (coalesce [x, y])[0]? = some x ∧ (coalesce [x, y])[1]? = some y ∧
      x.type = y.type := by
  intro x y
  have hl : x.payload.length = 65535 := List.length_replicate
  have hm : mergeSame x y = (x, some y) := by
    unfold mergeSame
    rw [if_neg (by rw [hl]; decide), hl]
    show (({ type := x.type, payload := x.payload ++ [] } : Section), some ({ type := x.type, payload := y.payload } : Section)) = _
    rw [List.append_nil]
  have general : ∀ x y : Section, y.type = x.type → mergeSame x y = (x, some y) → coalesce [x, y] = [x, y] := by
    intro x y ht hm
    simp only [coalesce, coalesceFrom, ht, if_true, hm]
  have hc : coalesce [x, y] = [x, y] := general x y rfl hm
  refine ⟨?_, by rw [hc]; rfl, by rw [hc]; rfl, rfl⟩
  intro z hz
  simp only [List.mem_cons, List.not_mem_nil, or_false] at hz
  rcases hz with rfl | rfl
  · rw [hl]
  · decide

theorem witness_OutputCodeSectionsHoldOneDeltaIter :
    ∃ x ∈ coalesce (scan [7, 7, 7, 7, 7, 7, 7, 7, 7, 7, 7, 7]), x.type = .code :=
  ⟨{ type := .code, payload := [0, 7, 12, 0, 0] }, by decide, rfl⟩

theorem witness_RawListShape :
    let b : List Byte := [7, 7, 7, 7, 7, 7, 7, 7, 7, 7, 7, 7, 9]
    (scan b)[0]? = some { type := .code, payload := [0, 7, 12, 0, 0] } ∧
      (scan b)[1]? = some { type := .data, payload := [9] } := by decide

theorem witness_CompressIsItsTicks :
    let s := commandState 1 [1, 2] 0 0 0
    s.active = .accepted ∧ cmdOp s.latch.cmd = 0x01 ∧ ∃ t, exec (.compress 0) s = .next t :=
  ⟨rfl, by decide, _, rfl⟩

/-- The state after compressing two bytes, and one that holds its stream in IN with OUT just large enough. -/
theorem witness_CompressThenDecompressIsTheInput :
    let s := commandState 1 [1, 2] 0 0 0
    let t := next (exec (.compress 0) s)
    let u := capped 5 2 (commandState 2 [0x00, 0x02, 0x00, 0x01, 0x02] 0 0 0)
    exec (.compress 0) s = .next t ∧ fatalBit t.regs.status = false ∧ u.latch.aLen = t.regs.outLen ∧
      u.n ≤ u.caps.inCap.toNat ∧ s.n ≤ u.caps.outCap.toNat ∧ ∀ a, a < u.n → u.inBuf.read a = t.outBuf.read a :=
  ⟨rfl, by decide, by decide, by decide, by decide, by decide⟩

/-- A write of START with BUSY = 0, with BUSY = 1, and a write of 0. -/
theorem witness_StartIsAcceptedOnlyWhenIdle :
    ((1 : Word).getLsbD 0 = true ∧ busyBit State.reset.regs.status = false) ∧ busyBit emittingState.regs.status = true ∧
    (0xFFFFFFFE : Word).getLsbD 0 = false := by decide

/-- OP 0, OP 9, and A_LEN one above IN_CAP. -/
theorem witness_StartChecksEndInBadCommand :
    (∀ s ∈ [commandState 0 [] 0 0 0, commandState 9 [] 0 0 0, capped 1 1 (commandState 1 [1, 2] 0 0 0)],
      s.active = .accepted ∧ nextTurn s = .whole ∧ nextTurn (ticking s) = .tick) ∧
    cmdOp (commandState 0 [] 0 0 0).latch.cmd = 0 ∧ 9 ≤ (cmdOp (commandState 9 [] 0 0 0).latch.cmd).toNat ∧
    (capped 1 1 (commandState 1 [1, 2] 0 0 0)).n > (capped 1 1 (commandState 1 [1, 2] 0 0 0)).caps.inCap.toNat := by decide

theorem witness_RegisterReads : 0x24 % 4 = 0 ∧ 0x28 % 4 = 0 ∧ 0x04 % 4 = 0 := by decide

theorem witness_RegisterWrites :
    (0x08 % 4 = 0) ∧ (0x1C % 4 = 0 ∧ 0x1C ≤ 0x1C) ∧ (0x28 % 4 = 0 ∧ 0x1C ≤ 0x28) := by decide

/-- A sub-word access, a misaligned one; a write of the last byte of IN while a command runs. -/
theorem witness_HostViolationsAreRefused :
    ((2 : Nat) ≠ 4 ∨ 0x08 % 4 ≠ 0) ∧ ((4 : Nat) ≠ 4 ∨ 0x09 % 4 ≠ 0) ∧
    0xFFFFFFFE < emittingState.caps.inCap.toNat ∧ busyBit emittingState.regs.status = true := by decide

theorem witness_HostBufferAccesses :
    0xFFFFFFFE < State.reset.caps.inCap.toNat ∧ 0xFFFFFFFE < State.reset.caps.outCap.toNat ∧
    busyBit State.reset.regs.status = false := by decide

theorem witness_OutReadWhileBusyIsUnspecified :
    0xFFFFFFFE < emittingState.caps.outCap.toNat ∧ busyBit emittingState.regs.status = true := by decide

/-- The branches of DELTAITER: no byte in a full OUT, one byte past OUT, one that just fits. -/
theorem witness_DeltaIterEmitsItsRun :
    ¬ (0 : Half) ≠ 0 ∧ fullRunState.dec.opos.toNat + (1 : Half).toNat > fullRunState.caps.outCap.toNat ∧
    ¬ (capped 8 2 runStartState).dec.opos.toNat + (2 : Half).toNat > (capped 8 2 runStartState).caps.outCap.toNat := by
  decide

/-- The branches of DECOMPRESS: A_LEN above IN_CAP, one byte past OUT, a stream that ends in an error, one that does not. -/
theorem witness_DecompressMeetsTheStreamsMeaning :
    (capped 3 1 (commandState 2 [0, 1, 0, 9] 0 0 0)).n > (capped 3 1 (commandState 2 [0, 1, 0, 9] 0 0 0)).caps.inCap.toNat ∧
    (let s := capped 5 1 (commandState 2 [0, 2, 0, 9, 8] 0 0 0)
    ¬ s.n > s.caps.inCap.toNat ∧ (streamResult s.n 0 s.input).1.length > s.caps.outCap.toNat) ∧
    (let s := capped 5 1 (commandState 2 [0, 1, 0, 9, 7] 0 0 0)
    ¬ s.n > s.caps.inCap.toNat ∧
      streamResult s.n 0 s.input = ([9], some { kind := .truncatedStream, off := 4 })) ∧
    (let s := capped 4 1 (commandState 2 [0, 1, 0, 9] 0 0 0)
    ¬ s.n > s.caps.inCap.toNat ∧ streamResult s.n 0 s.input = ([9], none)) := by decide

/-- The branches of COMPRESS: A_LEN above IN_CAP, a stream one byte past OUT, one that just fits. -/
theorem witness_CompressWritesTheStream :
    (capped 1 9 (commandState 1 [1, 2] 0 0 0)).n > 1 ∧
    (streamBytes (coalesce (scan [1, 2]))).length > (capped 2 4 (commandState 1 [1, 2] 0 0 0)).caps.outCap.toNat ∧
    ¬ (streamBytes (coalesce (scan [1, 2]))).length > (capped 2 5 (commandState 1 [1, 2] 0 0 0)).caps.outCap.toNat := by
  decide

/-- The clauses of the scan loop on 13 bytes: a run of 12 from anchor 0 with a break byte; one that ends the input; a literal from
anchor 11; the last byte; the end. -/
theorem witness_RawListFollowsTheLoop :
    (let b : List Byte := [7, 7, 7, 7, 7, 7, 7, 7, 7, 7, 7, 7, 9]
    2 ≤ b.length ∧ 0 + 1 < b.length ∧ detectRun b 0 = (0, 12) ∧ 12 - 0 - 1 > 10 ∧ 12 < b.length ∧
      11 + 1 < b.length ∧ detectRun b 11 = (2, 13) ∧ ¬ 13 - 11 - 1 > 10 ∧ 12 + 1 = b.length ∧ b.length ≤ 13) ∧
    (let b : List Byte := [7, 7, 7, 7, 7, 7, 7, 7, 7, 7, 7, 7]
    0 + 1 < b.length ∧ detectRun b 0 = (0, 12) ∧ ¬ 12 < b.length) ∧
    [(7 : Byte)].length < 2 := by decide

/-- The encoder in a state, at an anchor and `j` in 13 bytes of which the first 12 are a run. -/
def scanningState (state : EncState) (anchor j : Word) : State :=
  let s := ticking (commandState 1 [7, 7, 7, 7, 7, 7, 7, 7, 7, 7, 7, 7, 9] 0 0 0)
  { s with active := .encoder, enc := { s.enc with state := state, anchor := anchor, j := j, runLen := j - anchor - 1 } }

/-- Each row before Flush: Detect with two bytes left, with one, with none; EmitCode before a break byte and at the end; the rest. -/
theorem witness_EncoderTicksFollowTheOrder :
    (let s := ticking (commandState 1 [1, 2] 0 0 0)
    s.active = .accepted ∧ cmdOp s.latch.cmd = 0x01 ∧ s.n ≤ s.caps.inCap.toNat ∧ nextTurn s = .tick) ∧
    (∀ s ∈ [scanningState .detect 11 0, scanningState .detect 12 0, scanningState .detect 13 0,
        scanningState .emitCode 0 12, encodingState, scanningState .emitBreak 0 12, scanningState .emitLiteral 11 13,
        scanningState .emitTail 12 0], s.active = .encoder ∧ nextTurn s = .tick) ∧
    (scanningState .detect 11 0).enc.anchor.toNat + 1 < (scanningState .detect 11 0).n ∧
    (scanningState .detect 12 0).enc.anchor.toNat + 1 = (scanningState .detect 12 0).n ∧
    (scanningState .detect 13 0).n ≤ (scanningState .detect 13 0).enc.anchor.toNat ∧
    (scanningState .emitCode 0 12).enc.j.toNat < (scanningState .emitCode 0 12).n ∧
    ¬ encodingState.enc.j.toNat < encodingState.n := by decide

/-- The encoder in Flush or Done with the given lists and accumulator, and an OUT of 5 bytes. -/
def flushingState (state : EncState) (raw outs : List Section) (acc : AccRegs) : State :=
  let s := capped 13 5 (scanningState state 13 13)
  { s with enc := { s.enc with raw := raw, outs := outs }, acc := acc }

/-- Each row of Flush: no accumulator, one of another type, one of the same type; the last accumulator; a stream that fits OUT and one
that does not; and Done. -/
theorem witness_FlushTicksFoldAndWrite :
    let x : Section := { type := .data, payload := [9] }
    let empty : AccRegs := { valid := false, type := 0, data := [], len := 0 }
    let code : AccRegs := { valid := true, type := 1, data := [0, 7, 12, 0, 0], len := 5 }
    let data : AccRegs := { valid := true, type := 0, data := [7], len := 1 }
    ∀ s ∈ [flushingState .flush [x] [] empty, flushingState .flush [x] [] code, flushingState .flush [x] [] data,
        flushingState .flush [] [] data, flushingState .flush [] [x] empty, flushingState .flush [] [x, x] empty,
        { flushingState .done [] [x] empty with outBuf := State.reset.outBuf.writeBytes 0 [0, 1, 0, 9] }],
      EncoderInv s ∧ s.active = .encoder ∧ nextTurn s = .tick := by
  intro x empty code data s h
  simp only [List.mem_cons, List.not_mem_nil, or_false] at h
  rcases h with rfl | rfl | rfl | rfl | rfl | rfl | rfl
  all_goals exact ⟨by constructor <;> decide, rfl, rfl⟩

/-- The merge of a full accumulator overflows: the clause past 65535 bytes. -/
theorem witness_FlushTicksFoldAndWrite_overflow :
    let full : AccRegs := { valid := true, type := 0, data := List.replicate 65535 0, len := 65535 }
    let s := flushingState .flush [{ type := .data, payload := [9] }] [] full
    EncoderInv s ∧ s.acc.valid = true ∧ ¬ (s.acc.data ++ [9]).length ≤ 65535 := by
  intro full s
  refine ⟨⟨by decide, by decide, by decide, by decide, by decide, by decide, by decide, by decide, ?_, ?_⟩, rfl, ?_⟩
  · intro _ _
    exact ⟨(List.length_replicate (n := 65535)).symm, by decide⟩
  · intro _ h
    exact absurd h (by decide)
  · show ¬ (List.replicate 65535 (0 : Byte) ++ [9]).length ≤ 65535
    rw [List.length_append, List.length_replicate]
    decide

end Sys2Proof.Tests
end

section
/-! PROOFS. On the block's whole turn a step is `exec` of the fetched instruction (00_scope.md R14): a step rests on `fetch` alone,
`fetch` on the fetch of the place the block stands at, and that fetch on the bytes there. -/

namespace Sys2Proof.Machine

/-! ### From a step to its fetch -/

theorem blockWhole_of_fetch {s : State} {i : Instr} (h : fetch s = .ok (some i)) : blockWhole s = exec i s := by
  simp only [blockWhole, h]

theorem step_of_whole {s : State} (ht : nextTurn s = .whole) : step s = blockWhole (dropTurn s) := by
  simp only [step, ht, takeTurn]

/-- A fetch does not look at the schedule (log 4). -/
@[simp] theorem fetch_dropTurn (s : State) : fetch (dropTurn s) = fetch s := rfl

theorem step_of_fetch {s : State} {i : Instr} (ht : nextTurn s = .whole) (hf : fetch s = .ok (some i)) :
    step s = exec i (dropTurn s) := by
  rw [step_of_whole ht, blockWhole_of_fetch (by rwa [fetch_dropTurn])]

/-! ### Where the block fetches (R88, R181, R184) -/

theorem fetch_of_accepted {s : State} (ha : s.active = .accepted) : fetch s = (fetchCommand s).map some := by
  simp only [fetch, ha]

theorem fetch_of_readingHeader {s : State} (ha : s.active = .decoder) (hs : s.dec.state = .readingHeader)
    (hpc : s.dec.pc.toNat < s.n) : fetch s = (fetchSection s).map some := by
  simp only [fetch, ha, hs, if_pos hpc]

theorem fetch_of_interpreting {s : State} (ha : s.active = .decoder) (hs : s.dec.state = .interpretingInstructions)
    (hp : s.dec.payPos.toNat < s.dec.secLen.toNat) : fetch s = (fetchInstruction s).map some := by
  simp only [fetch, ha, hs, if_pos hp]

/-! ### What the fetches read -/

theorem fetchCommand_of_decode {s : State} {i : Instr} {rest : List Byte}
    (hd : decode .cmdRegister (commandWord s) = .ok (i, rest)) : fetchCommand s = .ok i := by
  simp only [fetchCommand, hd]

/-- A header whose 3 bytes fit is decoded from just those bytes (R181). -/
theorem fetchSection_of_decode {s : State} {i : Instr} {rest : List Byte} (hfit : s.dec.pc.toNat + 3 ≤ s.n)
    (hd : decode .sectionStream (s.inBytes s.dec.pc.toNat 3) = .ok (i, rest)) : fetchSection s = .ok i := by
  have hlen : min Config.headerLen (s.n - s.dec.pc.toNat) = 3 := Nat.min_eq_left (Nat.le_sub_of_add_le' hfit)
  simp only [fetchSection, hlen, hd]

/-- An instruction with 5 payload bytes left is decoded from just those bytes (R184). -/
theorem fetchInstruction_of_decode {s : State} {i : Instr} {rest : List Byte}
    (hfit : s.dec.payPos.toNat + 5 ≤ s.dec.secLen.toNat)
    (hd : decode .codePayload (s.inBytes (tagOffset s) 5) = .ok (i, rest)) : fetchInstruction s = .ok i := by
  have hlen : min Config.instrLen (s.dec.secLen.toNat - s.dec.payPos.toNat) = 5 :=
    Nat.min_eq_left (Nat.le_sub_of_add_le' hfit)
  simp only [fetchInstruction, hlen, hd]

/-- Settles O7: at each of the three places the bytes decide the place's fetch, the fetch of the place is the block's, and the block's
fetch decides the step. -/
theorem stepRunsTheFetchedInstruction : Obligations.StepRunsTheFetchedInstruction := by
  refine ⟨fun s i rest ht ha hd => ?command, fun s i rest ht ha hs hfit hd => ?header,
    fun s i rest ht ha hs hfit hd => ?instruction⟩
  case command =>
    apply step_of_fetch ht
    rw [fetch_of_accepted ha, fetchCommand_of_decode hd]
    rfl
  case header =>
    have hpc : s.dec.pc.toNat < s.n := by omega
    apply step_of_fetch ht
    rw [fetch_of_readingHeader ha hs hpc, fetchSection_of_decode hfit hd]
    rfl
  case instruction =>
    have hp : s.dec.payPos.toNat < s.dec.secLen.toNat := by omega
    apply step_of_fetch ht
    rw [fetch_of_interpreting ha hs hp, fetchInstruction_of_decode hfit hd]
    rfl

end Sys2Proof.Machine
end

section
/-! PROOFS. The induction over everything the block runs, packaged once: a predicate that the few primitive updates of the state keep
is kept by every meaning, by every tick of a unit and by the block's turns. -/

namespace Sys2Proof.Machine

/-! ### The errors the block raises -/

/-- CapacityExceeded and BadCommand carry the offset 0 (R31, R61, R211). -/
def FatalErr.Legal (e : FatalErr) : Prop := e.kind = .capacityExceeded ∨ e.kind = .badCommand → e.off = 0

theorem FatalErr.Legal.of_zero (kind : ErrKind) : FatalErr.Legal { kind := kind, off := 0 } := fun _ => rfl

theorem FatalErr.Legal.of_kind {e : FatalErr} (hc : e.kind ≠ .capacityExceeded) (hb : e.kind ≠ .badCommand) : e.Legal :=
  fun h => h.elim (absurd · hc) (absurd · hb)

/-- What a command's outcome may report: RES_TYPE 0 or 1 (R24), or an error it may raise. -/
def CmdOutcome.Legal : CmdOutcome → Prop
  | .ok _ _ resType _ => resType.toNat ≤ 1
  | .fail => True
  | .fatal e => e.Legal

theorem tagByte_le (y : SecType) : (tagByte y).toNat ≤ 1 := by cases y <;> decide

theorem fetchSection_error_legal {s : State} {e : FatalErr} (h : fetchSection s = .error e) : e.Legal := by
  rcases fetchSection_cases s with ⟨-, hf⟩ | ⟨-, ⟨-, -, hf⟩ | ⟨-, hf⟩ | ⟨-, hf⟩⟩ <;> rw [hf] at h <;> cases h
  all_goals exact .of_kind (by simp) (by simp)

theorem fetchInstruction_error_legal {s : State} {e : FatalErr} (hlt : s.dec.payPos.toNat < s.dec.secLen.toNat)
    (h : fetchInstruction s = .error e) : e.Legal := by
  rcases fetchInstruction_cases s hlt with ⟨-, hf⟩ | ⟨-, ⟨-, hf⟩ | ⟨-, hf⟩⟩ <;> rw [hf] at h <;> cases h
  all_goals exact .of_kind (by simp) (by simp)

theorem fetchCommand_error {s : State} {e : FatalErr} (h : fetchCommand s = .error e) :
    e = { kind := .badCommand, off := 0 } := by
  rcases fetchCommand_cases s with ⟨-, hf⟩ | ⟨-, -, i, hf, -⟩ <;> rw [hf] at h <;> cases h
  rfl

theorem startError_legal {s : State} {e : FatalErr} (h : startError s = some e) : e.Legal := by
  unfold startError at h
  split at h <;> cases h
  exact .of_zero _

/-! ### What a fetch of the block finds -/

/-- What the fetch of a running decoder can find: nothing but between instructions, a header in ReadingHeader, an instruction in
InterpretingInstructions. -/
theorem fetch_decoder_cases {s : State} (ha : s.active = .decoder) :
    fetch s = .ok none ∨
    (s.dec.state = .readingHeader ∧ s.dec.pc.toNat < s.n ∧ fetch s = (fetchSection s).map some) ∨
    (s.dec.state = .interpretingInstructions ∧ s.dec.payPos.toNat < s.dec.secLen.toNat ∧
      fetch s = (fetchInstruction s).map some) := by
  cases hs : s.dec.state
  case readingHeader =>
    by_cases hlt : s.dec.pc.toNat < s.n
    · exact .inr (.inl ⟨rfl, hlt, fetch_of_readingHeader ha hs hlt⟩)
    · exact .inl (by simp only [fetch, ha, hs, if_neg hlt])
  case interpretingInstructions =>
    by_cases hlt : s.dec.payPos.toNat < s.dec.secLen.toNat
    · exact .inr (.inr ⟨rfl, hlt, fetch_of_interpreting ha hs hlt⟩)
    · exact .inl (by simp only [fetch, ha, hs, if_neg hlt])
  all_goals exact .inl (by simp only [fetch, ha, hs])

theorem map_some_eq_error {r : Except FatalErr Instr} {e : FatalErr} (h : r.map some = .error e) : r = .error e := by
  cases r <;> simp_all [Except.map]

theorem fetch_error_legal {s : State} {e : FatalErr} (h : fetch s = .error e) : e.Legal := by
  cases ha : s.active
  case accepted =>
    rw [fetch_of_accepted ha] at h
    rw [fetchCommand_error (map_some_eq_error h)]
    exact .of_zero _
  case decoder =>
    rcases fetch_decoder_cases ha with hf | ⟨-, -, hf⟩ | ⟨-, hlt, hf⟩ <;> rw [hf] at h
    · cases h
    · exact fetchSection_error_legal (map_some_eq_error h)
    · exact fetchInstruction_error_legal hlt (map_some_eq_error h)
  all_goals simp [fetch, ha] at h

/-! ### The outcomes of the framer's commands are legal -/

theorem readHeader_cases (s : State) (off : Nat) :
    (∃ kind, kind ≠ .capacityExceeded ∧ kind ≠ .badCommand ∧ readHeader s off = .error { kind := kind, off := off }) ∨
    (off + 3 ≤ s.n ∧ ∃ y, readHeader s off = .ok (y, (s.in2 (off + 1)).toNat)) := by
  unfold readHeader Config.headerLen
  split
  · exact .inl ⟨.truncatedStream, by simp, by simp, rfl⟩
  · split
    · exact .inl ⟨.unknownSectionType, by simp, by simp, rfl⟩
    · exact .inr ⟨by omega, _, rfl⟩

theorem readSection_error_legal {s : State} {off : Nat} {e : FatalErr} (h : readSection s off = .error e) : e.Legal := by
  rcases readHeader_cases s off with ⟨kind, hc, hb, hr⟩ | ⟨-, y, hr⟩ <;> simp only [readSection, hr] at h
  · cases h
    exact .of_kind hc hb
  · split at h <;> cases h
    exact .of_kind (by simp) (by simp)

theorem encodeHeaderOutcome_legal (type : Byte) (s : State) : (encodeHeaderOutcome type s).Legal := by
  rcases typeOperand_cases type with ⟨-, -, ht⟩ | ⟨y, ht, -⟩ <;> simp only [encodeHeaderOutcome, ht]
  · exact .of_zero _
  · split
    · exact .of_zero _
    · exact Nat.zero_le 1

theorem sectionOutcome_legal (type : Byte) {tooLong : CmdOutcome} (h : tooLong.Legal) (s : State) :
    (sectionOutcome type tooLong s).Legal := by
  rcases typeOperand_cases type with ⟨-, -, ht⟩ | ⟨y, ht, -⟩ <;> simp only [sectionOutcome, ht]
  · exact .of_zero _
  · rcases payloadOperand_cases s with ⟨-, hp⟩ | ⟨-, hp⟩ <;> simp only [hp]
    · exact .of_zero _
    · split
      · exact h
      · exact Nat.zero_le 1

theorem tryMakeSectionOutcome_legal (type : Byte) (s : State) : (tryMakeSectionOutcome type s).Legal :=
  sectionOutcome_legal (tooLong := .fail) type True.intro s

theorem makeSectionOutcome_legal (type : Byte) (s : State) : (makeSectionOutcome type s).Legal := by
  have htooLong : FatalErr.Legal { kind := .payloadTooLarge, off := s.aOff } := .of_kind (by simp) (by simp)
  exact sectionOutcome_legal (tooLong := .fatal _) type htooLong s

theorem readHeaderOutcome_legal (s : State) : (readHeaderOutcome s).Legal := by
  rcases readHeader_cases s s.aOff with ⟨kind, hc, hb, hr⟩ | ⟨-, y, hr⟩ <;> simp only [readHeaderOutcome, hr]
  · exact FatalErr.Legal.of_kind hc hb
  · exact tagByte_le y

theorem readPayloadOutcome_legal (s : State) : (readPayloadOutcome s).Legal := by
  unfold readPayloadOutcome
  split
  case h_1 hr => exact readSection_error_legal hr
  case h_2 x _ => exact tagByte_le x.type

theorem mergeOutcome_legal (s : State) : (mergeOutcome s).Legal := by
  unfold mergeOutcome
  split
  case h_1 hr => exact readSection_error_legal hr
  case h_2 a _ =>
    split
    case h_1 hr => exact readSection_error_legal hr
    case h_2 b _ =>
      unfold merge
      split
      case h_1 e he =>
        split at he <;> cases he
        exact FatalErr.Legal.of_kind (by simp) (by simp)
      case h_2 m _ => exact tagByte_le m.type
      case h_3 m o _ => exact tagByte_le m.type

/-! ### What beginning a command and the encoder's Detect can do -/

/-- What the step machine does at an accepted command: it starts a unit, or runs a command of the framer (log 27). -/
theorem beginCommand_cases (i : Instr) (s : State) :
    beginCommand i s = .next (beginUnit .encoder startEncoder s) ∨
    beginCommand i s = .next (beginUnit .decoder startDecoder s) ∨
    beginCommand i s = exec i s := by
  cases i with
  | compress => exact .inl rfl
  | decompress => exact .inr (.inl rfl)
  | _ => exact .inr (.inr rfl)

/-- What Detect can do: meet the tail byte, measure a run, reach the end of the empty input or of any other (R150, log 14). -/
theorem tickDetect_cases (s : State) :
    (s.enc.anchor.toNat + 1 = s.n ∧ tickDetect s = { s with enc := { s.enc with state := .emitTail } }) ∨
    (s.enc.anchor.toNat + 2 ≤ s.n ∧
      tickDetect s = { s with
        enc := { s.enc with
          state := if (detectRun s.input s.enc.anchor.toNat).2 - s.enc.anchor.toNat - 1 > 10 then .emitCode
            else .emitLiteral
          j := BitVec.ofNat 32 (detectRun s.input s.enc.anchor.toNat).2
          delta := (detectRun s.input s.enc.anchor.toNat).1
          runLen := BitVec.ofNat 32 ((detectRun s.input s.enc.anchor.toNat).2 - s.enc.anchor.toNat - 1) } }) ∨
    (s.n = 0 ∧
      tickDetect s = { s with
        enc := { s.enc with state := .flush, raw := s.enc.raw ++ [{ type := .data, payload := [] }] } }) ∨
    (s.n ≤ s.enc.anchor.toNat ∧ s.n ≠ 0 ∧ tickDetect s = { s with enc := { s.enc with state := .flush } }) := by
  by_cases hlt : s.enc.anchor.toNat < s.n
  · by_cases htail : s.enc.anchor.toNat = s.n - 1
    · exact .inl ⟨by omega, by simp only [tickDetect, if_pos hlt, if_pos htail]⟩
    · exact .inr (.inl ⟨by omega, by simp only [tickDetect, if_pos hlt, if_neg htail]; rfl⟩)
  · by_cases hempty : s.n = 0
    · exact .inr (.inr (.inl ⟨hempty, by simp only [tickDetect, if_neg hlt, if_pos hempty]⟩))
    · exact .inr (.inr (.inr ⟨by omega, hempty, by simp only [tickDetect, if_neg hlt, if_neg hempty]⟩))

/-! ### Predicates that every run keeps -/

/-- `P` is kept by each primitive update that a meaning or a tick of a unit is made of. -/
structure RunClosed (P : State → Prop) : Prop where
  decRegs : ∀ {s : State}, P s → ∀ d, P { s with dec := d }
  encRegs : ∀ {s : State}, P s → ∀ e r, P { s with enc := e, acc := r }
  store : ∀ {s : State}, P s → ∀ a bytes, a + bytes.length ≤ s.caps.outCap.toNat →
    P { s with outBuf := s.outBuf.writeBytes a bytes }
  ok : ∀ {s : State}, P s → ∀ n r y o, y.toNat ≤ 1 → P (finishOk n r y o s)
  fail : ∀ {s : State}, P s → P (finishFail s)
  fatal : ∀ {s : State}, P s → ∀ e : FatalErr, e.Legal → P (raiseFatal e s)

namespace RunClosed

variable {P : State → Prop}

theorem andThen {r : Flow} {f : State → Flow} (hr : P r.state) (hf : ∀ t, P t → P (f t).state) :
    P (r.andThen f).state := by
  cases r with
  | going t => exact hf t hr
  | ended t => exact hr

theorem decFatal (hP : RunClosed P) {s : State} (h : P s) {e : FatalErr} (he : e.Legal) : P (decFatal e s) :=
  hP.fatal (hP.decRegs h _) e he

theorem encFatal (hP : RunClosed P) {s : State} (h : P s) {e : FatalErr} (he : e.Legal) : P (encFatal e s) :=
  hP.fatal (hP.encRegs h _ _) e he

/-! #### The decoder -/

theorem enterSection (hP : RunClosed P) (y : SecType) (length : Half) {s : State} (h : P s) :
    P (enterSection y length s).state := by
  rcases enterSection_cases y length s with ⟨-, he⟩ | ⟨-, he⟩ <;> rw [he]
  · exact hP.decFatal h (.of_kind (by simp) (by simp))
  · exact hP.decRegs h _

theorem emitByte (hP : RunClosed P) (b : Byte) {s : State} (h : P s) : P (emitByte b s).state := by
  rcases emitByte_cases b s with ⟨-, he⟩ | ⟨hlt, he⟩ <;> rw [he]
  · exact hP.decFatal h (.of_zero _)
  · exact hP.decRegs (hP.store h s.dec.opos.toNat [b] hlt) _

theorem copyByte (hP : RunClosed P) {s : State} (h : P s) : P (copyByte s).state :=
  andThen (hP.emitByte _ h) fun _ ht => hP.decRegs ht _

theorem emitRunByte (hP : RunClosed P) {s : State} (h : P s) : P (emitRunByte s).state :=
  andThen (hP.emitByte _ h) fun _ ht => hP.decRegs ht _

theorem copyPayload (hP : RunClosed P) (k : Nat) {s : State} (h : P s) : P (copyPayload k s).state := by
  induction k generalizing s with
  | zero => exact hP.decRegs h _
  | succ k ih => exact andThen (hP.copyByte h) fun _ ht => ih ht

theorem emitRun (hP : RunClosed P) (start delta : Byte) (left : Nat) {s : State} (h : P s) :
    P (emitRun start delta left s).state := by
  induction left generalizing s with
  | zero => exact hP.decRegs h _
  | succ left ih => exact andThen (hP.emitByte _ h) fun _ ht => ih (hP.decRegs ht _)

theorem runData (hP : RunClosed P) (length : Half) {s : State} (h : P s) : P (runData length s).state :=
  andThen (hP.enterSection .data length h) fun _ ht => hP.copyPayload _ ht

theorem runDeltaIter (hP : RunClosed P) (start : Byte) (count : Half) (delta : Byte) {s : State} (h : P s) :
    P (runDeltaIter start count delta s).state :=
  hP.emitRun start delta _ (hP.decRegs h _)

theorem runInstruction (hP : RunClosed P) (i : Instr) {s : State} (h : P s) : P (runInstruction i s).state := by
  cases i with
  | deltaIter start count delta => exact hP.runDeltaIter start count delta h
  | _ => exact h

theorem interpret (hP : RunClosed P) (fuel : Nat) {s : State} (h : P s) : P (interpret fuel s).state := by
  induction fuel generalizing s with
  | zero => exact hP.decRegs h _
  | succ fuel ih =>
    unfold Machine.interpret
    split
    · split
      · exact hP.decFatal h (fetchInstruction_error_legal ‹_› ‹_›)
      · exact andThen (hP.runInstruction _ h) fun _ ht => ih ht
    · exact hP.decRegs h _

theorem runCode (hP : RunClosed P) (length : Half) {s : State} (h : P s) : P (runCode length s).state :=
  andThen (hP.enterSection .code length h) fun _ ht => hP.interpret _ ht

theorem runSection (hP : RunClosed P) (i : Instr) {s : State} (h : P s) : P (runSection i s).state := by
  cases i with
  | data length => exact hP.runData length h
  | code length => exact hP.runCode length h
  | _ => exact h

theorem decodeStream (hP : RunClosed P) (fuel : Nat) {s : State} (h : P s) : P (decodeStream fuel s).state := by
  induction fuel generalizing s with
  | zero => exact h
  | succ fuel ih =>
    unfold Machine.decodeStream
    split
    · split
      · exact hP.decFatal h (fetchSection_error_legal ‹_›)
      · exact andThen (hP.runSection _ h) fun _ ht => ih ht
    · exact hP.decRegs h _

theorem runDecompress (hP : RunClosed P) {s : State} (h : P s) : P (runDecompress s) := by
  have hrun := hP.decodeStream (s.n + 1) (hP.decRegs h { s.dec with state := .readingHeader, pc := 0, opos := 0 })
  unfold Machine.runDecompress
  split
  · exact hP.fatal h _ (startError_legal ‹_›)
  · change P (Machine.decodeStream (s.n + 1) (startDecoder s)).state at hrun
    cases hr : Machine.decodeStream (s.n + 1) (startDecoder s) with
    | going t => exact hP.ok (by rwa [hr] at hrun) _ _ _ _ (Nat.zero_le 1)
    | ended t => rwa [hr] at hrun

theorem enterInstr (hP : RunClosed P) (i : Instr) {s : State} (h : P s) : P (enterInstr i s).state := by
  cases i with
  | data length => exact hP.enterSection .data length h
  | code length => exact hP.enterSection .code length h
  | _ => exact h

theorem loadInstr (hP : RunClosed P) (i : Instr) {s : State} (h : P s) : P (loadInstr i s) := by
  cases i with
  | deltaIter start count delta => exact hP.decRegs h _
  | _ => exact h

theorem tickHeader (hP : RunClosed P) {s : State} (h : P s) : P (tickHeader s) := by
  unfold Machine.tickHeader
  split
  · split
    · exact hP.decFatal h (fetchSection_error_legal ‹_›)
    · exact hP.enterInstr _ h
  · exact hP.decRegs h _

theorem tickInterpret (hP : RunClosed P) {s : State} (h : P s) : P (tickInterpret s) := by
  unfold Machine.tickInterpret
  split
  · split
    · exact hP.decFatal h (fetchInstruction_error_legal ‹_› ‹_›)
    · exact hP.loadInstr _ h
  · exact hP.decRegs h _

theorem decTick (hP : RunClosed P) {s : State} (h : P s) : P (decTick s) := by
  unfold Machine.decTick
  split
  case h_1 => exact h
  case h_2 => exact hP.tickHeader h
  case h_3 =>
    split
    · exact hP.copyByte h
    · exact hP.decRegs h _
  case h_4 => exact hP.tickInterpret h
  case h_5 =>
    split
    · exact hP.emitRunByte h
    · exact hP.decRegs h _
  case h_6 => exact hP.ok h _ _ _ _ (Nat.zero_le 1)
  case h_7 => exact h

/-! #### The framer -/

theorem complete (hP : RunClosed P) {o : CmdOutcome} (ho : o.Legal) {s : State} (h : P s) : P (complete o s) := by
  cases o with
  | ok out resLen resType hasOvf =>
    rcases memWrite_cases 0 out s with ⟨-, hw⟩ | ⟨hle, hw⟩ <;> simp only [Machine.complete, hw]
    · exact hP.fatal h _ (.of_zero _)
    · exact hP.ok (hP.store h 0 out hle) _ _ _ _ ho
  | fail => exact hP.fail h
  | fatal e => exact hP.fatal h e ho

theorem runCommand (hP : RunClosed P) {f : State → CmdOutcome} {s : State} (hf : (f s).Legal) (h : P s) :
    P (runCommand f s) := by
  rcases runCommand_cases f s with ⟨-, hr⟩ | ⟨-, hr⟩ <;> rw [hr]
  · exact hP.fatal h _ (.of_zero _)
  · exact hP.complete hf h

/-! #### The encoder -/

theorem runCompress (hP : RunClosed P) {s : State} (h : P s) : P (runCompress s) := by
  have hstart : P (startEncoder s) := hP.encRegs h _ _
  unfold Machine.runCompress
  split
  · exact hP.fatal h _ (startError_legal ‹_›)
  · rcases memWrite_cases 0 (compress s.input) (startEncoder s) with ⟨-, hw⟩ | ⟨hle, hw⟩ <;> simp only [hw]
    · exact hP.encFatal hstart (.of_zero _)
    · exact hP.ok (hP.encRegs (hP.store hstart 0 _ hle) _ _) _ _ _ _ (Nat.zero_le 1)

theorem tickDetect (hP : RunClosed P) {s : State} (h : P s) : P (tickDetect s) := by
  rcases tickDetect_cases s with ⟨-, hd⟩ | ⟨-, hd⟩ | ⟨-, hd⟩ | ⟨-, -, hd⟩ <;> rw [hd] <;> exact hP.encRegs h _ _

theorem tickEmitCode (hP : RunClosed P) {s : State} (h : P s) : P (tickEmitCode s) := by
  unfold Machine.tickEmitCode
  split
  · exact hP.encRegs h _ _
  · exact hP.encRegs h _ _

theorem flushWrite (hP : RunClosed P) {s : State} (h : P s) : P (flushWrite s) := by
  rcases memWrite_cases 0 (serialize s.enc.outs) s with ⟨-, hw⟩ | ⟨hle, hw⟩ <;> simp only [Machine.flushWrite, hw]
  · exact hP.encFatal h (.of_zero _)
  · exact hP.encRegs (hP.store h 0 _ hle) _ _

theorem flushFold (hP : RunClosed P) (x : Section) (rest : List Section) {s : State} (h : P s) :
    P (flushFold x rest s) := by
  unfold Machine.flushFold
  split
  · split
    · split
      · exact hP.encRegs h _ _
      · exact hP.encRegs h _ _
    · exact hP.encRegs h _ _
  · exact hP.encRegs h _ _

theorem tickFlush (hP : RunClosed P) {s : State} (h : P s) : P (tickFlush s) := by
  unfold Machine.tickFlush
  split
  · exact hP.flushFold _ _ h
  · split
    · exact hP.encRegs h _ _
    · exact hP.flushWrite h

theorem encTick (hP : RunClosed P) {s : State} (h : P s) : P (encTick s) := by
  unfold Machine.encTick
  split
  case h_1 => exact h
  case h_2 => exact hP.tickDetect h
  case h_3 => exact hP.tickEmitCode h
  case h_4 => exact hP.encRegs h _ _
  case h_5 => exact hP.encRegs h _ _
  case h_6 => exact hP.encRegs h _ _
  case h_7 => exact hP.tickFlush h
  case h_8 => exact hP.ok h _ _ _ _ (Nat.zero_le 1)
  case h_9 => exact h

/-! #### The block's turns -/

theorem exec (hP : RunClosed P) {i : Instr} {s t : State} (h : P s) (he : exec i s = .next t) : P t := by
  cases i <;> cases he
  case data => exact hP.runData _ h
  case code => exact hP.runCode _ h
  case deltaIter => exact hP.runDeltaIter _ _ _ h
  case compress => exact hP.runCompress h
  case decompress => exact hP.runDecompress h
  case encodeHeader type => exact hP.runCommand (encodeHeaderOutcome_legal type s) h
  case tryMakeSection type => exact hP.runCommand (tryMakeSectionOutcome_legal type s) h
  case makeSection type => exact hP.runCommand (makeSectionOutcome_legal type s) h
  case readHeader => exact hP.runCommand (readHeaderOutcome_legal s) h
  case readPayload => exact hP.runCommand (readPayloadOutcome_legal s) h
  case merge => exact hP.runCommand (mergeOutcome_legal s) h

theorem unitTick (hP : RunClosed P) {s : State} (h : P s) : P (unitTick s) := by
  unfold Machine.unitTick
  split
  case h_1 => exact h
  case h_2 => exact h
  case h_3 => exact hP.encTick h
  case h_4 => exact hP.decTick h

theorem blockWhole (hP : RunClosed P) {s t : State} (h : P s) (he : blockWhole s = .next t) : P t := by
  rcases blockWhole_cases s with ⟨i, -, hb⟩ | ⟨-, hb⟩ | ⟨e, hf, hb⟩ <;> rw [hb] at he
  · exact hP.exec h he
  · cases he
    exact hP.unitTick h
  · cases he
    unfold raiseFetch
    split
    case h_1 => exact hP.decFatal h (fetch_error_legal hf)
    all_goals exact hP.fatal h e (fetch_error_legal hf)

/-- A tick keeps `P` when giving the accepted command to its unit does. -/
theorem blockTick (hP : RunClosed P)
    (hbegin : ∀ {s : State}, P s → s.active = .accepted → ∀ unit, unit = .encoder ∨ unit = .decoder →
      P { s with active := unit })
    {s t : State} (h : P s) (he : blockTick s = .next t) : P t := by
  have hunit {unit : Active} {start : State → State} (hu : unit = .encoder ∨ unit = .decoder) (hs : P (start s))
      (ha : (start s).active = .accepted) : P (beginUnit unit start s) := by
    unfold beginUnit
    split
    · exact hP.fatal h _ (startError_legal ‹_›)
    · exact hbegin hs ha unit hu
  rcases blockTick_cases s with ⟨ha, ⟨i, -, hb⟩ | ⟨e, hf, hb⟩⟩ | ⟨-, hb⟩ <;> rw [hb] at he
  · rcases beginCommand_cases i s with hi | hi | hi <;> rw [hi] at he
    · cases he
      exact hunit (.inl rfl) (hP.encRegs h _ _) ha
    · cases he
      exact hunit (.inr rfl) (hP.decRegs h _) ha
    · exact hP.exec h he
  · cases he
    rw [fetchCommand_error hf]
    exact hP.fatal h _ (.of_zero _)
  · cases he
    exact hP.unitTick h

end RunClosed

end Sys2Proof.Machine
end

section
/-! PROOFS. What a host access can do, said once: the accepted START (10_state.md R42), the accesses of the register window (R21 to
R33) and of the buffers (R35); the statements about the host interface; and which accesses stop the machine. -/

namespace Sys2Proof.Machine

/-! ### The accepted START -/

/-- Starting a unit changes unit registers only. -/
theorem startUnit_eq (op : Byte) (s : State) :
    startUnit op s =
      { s with dec := (startUnit op s).dec, enc := (startUnit op s).enc, acc := (startUnit op s).acc } := by
  unfold startUnit
  split
  · rfl
  · split <;> rfl

/-- The accepted START clears the results, latches the operands and starts the unit; IN, OUT and the model's own fields stay. -/
theorem acceptStart_eq (s : State) :
    acceptStart s =
      { s with
        regs := { s.regs with status := statusBusy, outLen := 0, resLen := 0, errOff := 0 }
        latch :=
          { cmd := s.regs.cmd, aLen := s.regs.aLen, aOff := s.regs.aOff, bOff := s.regs.bOff, pLen := s.regs.pLen }
        active := .accepted
        dec := (acceptStart s).dec
        enc := (acceptStart s).enc
        acc := (acceptStart s).acc } :=
  startUnit_eq _ _

@[simp] theorem acceptStart_regs (s : State) :
    (acceptStart s).regs = { s.regs with status := statusBusy, outLen := 0, resLen := 0, errOff := 0 } := by
  rw [acceptStart_eq]
@[simp] theorem acceptStart_latch (s : State) :
    (acceptStart s).latch =
      { cmd := s.regs.cmd, aLen := s.regs.aLen, aOff := s.regs.aOff, bOff := s.regs.bOff, pLen := s.regs.pLen } := by
  rw [acceptStart_eq]
@[simp] theorem acceptStart_active (s : State) : (acceptStart s).active = .accepted := by rw [acceptStart_eq]
@[simp] theorem acceptStart_inBuf (s : State) : (acceptStart s).inBuf = s.inBuf := by rw [acceptStart_eq]
@[simp] theorem acceptStart_outBuf (s : State) : (acceptStart s).outBuf = s.outBuf := by rw [acceptStart_eq]
@[simp] theorem acceptStart_caps (s : State) : (acceptStart s).caps = s.caps := by rw [acceptStart_eq]
@[simp] theorem acceptStart_draws (s : State) : (acceptStart s).draws = s.draws := by rw [acceptStart_eq]
@[simp] theorem acceptStart_rdata (s : State) : (acceptStart s).rdata = s.rdata := by rw [acceptStart_eq]
@[simp] theorem acceptStart_schedule (s : State) : (acceptStart s).schedule = s.schedule := by rw [acceptStart_eq]

/-- DECOMPRESS starts from ReadingHeader at offset 0 (R40). -/
theorem acceptStart_dec {s : State} (h : cmdOp s.regs.cmd = 0x02) :
    (acceptStart s).dec = { s.dec with state := .readingHeader, pc := 0, opos := 0 } := by
  simp [acceptStart, startUnit, h]

/-- COMPRESS starts from Detect at anchor 0, its lists empty (R40). -/
theorem acceptStart_enc {s : State} (h : cmdOp s.regs.cmd = 0x01) :
    (acceptStart s).enc = { s.enc with state := .detect, anchor := 0, raw := [], outs := [] } ∧
      (acceptStart s).acc = { s.acc with valid := false } := by
  simp [acceptStart, startUnit, h]

/-! ### Which accesses the host may make -/

/-- A word access of the window is one the host may make (R33). -/
theorem wordAccess_iff (off width : Nat) : wordAccess off width = true ↔ width = 4 ∧ off % 4 = 0 := by
  simp [wordAccess]

theorem wordAccess_four {off : Nat} (h : off % 4 = 0) : wordAccess off 4 = true := (wordAccess_iff off 4).mpr ⟨rfl, h⟩

theorem hostAct_writeReg {off : Nat} (h : off % 4 = 0) (v : Word) (s : State) :
    hostAct (.writeReg off 4 v) s = .next (regWrite off v s) := by
  rw [hostAct, if_pos (wordAccess_four h)]

theorem hostAct_readReg {off : Nat} (h : off % 4 = 0) (s : State) :
    hostAct (.readReg off 4) s = .next { s with rdata := regRead s.regs off } := by
  rw [hostAct, if_pos (wordAccess_four h)]

theorem hostAct_writeIn {off : Nat} (h : off < s.caps.inCap.toNat) (hb : busyBit s.regs.status = false) (v : Byte) :
    hostAct (.writeIn off v) s = .next { s with inBuf := s.inBuf.write off v } := by
  simp only [hostAct, if_pos h, hb]
  rfl

/-- An access answers a next state exactly when the host may make it. -/
theorem hostAct_next_iff (a : HostAction) (s : State) : (∃ t, hostAct a s = .next t) ↔ dutiful a s = true := by
  cases a with
  | readReg off width =>
    change _ ↔ wordAccess off width = true
    cases h : wordAccess off width <;> simp [hostAct, h]
  | writeReg off width v =>
    change _ ↔ wordAccess off width = true
    cases h : wordAccess off width <;> simp [hostAct, h]
  | readIn off => by_cases h : off < s.caps.inCap.toNat <;> simp [hostAct, dutiful, h]
  | writeIn off v =>
    by_cases h : off < s.caps.inCap.toNat <;> cases hb : busyBit s.regs.status <;> simp [hostAct, dutiful, h, hb]
  | readOut off => by_cases h : off < s.caps.outCap.toNat <;> simp [hostAct, dutiful, h]
  | reset => simp [hostAct, dutiful]

theorem dutiful_dropTurn (a : HostAction) (s : State) : dutiful a (dropTurn s) = dutiful a s := by cases a <;> rfl

/-- Settles O8: the block's turns answer a next state, a host turn answers one exactly when the host may make its access. -/
theorem stepStopsOnlyOnHostViolations : Obligations.StepStopsOnlyOnHostViolations := by
  intro s
  rcases step_cases s with ⟨ht, hs⟩ | ⟨ht, hs⟩ | ⟨a, ht, hs⟩ <;> simp only [hs, dutifulTurn, ht]
  · simp [blockWhole_next]
  · simp [blockTick_next]
  · rw [hostAct_next_iff, dutiful_dropTurn]

/-! ### What an access can do -/

/-- What a word write of the window can do (R21, R32, R42): replace operand registers, CMD without its reserved bits; start a command
while none runs; or nothing, which is the first with every register's own value. -/
theorem regWrite_cases (off : Nat) (v : Word) (s : State) :
    (∃ cmd aLen aOff bOff pLen, (cmd = s.regs.cmd ∨ cmd = cmdValue v) ∧
      regWrite off v s = withOperandRegs cmd aLen aOff bOff pLen s) ∨
    (busyBit s.regs.status = false ∧ regWrite off v s = acceptStart s) := by
  unfold regWrite
  split
  case h_2 =>
    by_cases h : (v.getLsbD 0 && !busyBit s.regs.status) = true
    · rw [if_pos h]
      simp only [Bool.and_eq_true, Bool.not_eq_true'] at h
      exact .inr ⟨h.2, rfl⟩
    · rw [if_neg h]
      exact .inl ⟨_, _, _, _, _, .inl rfl, rfl⟩
  case h_1 => exact .inl ⟨_, _, _, _, _, .inr rfl, rfl⟩
  all_goals exact .inl ⟨_, _, _, _, _, .inl rfl, rfl⟩

/-- What an access that is answered can do. -/
theorem hostAct_cases {a : HostAction} {s t : State} (h : hostAct a s = .next t) :
    (∃ rdata draws, t = { s with rdata := rdata, draws := draws }) ∨
    (∃ cmd aLen aOff bOff pLen, (cmd = s.regs.cmd ∨ ∃ v, cmd = cmdValue v) ∧
      t = withOperandRegs cmd aLen aOff bOff pLen s) ∨
    (busyBit s.regs.status = false ∧ t = acceptStart s) ∨
    (∃ off v, off < s.caps.inCap.toNat ∧ t = { s with inBuf := s.inBuf.write off v }) ∨
    t = hostReset s := by
  cases a with
  | readReg off width =>
    simp only [hostAct] at h
    split at h <;> cases h
    exact .inl ⟨_, s.draws, rfl⟩
  | writeReg off width v =>
    simp only [hostAct] at h
    split at h <;> cases h
    rcases regWrite_cases off v s with ⟨cmd, aLen, aOff, bOff, pLen, hcmd, hw⟩ | ⟨hb, hw⟩
    · exact .inr (.inl ⟨cmd, aLen, aOff, bOff, pLen, hcmd.imp id fun hv => ⟨v, hv⟩, hw⟩)
    · exact .inr (.inr (.inl ⟨hb, hw⟩))
  | readIn off =>
    simp only [hostAct] at h
    split at h <;> cases h
    exact .inl ⟨_, s.draws, rfl⟩
  | writeIn off v =>
    simp only [hostAct] at h
    split at h
    · split at h <;> cases h
      exact .inr (.inr (.inr (.inl ⟨off, v, ‹_›, rfl⟩)))
    · cases h
  | readOut off =>
    simp only [hostAct] at h
    split at h <;> cases h
    unfold outRead
    split
    · exact .inl ⟨_, _, rfl⟩
    · exact .inl ⟨_, s.draws, rfl⟩
  | reset =>
    cases h
    exact .inr (.inr (.inr (.inr rfl)))

/-! ### The statements about single accesses -/

theorem regRead_reset (off : Nat) : regRead HostRegs.reset off = 0 := by
  unfold regRead
  split <;> rfl

/-- Settles O1: `hostReset` is the state after reset with new draws for IN and OUT. -/
theorem resetLeavesTheSpecsState : Obligations.ResetLeavesTheSpecsState :=
  fun s => ⟨hostReset s, rfl, regRead_reset, rfl, rfl, rfl, rfl, read_unspecified _, read_unspecified _, rfl⟩

/-- Settles O47: the guard of the START write decides between the accepted START and no change. -/
theorem startIsAcceptedOnlyWhenIdle : Obligations.StartIsAcceptedOnlyWhenIdle := by
  intro s v
  refine ⟨regWrite 0x04 v s, hostAct_writeReg rfl v s, ?_⟩
  split
  case isTrue h =>
    obtain ⟨hv, hb⟩ := h
    have hstart : regWrite 0x04 v s = acceptStart s := by simp [regWrite, hv, hb]
    rw [hstart]
    refine ⟨by rw [acceptStart_regs, statusBusy_eq], acceptStart_latch s, acceptStart_active s, acceptStart_inBuf s,
      acceptStart_outBuf s, acceptStart_caps s, acceptStart_draws s, acceptStart_rdata s,
      acceptStart_schedule s, ?_, ?_⟩
    · intro hop
      rw [acceptStart_dec hop]
      exact ⟨rfl, rfl, rfl⟩
    · intro hop
      obtain ⟨henc, hacc⟩ := acceptStart_enc hop
      rw [henc, hacc]
      exact ⟨rfl, rfl, rfl, rfl⟩
  case isFalse h =>
    have hguard : ¬ (v.getLsbD 0 && !busyBit s.regs.status) = true := by simpa using h
    simp only [regWrite, if_neg hguard]

/-- The register map of R21 as a chain of comparisons. -/
theorem regRead_eq (r : HostRegs) (off : Nat) :
    regRead r off =
      if off = 0x00 then r.cmd else if off = 0x08 then r.status else if off = 0x0C then r.aLen
      else if off = 0x10 then r.aOff else if off = 0x14 then r.bOff else if off = 0x18 then r.pLen
      else if off = 0x1C then r.outLen else if off = 0x20 then r.resLen
      else if off = 0x24 then r.errOff else 0 := by
  unfold regRead
  split
  case h_10 => simp_all
  all_goals rfl

/-- Settles O49: a word read returns what the register map holds at its offset. -/
theorem registerReads : Obligations.RegisterReads := by
  intro s off hoff
  rw [hostAct_readReg hoff, regRead_eq]

/-- CMD keeps the 16 low bits of what is written (R22). -/
theorem cmdValue_eq (v : Word) : cmdValue v = (v.extractLsb' 0 16).setWidth 32 := by
  apply BitVec.eq_of_toNat_eq
  simp only [cmdValue, BitVec.toNat_and, BitVec.toNat_setWidth, BitVec.extractLsb'_toNat, BitVec.toNat_ofNat]
  have hmask := Nat.and_two_pow_sub_one_eq_mod v.toNat 16
  norm_num at hmask ⊢
  omega

/-- A write of a read-only register, or past the last one, is ignored (R32). -/
theorem regWrite_ignored {off : Nat} (h : off = 0x08 ∨ 0x1C ≤ off) (v : Word) (s : State) : regWrite off v s = s := by
  unfold regWrite
  split <;> first | rfl | omega

/-- Settles O50: five writes reach their register, every one from STATUS or past P_LEN is ignored. -/
theorem registerWrites : Obligations.RegisterWrites := by
  intro s v
  refine ⟨?_, hostAct_writeReg rfl v s, hostAct_writeReg rfl v s, hostAct_writeReg rfl v s, hostAct_writeReg rfl v s,
    fun off hoff h => ?_⟩
  · rw [hostAct_writeReg rfl, ← cmdValue_eq]
    rfl
  · rw [hostAct_writeReg hoff, regWrite_ignored h]

/-- Settles O51: neither access passes its guard. -/
theorem hostViolationsAreRefused : Obligations.HostViolationsAreRefused := by
  refine ⟨fun s off width v h => ?_, fun s off v hlt hb => ?_⟩
  · have hword : ¬ wordAccess off width = true := by
      rw [wordAccess_iff]
      omega
    exact ⟨by rw [hostAct, if_neg hword], by rw [hostAct, if_neg hword]⟩
  · rw [hostAct, if_pos hlt, if_pos hb]

/-- Settles O52: each access passes its guard, and a write of IN changes one byte. -/
theorem hostBufferAccesses : Obligations.HostBufferAccesses := by
  refine ⟨fun s off hlt => ?_, fun s off v hlt hb => ?_, fun s off hlt hb => ?_⟩
  · rw [hostAct, if_pos hlt]
  · exact ⟨_, hostAct_writeIn hlt hb v, rfl, read_write_same s.inBuf off v, fun a ha => read_write_other ha s.inBuf v⟩
  · rw [hostAct, if_pos hlt, outRead, hb]
    rfl

end Sys2Proof.Machine
end

section
/-! PROOFS. Every step keeps IN and OUT canonical and inside their capacities (20_memory.md R60, R61), and STATUS, CMD and the result
registers legal (10_state.md R22 to R31): both predicates are kept by every primitive update of the block and by every host access. -/

namespace Sys2Proof.Machine

/-! ### From the block's and the host's turns to every step -/

/-- A predicate that a run, the begin of a unit and a host access keep, and that does not look at the schedule, is kept by every
step. -/
theorem RunClosed.step {P : State → Prop} (hP : RunClosed P) (hdrop : ∀ {s : State}, P s → P (dropTurn s))
    (hbegin : ∀ {s : State}, P s → s.active = .accepted → ∀ unit, unit = .encoder ∨ unit = .decoder →
      P { s with active := unit })
    (hhost : ∀ {s t : State} {a : HostAction}, P s → hostAct a s = .next t → P t)
    {s t : State} (h : P s) (he : step s = .next t) : P t := by
  rcases step_cases s with ⟨-, hs⟩ | ⟨-, hs⟩ | ⟨a, -, hs⟩ <;> rw [hs] at he
  · exact hP.blockWhole (hdrop h) he
  · exact hP.blockTick hbegin (hdrop h) he
  · exact hhost (hdrop h) he

/-! ### IN and OUT -/

/-- The four conditions see IN, OUT and the capacities only. -/
theorem MemoryInv.of_eq {s t : State} (h : MemoryInv s) (hin : t.inBuf = s.inBuf) (hout : t.outBuf = s.outBuf)
    (hcaps : t.caps = s.caps) : MemoryInv t where
  inWf := hin ▸ h.inWf
  outWf := hout ▸ h.outWf
  inBound := by rw [hin, hcaps]; exact h.inBound
  outBound := by rw [hout, hcaps]; exact h.outBound

theorem MemoryInv.of_out {s t : State} (h : MemoryInv s) (hin : t.inBuf = s.inBuf) (hcaps : t.caps = s.caps)
    (hwf : t.outBuf.wf = true) (hbound : ∀ c ∈ t.outBuf.cells, c.1 < s.caps.outCap.toNat) : MemoryInv t where
  inWf := hin ▸ h.inWf
  outWf := hwf
  inBound := by rw [hin, hcaps]; exact h.inBound
  outBound := by rw [hcaps]; exact hbound

theorem MemoryInv.writeIn {s : State} (h : MemoryInv s) {off : Nat} (hlt : off < s.caps.inCap.toNat) (v : Byte) :
    MemoryInv { s with inBuf := s.inBuf.write off v } where
  inWf := write_wf s.inBuf off v h.inWf
  outWf := h.outWf
  inBound := fun c hc => by
    rcases mem_insertCell hc with rfl | hc
    · exact hlt
    · exact h.inBound c hc
  outBound := h.outBound

theorem memoryInv_runClosed : RunClosed MemoryInv where
  decRegs h _ := h.of_eq rfl rfl rfl
  encRegs h _ _ := h.of_eq rfl rfl rfl
  store h a bytes hle := h.of_out rfl rfl (writeBytes_wf _ a bytes h.outWf) fun c hc => by
    rcases mem_writeBytes hc with ⟨-, hlt⟩ | hc
    · exact Nat.lt_of_lt_of_le hlt hle
    · exact h.outBound c hc
  ok h n _ _ _ _ := h.of_out rfl rfl (keepBelow_wf _ n _ h.outWf) fun c hc => h.outBound c (List.mem_of_mem_filter hc)
  fail h := h.of_eq rfl rfl rfl
  fatal h _ _ := h.of_out rfl rfl (unspecified_wf _) fun _ hc => absurd hc List.not_mem_nil

theorem MemoryInv.hostAct {a : HostAction} {s t : State} (h : MemoryInv s) (ha : hostAct a s = .next t) :
    MemoryInv t := by
  rcases hostAct_cases ha with ⟨_, _, rfl⟩ | ⟨_, _, _, _, _, -, rfl⟩ | ⟨-, rfl⟩ | ⟨off, v, hlt, rfl⟩ | rfl
  · exact h.of_eq rfl rfl rfl
  · exact h.of_eq rfl rfl rfl
  · exact h.of_eq (acceptStart_inBuf s) (acceptStart_outBuf s) (acceptStart_caps s)
  · exact h.writeIn hlt v
  · constructor <;> simp [Memory.unspecified, Memory.wf, cellsRising]

/-- Settles O3: no primitive update of the block writes outside OUT, and no host access outside IN. -/
theorem stepKeepsMemoryCanonical : Obligations.StepKeepsMemoryCanonical := by
  intro s t h he
  exact memoryInv_runClosed.step (fun h => h.of_eq rfl rfl rfl) (fun h _ _ _ => h.of_eq rfl rfl rfl)
    MemoryInv.hostAct h he

/-! ### STATUS, CMD and the result registers -/

/-- Legality sees STATUS, the three result registers and who runs the command; of CMD only its reserved bits. -/
theorem StatusInv.of_eq {s t : State} (h : StatusInv s) (hstatus : t.regs.status = s.regs.status)
    (houtLen : t.regs.outLen = s.regs.outLen) (hresLen : t.regs.resLen = s.regs.resLen)
    (herrOff : t.regs.errOff = s.regs.errOff) (hactive : t.active = .idle ↔ s.active = .idle)
    (hcmd : t.regs.cmd.extractLsb' 16 16 = 0) : StatusInv t where
  busy := by rw [hstatus, h.busy, Ne, Ne, hactive]
  running := by rw [hstatus, houtLen, hresLen, herrOff]; exact h.running
  reserved := by rw [hstatus]; exact h.reserved
  oneOutcome := by rw [hstatus]; exact h.oneOutcome
  ended := by rw [hstatus]; exact h.ended
  err := by rw [hstatus]; exact h.err
  errRange := by rw [hstatus]; exact h.errRange
  resType := by rw [hstatus]; exact h.resType
  ovf := by rw [hstatus]; exact h.ovf
  noResult := by rw [hstatus, houtLen, hresLen]; exact h.noResult
  noError := by rw [hstatus, herrOff]; exact h.noError
  noOffset := by rw [hstatus, herrOff]; exact h.noOffset
  noCommand := by rw [hstatus, houtLen, hresLen, herrOff]; exact h.noCommand
  cmdReserved := hcmd

/-- What STATUS and the result registers say is legal once a command has ended in an error: no results, and ERR from 1 to 8. -/
theorem StatusInv.of_error {t : State} {fail fatal : Bool} {err : Byte} (hone : fatal = !fail)
    (hstatus : t.regs.status = statusWord false true fail fatal false err 0) (hactive : t.active = .idle)
    (houtLen : t.regs.outLen = 0) (hresLen : t.regs.resLen = 0) (hpos : 1 ≤ err.toNat) (hle : err.toNat ≤ 8)
    (hoff : err = 7 ∨ err = 8 → t.regs.errOff = 0) (hcmd : t.regs.cmd.extractLsb' 16 16 = 0) : StatusInv t := by
  have herr : err ≠ 0#8 := fun h => by simp [h] at hpos
  exact {
    busy := by simp [hstatus, hactive]
    running := by simp [hstatus]
    reserved := hstatus ▸ statusWord_reserved false true fail fatal false err 0
    oneOutcome := by simp [hstatus, hone]
    ended := by simp [hstatus]
    err := by simp [hstatus, hone, herr]
    errRange := by simpa [hstatus] using hle
    resType := by simp [hstatus]
    ovf := by simp [hstatus]
    noResult := fun _ => ⟨houtLen, hresLen, by simp [hstatus]⟩
    noError := by simp [hstatus, herr]
    noOffset := by simpa [hstatus] using hoff
    noCommand := by simp [hstatus]
    cmdReserved := hcmd }

theorem StatusInv.raiseFatal {s : State} (h : StatusInv s) {e : FatalErr} (he : e.Legal) :
    StatusInv (raiseFatal e s) := by
  refine .of_error (fail := false) rfl rfl rfl rfl rfl (code_range e.kind).1 (code_range e.kind).2 (fun hcode => ?_)
    h.cmdReserved
  have hkind : e.kind = .capacityExceeded ∨ e.kind = .badCommand :=
    hcode.imp (code_injective e.kind .capacityExceeded) (code_injective e.kind .badCommand)
  simp [he hkind]

theorem StatusInv.finishFail {s : State} (h : StatusInv s) : StatusInv (finishFail s) :=
  .of_error (fail := true) rfl rfl rfl rfl rfl (by decide) (by decide)
    (fun hcode => absurd hcode (by decide)) h.cmdReserved

theorem StatusInv.finishOk {s : State} (h : StatusInv s) (outLen resLen : Nat) {resType : Byte} (hasOvf : Bool)
    (htype : resType.toNat ≤ 1) : StatusInv (finishOk outLen resLen resType hasOvf s) where
  busy := by simp [statusOk]
  running := by simp [statusOk]
  reserved := statusWord_reserved false true false false hasOvf 0 resType
  oneOutcome := by simp [statusOk]
  ended := by simp [statusOk]
  err := by simp [statusOk]
  errRange := by simp [statusOk]
  resType := by simpa [statusOk] using htype
  ovf := by simp [statusOk]
  noResult := by simp [statusOk]
  noError _ := rfl
  noOffset _ := rfl
  noCommand := by simp [statusOk]
  cmdReserved := h.cmdReserved

/-- While a command runs STATUS reads 1, from the START on (R246). -/
theorem StatusInv.acceptStart {s : State} (h : StatusInv s) : StatusInv (acceptStart s) := by
  constructor
  case running => simp [statusBusy_eq]
  case reserved =>
    rw [acceptStart_regs]
    exact statusWord_reserved true false false false false 0 0
  all_goals simp [statusBusy, h.cmdReserved]

theorem statusInv_reset : StatusInv State.reset := by constructor <;> decide

theorem statusInv_runClosed : RunClosed StatusInv where
  decRegs h _ := h.of_eq rfl rfl rfl rfl .rfl h.cmdReserved
  encRegs h _ _ := h.of_eq rfl rfl rfl rfl .rfl h.cmdReserved
  store h _ _ _ := h.of_eq rfl rfl rfl rfl .rfl h.cmdReserved
  ok h n r _ o hy := h.finishOk n r o hy
  fail h := h.finishFail
  fatal h _ he := h.raiseFatal he

/-- The reserved bits of CMD read 0 after any write (R22). -/
theorem cmdValue_reserved (v : Word) : (cmdValue v).extractLsb' 16 16 = 0 := by
  apply BitVec.eq_of_getLsbD_eq
  intro i hi
  simp [cmdValue_eq, BitVec.getLsbD_extractLsb', BitVec.getLsbD_setWidth]

theorem StatusInv.hostAct {a : HostAction} {s t : State} (h : StatusInv s) (ha : hostAct a s = .next t) :
    StatusInv t := by
  rcases hostAct_cases ha with ⟨_, _, rfl⟩ | ⟨_, _, _, _, _, hcmd, rfl⟩ | ⟨-, rfl⟩ | ⟨_, _, -, rfl⟩ | rfl
  · exact h.of_eq rfl rfl rfl rfl .rfl h.cmdReserved
  · refine h.of_eq rfl rfl rfl rfl .rfl ?_
    rcases hcmd with rfl | ⟨v, rfl⟩
    · exact h.cmdReserved
    · exact cmdValue_reserved v
  · exact h.acceptStart
  · exact h.of_eq rfl rfl rfl rfl .rfl h.cmdReserved
  · exact statusInv_reset.of_eq rfl rfl rfl rfl .rfl statusInv_reset.cmdReserved

/-- Settles O4: each end of a command and the accepted START leave a legal STATUS, every other update leaves STATUS and the results
alone, and an accepted command passes to its unit with BUSY still 1. -/
theorem stepKeepsStatusLegal : Obligations.StepKeepsStatusLegal := by
  intro s t h he
  refine statusInv_runClosed.step (fun h => h.of_eq rfl rfl rfl rfl .rfl h.cmdReserved) ?_ StatusInv.hostAct h he
  intro s h ha unit hunit
  have hactive : unit = .idle ↔ s.active = .idle := by
    rcases hunit with rfl | rfl <;> simp [ha]
  exact h.of_eq rfl rfl rfl rfl hactive h.cmdReserved

/-! ### The state after reset -/

/-- The decoder's invariant speaks only of a running decoder. -/
theorem DecoderInv.of_inactive {s : State} (h : s.active ≠ .decoder) : DecoderInv s := by
  constructor <;> intro ha <;> exact absurd ha h

/-- The encoder's invariant speaks only of a running encoder. -/
theorem EncoderInv.of_inactive {s : State} (h : s.active ≠ .encoder) : EncoderInv s := by
  constructor <;> intro ha <;> exact absurd ha h

theorem memoryInv_reset : MemoryInv State.reset := by constructor <;> decide

/-- Settles O2: the buffers list nothing, the registers are 0, and no unit runs. -/
theorem resetMeetsInvariants : Obligations.ResetMeetsInvariants :=
  ⟨memoryInv_reset, statusInv_reset, .of_inactive (by decide), .of_inactive (by decide)⟩

end Sys2Proof.Machine
end

section
/-! PROOFS. Every step keeps the running decoder's cursors in bounds and DI_VAL its closed form (10_state.md R36, R37; 42_decoder.md
R186, R189): one lemma per action of the step table (R188), from which both its ticks and its whole instructions follow. -/

namespace Sys2Proof.Machine

/-! ### A unit that does not run -/

/-- The block starts no unit but by beginning a command. -/
theorem inactive_runClosed {unit : Active} (hunit : unit ≠ .idle) : RunClosed (fun s => s.active ≠ unit) where
  decRegs h _ := h
  encRegs h _ _ := h
  store h _ _ _ := h
  ok _ _ _ _ _ _ := hunit.symm
  fail _ := hunit.symm
  fatal _ _ _ := hunit.symm

/-- What beginning a command in the step machine can do (R211). -/
theorem beginUnit_cases (unit : Active) (start : State → State) (s : State) :
    beginUnit unit start s = raiseFatal { kind := .badCommand, off := 0 } s ∨
    (s.n ≤ s.caps.inCap.toNat ∧ beginUnit unit start s = { start s with active := unit }) := by
  by_cases h : s.n ≤ s.caps.inCap.toNat
  · exact .inr ⟨h, by rw [beginUnit, startError_none h]⟩
  · exact .inl (by rw [beginUnit, startError_some (Nat.lt_of_not_le h)])

/-- On the block's turns a unit that does not run stays so, unless the turn is the first tick of its command. -/
theorem block_keeps_inactive {unit : Active} (hunit : unit ≠ .idle) {s t : State} (h : s.active ≠ unit)
    (he : blockWhole s = .next t ∨ blockTick s = .next t) :
    t.active ≠ unit ∨ t = beginUnit .encoder startEncoder s ∨ t = beginUnit .decoder startDecoder s := by
  have hP := inactive_runClosed hunit
  rcases he with he | he
  · exact .inl (hP.blockWhole h he)
  · rcases blockTick_cases s with ⟨-, ⟨i, -, hb⟩ | ⟨e, -, hb⟩⟩ | ⟨-, hb⟩ <;> rw [hb] at he
    · rcases beginCommand_cases i s with hi | hi | hi <;> rw [hi] at he
      · cases he
        exact .inr (.inl rfl)
      · cases he
        exact .inr (.inr rfl)
      · exact .inl (hP.exec h he)
    · cases he
      exact .inl hunit.symm
    · cases he
      exact .inl (hP.unitTick h)

/-! ### What a section and a DeltaIter can do as wholes (R183, R185) -/

/-- The state in which a section has been entered (R181). -/
def entered (y : SecType) (length : Half) (s : State) : State :=
  { s with dec := { s.dec with state := payloadState y, secType := tagByte y, secLen := length, payPos := 0 } }

theorem enterSection_truncated (y : SecType) {length : Half} {s : State}
    (h : s.n < s.dec.pc.toNat + 3 + length.toNat) :
    enterSection y length s = .ended (decFatal { kind := .truncatedStream, off := s.dec.pc.toNat } s) := by
  rcases enterSection_cases y length s with ⟨-, he⟩ | ⟨hfit, -⟩
  · exact he
  · omega

theorem enterSection_fits (y : SecType) {length : Half} {s : State}
    (h : s.dec.pc.toNat + 3 + length.toNat ≤ s.n) : enterSection y length s = .going (entered y length s) := by
  rcases enterSection_cases y length s with ⟨hlt, -⟩ | ⟨-, he⟩
  · omega
  · exact he

/-- A DATA section that OUT has no room for (R183). -/
theorem runData_full {length : Half} {s : State} (hfit : s.dec.pc.toNat + 3 + length.toNat ≤ s.n)
    (hopos : s.dec.opos.toNat ≤ s.caps.outCap.toNat)
    (hfull : s.caps.outCap.toNat < s.dec.opos.toNat + length.toNat) : EndedFull s (runData length s) := by
  have hne : length.toNat ≠ 0 := by omega
  rw [runData, enterSection_fits .data hfit, going_andThen]
  exact (copyPayload_full _ (entered .data length s) hne hfull).ofFrame (StreamFrame.ofUpdate s _ _)

/-- A DATA section that fits is copied and passed (R183). -/
theorem runData_fits {length : Half} {s : State} (hfit : s.dec.pc.toNat + 3 + length.toNat ≤ s.n)
    (hroom : s.dec.opos.toNat + length.toNat ≤ s.caps.outCap.toNat) :
    runData length s = .going (closeSection (copied length.toNat (entered .data length s))) := by
  have hlen : (entered .data length s).dec.payPos.toNat + length.toNat < 65536 :=
    (Nat.zero_add length.toNat).symm ▸ length.isLt
  rw [runData, enterSection_fits .data hfit, going_andThen]
  exact copyPayload_fits _ _ hlen (.inr hroom)

/-- A DELTAITER that OUT has no room for (R185). -/
theorem runDeltaIter_full (start : Byte) {count : Half} (delta : Byte) {s : State}
    (hopos : s.dec.opos.toNat ≤ s.caps.outCap.toNat)
    (hfull : s.caps.outCap.toNat < s.dec.opos.toNat + count.toNat) :
    EndedFull s (runDeltaIter start count delta s) := by
  have hne : count.toNat ≠ 0 := by omega
  exact (emitRun_full start delta _ (loadDelta start count delta s) hne hfull).ofFrame (StreamFrame.ofUpdate s _ _)

/-- A DELTAITER that fits is emitted and left (R185). -/
theorem runDeltaIter_fits (start : Byte) {count : Half} (delta : Byte) {s : State}
    (hroom : s.dec.opos.toNat + count.toNat ≤ s.caps.outCap.toNat) :
    runDeltaIter start count delta s =
      .going (closeDelta (emitted start delta count.toNat (loadDelta start count delta s))) := by
  have hk : (loadDelta start count delta s).dec.diK.toNat + count.toNat < 65536 :=
    (Nat.zero_add count.toNat).symm ▸ count.isLt
  exact emitRun_fits start delta _ _ (runByte_zero start delta).symm hk (.inr hroom)

/-- One byte of a run by the accumulate-and-wrap datapath is the byte of the closed form (R189). -/
theorem emitRunByte_cases {s : State} (hv : s.dec.diVal = runByte s.dec.diStart s.dec.diDelta s.dec.diK.toNat) :
    (s.caps.outCap.toNat ≤ s.dec.opos.toNat ∧
      emitRunByte s = .ended (decFatal { kind := .capacityExceeded, off := 0 } s)) ∨
    (s.dec.opos.toNat < s.caps.outCap.toNat ∧
      emitRunByte s = .going (emitted s.dec.diStart s.dec.diDelta 1 s)) := by
  rcases emitByte_cases s.dec.diVal s with ⟨hf, he⟩ | ⟨hlt, he⟩
  · exact .inl ⟨hf, by rw [emitRunByte, he, ended_andThen]⟩
  · refine .inr ⟨hlt, ?_⟩
    rw [emitRunByte, he, going_andThen]
    simp [emitted, runByte_succ, runSlice, Memory.writeUp, ← hv]

/-! ### The actions of the decoder keep its invariant -/

theorem DecoderInv.of_eq {s t : State} (h : DecoderInv s) (hactive : t.active = s.active) (hlatch : t.latch = s.latch)
    (hcaps : t.caps = s.caps) (hdec : t.dec = s.dec) (hout : t.outBuf = s.outBuf) : DecoderInv t := by
  have hn : t.n = s.n := by rw [State.n, hlatch, State.n]
  constructor <;> rw [hactive]
  · rw [hn, hcaps]; exact h.cap
  · rw [hn, hdec]; exact h.pc
  · rw [hcaps, hdec]; exact h.opos
  · rw [hdec, hout]; exact h.written
  · rw [hdec]; exact h.running
  · rw [hdec, hn]; exact h.done
  · rw [hdec, hn]; exact h.inSection
  · rw [hdec]; exact h.type
  · rw [hdec]; exact h.run

/-- Between sections only the cursors into the stream and OUT are bound. -/
theorem DecoderInv.of_readingHeader {t : State} (hs : t.dec.state = .readingHeader)
    (hcap : t.n ≤ t.caps.inCap.toNat) (hpc : t.dec.pc.toNat ≤ t.n) (hopos : t.dec.opos.toNat ≤ t.caps.outCap.toNat)
    (hwritten : ∀ a, a < t.dec.opos.toNat → (lookupCell t.outBuf.cells a).isSome = true) : DecoderInv t := by
  constructor <;> intro _
  case cap => exact hcap
  case pc => exact hpc
  case opos => exact hopos
  case written => exact hwritten
  all_goals simp [hs, DecState.inSection]

theorem DecoderInv.decFatal (e : FatalErr) (s : State) : DecoderInv (decFatal e s) :=
  .of_inactive (by simp)

theorem DecoderInv.endedFull {s : State} {r : Flow} (h : EndedFull s r) : DecoderInv r.state := by
  obtain ⟨u, -, rfl⟩ := h
  exact .decFatal _ u

section
variable {s : State} (h : DecoderInv s) (ha : s.active = .decoder)
include h ha

theorem DecoderInv.closeSection (hin : s.dec.state.inSection = true) : DecoderInv (closeSection s) := by
  obtain ⟨hfit, -⟩ := h.inSection ha hin
  have hn := s.latch.aLen.isLt
  have hpc : (BitVec.ofNat 32 (s.dec.pc.toNat + 3 + s.dec.secLen.toNat)).toNat ≤ s.n := by
    rw [Nat.add_assoc, ofNat32_toNat_add _ _ (by simp only [State.n] at hfit; omega), ← Nat.add_assoc]
    exact hfit
  exact .of_readingHeader rfl (h.cap ha) hpc (h.opos ha) (h.written ha)

omit ha in
theorem DecoderInv.entered (y : SecType) (length : Half) (hfit : s.dec.pc.toNat + 3 + length.toNat ≤ s.n) :
    DecoderInv (entered y length s) where
  cap := h.cap
  pc := h.pc
  opos := h.opos
  written := h.written
  running _ := by cases y <;> simp [Machine.entered, payloadState]
  done _ hs := by cases y <;> cases hs
  inSection _ _ := ⟨hfit, Nat.zero_le _⟩
  type _ _ := by cases y <;> rfl
  run _ hs := by cases y <;> cases hs

/-- Bytes written from OPOS on leave every byte below the new OPOS written (R61). -/
theorem DecoderInv.written_writeUp (bytes : List Byte) {a : Nat} (hlt : a < s.dec.opos.toNat + bytes.length) :
    (lookupCell (s.outBuf.writeUp s.dec.opos.toNat bytes).cells a).isSome = true := by
  refine lookup_writeUp_isSome _ _ _ _ ?_
  by_cases hold : a < s.dec.opos.toNat
  · exact .inl (h.written ha a hold)
  · exact .inr ⟨Nat.le_of_not_lt hold, hlt⟩

/-- The state `k` bytes further in a Data payload (R183, R188). -/
theorem DecoderInv.copied (hs : s.dec.state = .copyingLiteral) {k : Nat}
    (hk : s.dec.payPos.toNat + k ≤ s.dec.secLen.toNat) (ho : s.dec.opos.toNat + k ≤ s.caps.outCap.toNat) :
    DecoderInv (copied k s) := by
  have hsec := s.dec.secLen.isLt
  have hcap := s.caps.outCap.isLt
  have hpay := ofNat16_toNat_add s.dec.payPos k (by omega)
  have hopos := ofNat32_toNat_add s.dec.opos k (by omega)
  have hin := h.inSection ha (by rw [hs]; rfl)
  refine { h with opos := fun _ => ?_, written := fun _ a hlt => ?_, inSection := fun _ _ => ⟨hin.1, ?_⟩ }
  · exact hopos.trans_le ho
  · exact h.written_writeUp ha _ (by rw [length_readBytes]; exact hopos ▸ hlt)
  · exact hpay.trans_le hk

/-- The state with a DeltaIter loaded (R184, R188). -/
theorem DecoderInv.loadDelta (hs : s.dec.state = .interpretingInstructions)
    (hfit : s.dec.payPos.toNat + 5 ≤ s.dec.secLen.toNat) (start : Byte) (count : Half) (delta : Byte) :
    DecoderInv (loadDelta start count delta s) := by
  have hsec := s.dec.secLen.isLt
  have hin := h.inSection ha (by rw [hs]; rfl)
  have htype := h.type ha (by rw [hs]; rfl)
  rw [hs] at htype
  refine { h with
    running := fun _ => by simp
    done := fun _ hd => by simp at hd
    inSection := fun _ _ => ⟨hin.1, ?_⟩
    type := fun _ _ => htype
    run := fun _ _ => ⟨Nat.zero_le _, ?_⟩ }
  · exact (ofNat16_toNat_add s.dec.payPos 5 (by omega)).trans_le hfit
  · simp

theorem DecoderInv.closeDelta (hs : s.dec.state = .emittingRun) : DecoderInv (closeDelta s) := by
  have htype := h.type ha (by rw [hs]; rfl)
  rw [hs] at htype
  exact { h with
    running := fun _ => by simp
    done := fun _ hd => by simp at hd
    inSection := fun _ _ => h.inSection ha (by rw [hs]; rfl)
    type := fun _ _ => htype
    run := fun _ hd => by simp at hd }

/-- The state `n` bytes further in a run (R185, R189). -/
theorem DecoderInv.emitted {n : Nat}
    (hn : s.dec.diK.toNat + n ≤ s.dec.diCount.toNat) (ho : s.dec.opos.toNat + n ≤ s.caps.outCap.toNat) :
    DecoderInv (emitted s.dec.diStart s.dec.diDelta n s) := by
  have hcount := s.dec.diCount.isLt
  have hcap := s.caps.outCap.isLt
  have hk := ofNat16_toNat_add s.dec.diK n (by omega)
  have hopos := ofNat32_toNat_add s.dec.opos n (by omega)
  refine { h with opos := fun _ => ?_, written := fun _ a hlt => ?_, run := fun _ _ => ⟨?_, ?_⟩ }
  · exact hopos.trans_le ho
  · exact h.written_writeUp ha _ (by rw [length_runSlice]; exact hopos ▸ hlt)
  · exact hk.trans_le hn
  · simp only [Machine.emitted, hk, runByte]

/-! ### The ticks of the step table (R188) -/

/-- DI_VAL is the byte of index DI_K. -/
theorem DecoderInv.diVal_eq (hs : s.dec.state = .emittingRun) :
    s.dec.diVal = runByte s.dec.diStart s.dec.diDelta s.dec.diK.toNat := (h.run ha hs).2

omit ha in
theorem DecoderInv.enterSection (y : SecType) (length : Half) : DecoderInv (enterSection y length s).state := by
  rcases Nat.lt_or_ge s.n (s.dec.pc.toNat + 3 + length.toNat) with hlt | hfit
  · rw [enterSection_truncated y hlt]
    exact .decFatal _ s
  · rw [enterSection_fits y hfit]
    exact h.entered y length hfit

theorem DecoderInv.tickHeader : DecoderInv (tickHeader s) := by
  unfold Machine.tickHeader
  split
  · rcases fetchSection_cases s with ⟨-, hf⟩ | ⟨-, ⟨-, -, hf⟩ | ⟨-, hf⟩ | ⟨-, hf⟩⟩ <;> simp only [hf]
    case inl | inr.inl => exact .decFatal _ s
    case inr.inr.inl => exact h.enterSection .data _
    case inr.inr.inr => exact h.enterSection .code _
  · have hpc := h.pc ha
    exact { h with
      running := fun _ => by simp
      done := fun _ _ => by show s.dec.pc.toNat = s.n; omega
      inSection := fun _ hd => by simp [DecState.inSection] at hd
      type := fun _ hd => by simp [DecState.inSection] at hd
      run := fun _ hd => by simp at hd }

theorem DecoderInv.tickInterpret (hs : s.dec.state = .interpretingInstructions) : DecoderInv (tickInterpret s) := by
  unfold Machine.tickInterpret
  split
  case isTrue hlt =>
    rcases fetchInstruction_cases s hlt with ⟨-, hf⟩ | ⟨-, ⟨-, hf⟩ | ⟨hfit, hf⟩⟩ <;> simp only [hf]
    · exact .decFatal _ s
    · exact .decFatal _ s
    · exact h.loadDelta ha hs hfit _ _ _
  case isFalse => exact h.closeSection ha (by rw [hs]; rfl)

theorem DecoderInv.decTick : DecoderInv (decTick s) := by
  unfold Machine.decTick
  split
  case h_1 => exact h
  case h_2 => exact h.tickHeader ha
  case h_3 hs =>
    split
    case isTrue hlt =>
      rcases copyByte_cases s with ⟨-, he⟩ | ⟨hroom, he⟩ <;> rw [he]
      · exact .decFatal _ s
      · exact h.copied ha hs hlt hroom
    case isFalse => exact h.closeSection ha (by rw [hs]; rfl)
  case h_4 hs => exact h.tickInterpret ha hs
  case h_5 hs =>
    split
    case isTrue hlt =>
      rcases emitRunByte_cases (h.diVal_eq ha hs) with ⟨-, he⟩ | ⟨hroom, he⟩ <;> rw [he]
      · exact .decFatal _ s
      · exact h.emitted ha hlt hroom
    case isFalse => exact h.closeDelta ha hs
  case h_6 => exact .of_inactive (by simp [decodeDone])
  case h_7 => exact h

/-! ### The whole instructions (R183 to R185) -/

theorem DecoderInv.runData (length : Half) : DecoderInv (runData length s).state := by
  rcases Nat.lt_or_ge s.n (s.dec.pc.toNat + 3 + length.toNat) with hlt | hfit
  · rw [Machine.runData, enterSection_truncated .data hlt]
    exact .decFatal _ s
  rcases Nat.lt_or_ge s.caps.outCap.toNat (s.dec.opos.toNat + length.toNat) with hfull | hroom
  · exact .endedFull (runData_full hfit (h.opos ha) hfull)
  · rw [runData_fits hfit hroom]
    have hpay : (Machine.entered .data length s).dec.payPos.toNat + length.toNat ≤ length.toNat :=
      (Nat.zero_add _).le
    exact ((h.entered .data length hfit).copied ha rfl hpay hroom).closeSection ha rfl

/-- After a DeltaIter of the payload the decoder is back in InterpretingInstructions. -/
theorem DecoderInv.emittedRun (hs : s.dec.state = .interpretingInstructions)
    (hfit : s.dec.payPos.toNat + 5 ≤ s.dec.secLen.toNat) (start : Byte) {count : Half} (delta : Byte)
    (hroom : s.dec.opos.toNat + count.toNat ≤ s.caps.outCap.toNat) :
    DecoderInv (Machine.closeDelta
      (Machine.emitted start delta count.toNat (Machine.loadDelta start count delta s))) := by
  have hk : (Machine.loadDelta start count delta s).dec.diK.toNat + count.toNat ≤ count.toNat := (Nat.zero_add _).le
  exact ((h.loadDelta ha hs hfit start count delta).emitted ha hk hroom).closeDelta ha rfl

theorem DecoderInv.runDeltaIter (hs : s.dec.state = .interpretingInstructions)
    (hfit : s.dec.payPos.toNat + 5 ≤ s.dec.secLen.toNat) (start : Byte) (count : Half) (delta : Byte) :
    DecoderInv (runDeltaIter start count delta s).state := by
  rcases Nat.lt_or_ge s.caps.outCap.toNat (s.dec.opos.toNat + count.toNat) with hfull | hroom
  · exact .endedFull (runDeltaIter_full start delta (h.opos ha) hfull)
  · rw [runDeltaIter_fits start delta hroom]
    exact h.emittedRun ha hs hfit start delta hroom

theorem DecoderInv.interpret (hs : s.dec.state = .interpretingInstructions) (fuel : Nat) :
    DecoderInv (interpret fuel s).state := by
  induction fuel generalizing s with
  | zero => exact h.closeSection ha (by rw [hs]; rfl)
  | succ fuel ih =>
    unfold Machine.interpret
    split
    case isTrue hlt =>
      rcases fetchInstruction_cases s hlt with ⟨-, hf⟩ | ⟨-, ⟨-, hf⟩ | ⟨hfit, hf⟩⟩ <;> simp only [hf]
      · exact .decFatal _ s
      · exact .decFatal _ s
      · rw [runInstruction]
        rcases Nat.lt_or_ge s.caps.outCap.toNat (s.dec.opos.toNat + (s.in2 (tagOffset s + 2)).toNat) with hfull | hroom
        · obtain ⟨u, -, he⟩ :=
            runDeltaIter_full (s.in1 (tagOffset s + 1)) (s.in1 (tagOffset s + 4)) (h.opos ha) hfull
          rw [he]
          exact .decFatal _ u
        · rw [runDeltaIter_fits _ _ hroom]
          exact ih (h.emittedRun ha hs hfit _ _ hroom) ha rfl
    case isFalse => exact h.closeSection ha (by rw [hs]; rfl)

theorem DecoderInv.runCode (length : Half) : DecoderInv (runCode length s).state := by
  rcases Nat.lt_or_ge s.n (s.dec.pc.toNat + 3 + length.toNat) with hlt | hfit
  · rw [Machine.runCode, enterSection_truncated .code hlt]
    exact .decFatal _ s
  · rw [Machine.runCode, enterSection_fits .code hfit]
    exact (h.entered .code length hfit).interpret ha rfl _

/-! ### Every step -/

/-- The whole turn of a running decoder: the fetched instruction, or a tick between instructions. -/
theorem DecoderInv.blockWhole {t : State} (he : blockWhole s = .next t) : DecoderInv t := by
  rcases blockWhole_cases s with ⟨i, hf, hb⟩ | ⟨-, hb⟩ | ⟨e, -, hb⟩ <;> rw [hb] at he
  · rcases fetch_decoder_cases ha with hd | ⟨-, -, hd⟩ | ⟨hs, hlt, hd⟩ <;> rw [hd] at hf
    · cases hf
    · rcases fetchSection_cases s with ⟨-, hi⟩ | ⟨-, ⟨-, -, hi⟩ | ⟨-, hi⟩ | ⟨-, hi⟩⟩ <;> rw [hi] at hf <;> cases hf <;>
        cases he
      · exact h.runData ha _
      · exact h.runCode ha _
    · rcases fetchInstruction_cases s hlt with ⟨-, hi⟩ | ⟨-, ⟨-, hi⟩ | ⟨hfit, hi⟩⟩ <;> rw [hi] at hf <;> cases hf
      cases he
      exact h.runDeltaIter ha hs hfit _ _ _
  · cases he
    simp only [unitTick, ha]
    exact h.decTick ha
  · cases he
    simp only [raiseFetch, ha]
    exact .decFatal e s

theorem DecoderInv.blockTick {t : State} (he : blockTick s = .next t) : DecoderInv t := by
  simp only [Machine.blockTick, unitTick, ha] at he
  cases he
  exact h.decTick ha

end

/-- The decoder begins DECOMPRESS at offset 0 of the stream and of OUT (R40). -/
theorem DecoderInv.beginUnit_decoder (s : State) : DecoderInv (beginUnit .decoder startDecoder s) := by
  rcases beginUnit_cases .decoder startDecoder s with hb | ⟨hcap, hb⟩ <;> rw [hb]
  · exact .of_inactive (by simp)
  · exact .of_readingHeader rfl hcap (Nat.zero_le _) (Nat.zero_le _) fun a ha => absurd ha (Nat.not_lt_zero a)

theorem DecoderInv.block {s t : State} (h : DecoderInv s)
    (he : Machine.blockWhole s = .next t ∨ Machine.blockTick s = .next t) :
    DecoderInv t := by
  by_cases ha : s.active = .decoder
  · exact he.elim (h.blockWhole ha) (h.blockTick ha)
  · rcases block_keeps_inactive (by simp) ha he with ht | rfl | rfl
    · exact .of_inactive ht
    · rcases beginUnit_cases .encoder startEncoder s with hb | ⟨-, hb⟩ <;> rw [hb]
      · exact .of_inactive (by simp)
      · exact .of_inactive (by simp)
    · exact .beginUnit_decoder s

theorem DecoderInv.hostAct {a : HostAction} {s t : State} (h : DecoderInv s) (ha : hostAct a s = .next t) :
    DecoderInv t := by
  rcases hostAct_cases ha with ⟨_, _, rfl⟩ | ⟨_, _, _, _, _, -, rfl⟩ | ⟨-, rfl⟩ | ⟨_, _, -, rfl⟩ | rfl
  · exact h.of_eq rfl rfl rfl rfl rfl
  · exact h.of_eq rfl rfl rfl rfl rfl
  · exact .of_inactive (by simp)
  · exact h.of_eq rfl rfl rfl rfl rfl
  · exact .of_inactive (by simp)

/-- Settles O5: each action of the step table keeps the bounds, so each tick and each whole instruction of a running decoder does; the
host can only read, write IN and the operand registers, or stop the decoder. -/
theorem stepKeepsDecoderBounds : Obligations.StepKeepsDecoderBounds := by
  intro s t h he
  have hdrop : DecoderInv (dropTurn s) := h.of_eq rfl rfl rfl rfl rfl
  rcases step_cases s with ⟨-, hs⟩ | ⟨-, hs⟩ | ⟨a, -, hs⟩ <;> rw [hs] at he
  · exact hdrop.block (.inl he)
  · exact hdrop.block (.inr he)
  · exact hdrop.hostAct he

end Sys2Proof.Machine
end

section
/-! PROOFS. Every step keeps the running encoder's cursors in bounds, its runs within the cap, its sections within their bound, and the
stream in OUT at the end (10_state.md R38, R39; 41_encoder.md R143, R150, R154, R159; 40_section_framer.md R113). -/

namespace Sys2Proof.Machine

/-! ### The detector's bounds (R143, R154) -/

theorem runEnd_bounds (b : List Byte) (a : Nat) (delta : Byte) (fuel : Nat) {j : Nat} (hj : j ≤ b.length)
    (hrun : j - a ≤ 65535) :
    j ≤ runEnd b a delta fuel j ∧ runEnd b a delta fuel j ≤ b.length ∧ runEnd b a delta fuel j - a ≤ 65535 := by
  induction fuel generalizing j with
  | zero => exact ⟨Nat.le_refl j, hj, hrun⟩
  | succ fuel ih =>
    unfold runEnd Config.maxCount
    split
    case isTrue h =>
      obtain ⟨hlt, hcap, -⟩ := h
      obtain ⟨hle, hend, hmax⟩ := ih (j := j + 1) hlt (by omega)
      exact ⟨by omega, hend, hmax⟩
    case isFalse => exact ⟨Nat.le_refl j, hj, hrun⟩

theorem detectRun_bounds {b : List Byte} {a : Nat} (h : a + 2 ≤ b.length) :
    a + 2 ≤ (detectRun b a).2 ∧ (detectRun b a).2 ≤ b.length ∧ (detectRun b a).2 - a ≤ 65535 :=
  runEnd_bounds b a _ b.length h (by omega)

/-! ### The sections' bound (R113) -/

theorem asSection_bounded (r : AccRegs) : r.asSection.payload.length ≤ 65535 :=
  (List.length_take_le _ _).trans (Nat.le_of_lt_succ r.len.isLt)

theorem mergeSame_bounded {a b : Section} (ha : a.payload.length ≤ 65535) (hb : b.payload.length ≤ 65535) :
    (mergeSame a b).1.payload.length ≤ 65535 ∧ ∀ o, (mergeSame a b).2 = some o → o.payload.length ≤ 65535 := by
  rcases mergeSame_cases a b with ⟨hle, hm⟩ | ⟨hgt, hm⟩ <;> rw [hm]
  · exact ⟨by simpa using hle, fun o ho => by cases ho⟩
  · refine ⟨by simp; omega, fun o ho => ?_⟩
    cases ho
    simp
    omega

/-- ACC_LEN is the length of ACC after a load (R39). -/
theorem accOf_inv {x : Section} (h : x.payload.length ≤ 65535) :
    (accOf x).len.toNat = (accOf x).data.length ∧ (accOf x).type.toNat ≤ 1 :=
  ⟨by simp only [accOf, BitVec.toNat_ofNat]; omega, tagByte_le x.type⟩

/-- A fold step takes `x` off the raw list, puts at most one bounded section out and leaves a bounded one in the accumulator (R155). -/
theorem flushFold_bounded {x : Section} (hx : x.payload.length ≤ 65535) (rest : List Section) (s : State) :
    ∃ more y, (∀ z ∈ more, z.payload.length ≤ 65535) ∧ y.payload.length ≤ 65535 ∧
      flushFold x rest s =
        { s with enc := { s.enc with raw := rest, outs := s.enc.outs ++ more }, acc := accOf y } := by
  have hacc := asSection_bounded s.acc
  obtain ⟨hmerged, hover⟩ := mergeSame_bounded hacc hx
  unfold flushFold
  split
  · split
    · split
      case h_1 m hm =>
        rw [hm] at hmerged
        exact ⟨[], m, by simp, hmerged, by simp⟩
      case h_2 m o hm =>
        rw [hm] at hmerged hover
        exact ⟨[m], o, by simpa using hmerged, hover o rfl, rfl⟩
    · exact ⟨[s.acc.asSection], x, by simpa using hacc, hx, rfl⟩
  · exact ⟨[], x, by simp, hx, by simp⟩

theorem lookup_writeBytes {bytes : List Byte} {k : Nat} (hk : k < bytes.length) (m : Memory) :
    lookupCell (m.writeBytes 0 bytes).cells k = some (bytes.getD k 0) := by
  obtain ⟨v, hv⟩ := Option.isSome_iff_exists.mp
    (lookup_writeBytes_isSome m 0 bytes k ⟨Nat.zero_le k, by rwa [Nat.zero_add]⟩)
  have hread := read_writeBytes_inside k bytes hk 0 m
  rw [Nat.zero_add, Memory.read, hv, Option.getD_some] at hread
  rw [hv, hread]

/-! ### The steps of the encoder keep its invariant -/

theorem EncoderInv.of_eq {s t : State} (h : EncoderInv s) (hactive : t.active = s.active) (hlatch : t.latch = s.latch)
    (hcaps : t.caps = s.caps) (henc : t.enc = s.enc) (hacc : t.acc = s.acc) (hout : t.outBuf = s.outBuf) :
    EncoderInv t := by
  have hn : t.n = s.n := by rw [State.n, hlatch, State.n]
  constructor <;> rw [hactive]
  · rw [hn, hcaps]; exact h.cap
  · rw [hn, henc]; exact h.anchor
  · rw [henc]; exact h.running
  · rw [hn, henc]; exact h.run
  · rw [henc]; exact h.threshold
  · rw [hn, henc]; exact h.breakByte
  · rw [hn, henc]; exact h.tail
  · rw [henc]; exact h.sections
  · rw [hacc]; exact h.acc
  · rw [henc, hcaps, hout]; exact h.done

/-- In Detect and Flush only ANCHOR, the section lists and the accumulator are bound. -/
theorem EncoderInv.of_detect_or_flush {t : State} (hs : t.enc.state = .detect ∨ t.enc.state = .flush)
    (hcap : t.n ≤ t.caps.inCap.toNat) (hanchor : t.enc.anchor.toNat ≤ t.n)
    (hsections : ∀ x ∈ t.enc.raw ++ t.enc.outs, x.payload.length ≤ 65535)
    (hacc : t.acc.valid = true → t.acc.len.toNat = t.acc.data.length ∧ t.acc.type.toNat ≤ 1) : EncoderInv t := by
  constructor <;> intro _
  case cap => exact hcap
  case anchor => exact hanchor
  case sections => exact hsections
  case acc => exact hacc
  all_goals rcases hs with hs | hs <;> simp [hs]

theorem EncoderInv.encFatal (e : FatalErr) (s : State) : EncoderInv (encFatal e s) := .of_inactive (by simp)

section
variable {s : State} (h : EncoderInv s) (ha : s.active = .encoder)
include h ha

/-- One bounded section more in the raw list. -/
theorem EncoderInv.sections_append {x : Section} (hx : x.payload.length ≤ 65535) :
    ∀ z ∈ (s.enc.raw ++ [x]) ++ s.enc.outs, z.payload.length ≤ 65535 := by
  intro z hz
  simp only [List.mem_append, List.mem_singleton] at hz
  rcases hz with (hz | rfl) | hz
  · exact h.sections ha z (List.mem_append_left _ hz)
  · exact hx
  · exact h.sections ha z (List.mem_append_right _ hz)

theorem EncoderInv.emitRaw {x : Section} (hx : x.payload.length ≤ 65535) {anchor : Nat} (hle : anchor ≤ s.n) :
    EncoderInv (emitRaw x anchor s) := by
  have hn := s.latch.aLen.isLt
  have hanchor : (BitVec.ofNat 32 anchor).toNat = anchor := by
    simp only [State.n] at hle
    simp only [BitVec.toNat_ofNat]
    omega
  exact .of_detect_or_flush (.inl rfl) (h.cap ha) (hanchor.trans_le hle) (h.sections_append ha hx) (h.acc ha)

theorem EncoderInv.tickDetect : EncoderInv (tickDetect s) := by
  rcases tickDetect_cases s with ⟨htail, hd⟩ | ⟨hfit, hd⟩ | ⟨-, hd⟩ | ⟨-, -, hd⟩ <;> rw [hd]
  · exact { h with
      running := fun _ => by simp
      run := fun _ hs => by simp at hs
      threshold := fun _ => by simp
      breakByte := fun _ hs => by simp at hs
      tail := fun _ _ => htail
      done := fun _ hs => by simp at hs }
  · have hn := s.latch.aLen.isLt
    have hlen : s.input.length = s.n := length_readBytes _ _ _
    obtain ⟨hlo, hhi, hmax⟩ := detectRun_bounds (b := s.input) (hlen ▸ hfit)
    rw [hlen, State.n] at hhi
    have hj : (detectRun s.input s.enc.anchor.toNat).2 % 4294967296 = (detectRun s.input s.enc.anchor.toNat).2 :=
      Nat.mod_eq_of_lt (by omega)
    have hrunLen : ((detectRun s.input s.enc.anchor.toNat).2 - s.enc.anchor.toNat - 1) % 4294967296 =
        (detectRun s.input s.enc.anchor.toNat).2 - s.enc.anchor.toNat - 1 := Nat.mod_eq_of_lt (by omega)
    refine { h with
      running := fun _ => by split <;> simp
      run := fun _ _ => ?_
      threshold := fun _ => ?_
      breakByte := fun _ hs => by split at hs <;> cases hs
      tail := fun _ hs => by split at hs <;> cases hs
      done := fun _ hs => by split at hs <;> cases hs }
    · simp only [BitVec.toNat_ofNat, Nat.reducePow, hj, hrunLen, and_true]
      exact ⟨hlo, hhi, hmax⟩
    · simp only [BitVec.toNat_ofNat, Nat.reducePow, hrunLen]
      by_cases hlong : (detectRun s.input s.enc.anchor.toNat).2 - s.enc.anchor.toNat - 1 > 10
      · simp [hlong]
      · simp [hlong, Nat.le_of_not_lt hlong]
  · exact .of_detect_or_flush (.inr rfl) (h.cap ha) (h.anchor ha) (h.sections_append ha (Nat.zero_le _)) (h.acc ha)
  · exact .of_detect_or_flush (.inr rfl) (h.cap ha) (h.anchor ha) (h.sections ha) (h.acc ha)

theorem EncoderInv.tickEmitCode : EncoderInv (tickEmitCode s) := by
  have hx : (runSectionOf s.input s.enc.anchor.toNat s.enc.j.toNat s.enc.delta).payload.length ≤ 65535 :=
    show 5 ≤ 65535 by decide
  unfold Machine.tickEmitCode
  split
  case isTrue hlt =>
    exact { h with
      running := fun _ => by simp
      run := fun _ hs => by simp at hs
      threshold := fun _ => by simp
      breakByte := fun _ _ => hlt
      tail := fun _ hs => by simp at hs
      sections := fun _ => h.sections_append ha hx
      done := fun _ hs => by simp at hs }
  case isFalse => exact h.emitRaw ha hx (Nat.le_refl _)

/-- The end of Flush leaves the stream of the coalesced list in OUT, or ends the command (R159). -/
theorem EncoderInv.flushWrite : EncoderInv (flushWrite s) := by
  have houts : serialize s.enc.outs = streamBytes s.enc.outs :=
    serialize_eq _ fun x hx => h.sections ha x (List.mem_append_right _ hx)
  rcases memWrite_cases 0 (serialize s.enc.outs) s with ⟨-, hw⟩ | ⟨hle, hw⟩ <;> simp only [Machine.flushWrite, hw]
  · exact .encFatal _ s
  · rw [Nat.zero_add, houts] at hle
    exact { h with
      running := fun _ => by simp
      run := fun _ hs => by simp at hs
      threshold := fun _ => by simp
      breakByte := fun _ hs => by simp at hs
      tail := fun _ hs => by simp at hs
      done := fun _ _ => ⟨hle, fun k hk => by rw [houts]; exact lookup_writeBytes hk s.outBuf⟩ }

theorem EncoderInv.tickFlush (hs : s.enc.state = .flush) : EncoderInv (tickFlush s) := by
  have hsections := h.sections ha
  unfold Machine.tickFlush
  split
  case h_1 x rest hraw =>
    simp only [hraw, List.cons_append, List.mem_cons, List.mem_append, forall_eq_or_imp] at hsections
    obtain ⟨hx, hrest⟩ := hsections
    obtain ⟨more, y, hmore, hy, he⟩ := flushFold_bounded hx rest s
    rw [he]
    refine .of_detect_or_flush (.inr hs) (h.cap ha) (h.anchor ha) (fun z hz => ?_) (fun _ => accOf_inv hy)
    simp only [List.mem_append] at hz
    rcases hz with hz | hz | hz
    · exact hrest z (.inl hz)
    · exact hrest z (.inr hz)
    · exact hmore z hz
  case h_2 =>
    split
    · refine .of_detect_or_flush (.inr hs) (h.cap ha) (h.anchor ha) (fun z hz => ?_) (fun hv => by cases hv)
      rw [← List.append_assoc, List.mem_append, List.mem_singleton] at hz
      rcases hz with hz | rfl
      · exact hsections z hz
      · exact asSection_bounded s.acc
    · exact h.flushWrite ha

theorem EncoderInv.encTick : EncoderInv (encTick s) := by
  unfold Machine.encTick
  split
  case h_1 => exact h
  case h_2 => exact h.tickDetect ha
  case h_3 => exact h.tickEmitCode ha
  case h_4 hs =>
    have hx : (byteSection s.input s.enc.j.toNat).payload.length ≤ 65535 := show 1 ≤ 65535 by decide
    exact h.emitRaw ha hx (h.breakByte ha hs)
  case h_5 hs =>
    obtain ⟨-, hj, hmax, -⟩ := h.run ha (.inr hs)
    have hx : (literalSection s.input s.enc.anchor.toNat s.enc.j.toNat).payload.length ≤ 65535 :=
      (List.length_take_le _ _).trans hmax
    exact h.emitRaw ha hx hj
  case h_6 =>
    have hx : (byteSection s.input s.enc.anchor.toNat).payload.length ≤ 65535 := show 1 ≤ 65535 by decide
    exact h.emitRaw ha hx (Nat.le_refl _)
  case h_7 hs => exact h.tickFlush ha hs
  case h_8 => exact .of_inactive (by simp [encodeDone])
  case h_9 => exact h

end

/-! ### Every step -/

/-- The encoder begins COMPRESS at anchor 0, its lists empty and nothing in the accumulator (R40). -/
theorem EncoderInv.beginUnit_encoder (s : State) : EncoderInv (beginUnit .encoder startEncoder s) := by
  rcases beginUnit_cases .encoder startEncoder s with hb | ⟨hcap, hb⟩ <;> rw [hb]
  · exact .of_inactive (by simp)
  · exact .of_detect_or_flush (.inl rfl) hcap (Nat.zero_le _) (fun x hx => by simp at hx) (fun hv => by simp at hv)

theorem EncoderInv.hostAct {a : HostAction} {s t : State} (h : EncoderInv s) (ha : hostAct a s = .next t) :
    EncoderInv t := by
  rcases hostAct_cases ha with ⟨_, _, rfl⟩ | ⟨_, _, _, _, _, -, rfl⟩ | ⟨-, rfl⟩ | ⟨_, _, -, rfl⟩ | rfl
  · exact h.of_eq rfl rfl rfl rfl rfl rfl
  · exact h.of_eq rfl rfl rfl rfl rfl rfl
  · exact .of_inactive (by simp)
  · exact h.of_eq rfl rfl rfl rfl rfl rfl
  · exact .of_inactive (by simp)

theorem EncoderInv.block {s t : State} (h : EncoderInv s)
    (he : blockWhole s = .next t ∨ blockTick s = .next t) : EncoderInv t := by
  by_cases ha : s.active = .encoder
  · have ht : t = Machine.encTick s := by
      rcases he with he | he
      · simp only [blockWhole, fetch, unitTick, ha] at he
        cases he
        rfl
      · simp only [blockTick, unitTick, ha] at he
        cases he
        rfl
    rw [ht]
    exact h.encTick ha
  · rcases block_keeps_inactive (by simp) ha he with ht | rfl | rfl
    · exact .of_inactive ht
    · exact .beginUnit_encoder s
    · rcases beginUnit_cases .decoder startDecoder s with hb | ⟨-, hb⟩ <;> rw [hb]
      · exact .of_inactive (by simp)
      · exact .of_inactive (by simp)

/-- Settles O6: each step of the encoder's order keeps the bounds; the host can only read, write IN and the operand registers, or stop
the encoder. -/
theorem stepKeepsEncoderBounds : Obligations.StepKeepsEncoderBounds := by
  intro s t h he
  have hdrop : EncoderInv (dropTurn s) := h.of_eq rfl rfl rfl rfl rfl rfl
  rcases step_cases s with ⟨-, hs⟩ | ⟨-, hs⟩ | ⟨a, -, hs⟩ <;> rw [hs] at he
  · exact hdrop.block (.inl he)
  · exact hdrop.block (.inr he)
  · exact hdrop.hostAct he

end Sys2Proof.Machine
end

section
/-! PROOFS. A command's result depends only on its latched operands, the capacities and `IN[0 .. A_LEN-1]` (10_state.md R25, R40): two
states that agree in these are run side by side. -/

namespace Sys2Proof.Machine

/-! ### What a command may depend on, and what the host sees of its end -/

/-- Equal latched operands, capacities and bytes of IN below A_LEN. -/
structure SameInput (s u : State) : Prop where
  latch : s.latch = u.latch
  caps : s.caps = u.caps
  read : ∀ a, a < s.n → s.inBuf.read a = u.inBuf.read a

/-- The host reads the same result: STATUS, the result registers and `OUT[0 .. OUT_LEN-1]`. -/
structure SameResult (t v : State) : Prop where
  status : t.regs.status = v.regs.status
  outLen : t.regs.outLen = v.regs.outLen
  resLen : t.regs.resLen = v.regs.resLen
  errOff : t.regs.errOff = v.regs.errOff
  out : ∀ a, a < t.regs.outLen.toNat → t.outBuf.read a = v.outBuf.read a

/-- The two buffers list the same bytes below `n`, and all of them. -/
def SameBelow (n : Nat) (m m' : Memory) : Prop :=
  ∀ a, a < n → ∃ v, lookupCell m.cells a = some v ∧ lookupCell m'.cells a = some v

theorem SameBelow.zero (m m' : Memory) : SameBelow 0 m m' := fun a ha => absurd ha (Nat.not_lt_zero a)

theorem SameBelow.write {n : Nat} {m m' : Memory} (h : SameBelow n m m') (v : Byte) :
    SameBelow (n + 1) (m.write n v) (m'.write n v) := by
  intro a ha
  by_cases hn : a = n
  · subst hn
    exact ⟨v, lookup_insert_same a v _, lookup_insert_same a v _⟩
  · obtain ⟨w, hm, hm'⟩ := h a (by omega)
    exact ⟨w, (lookup_insert_other hn v _).trans hm, (lookup_insert_other hn v _).trans hm'⟩

theorem SameBelow.writeUp {n : Nat} {m m' : Memory} (h : SameBelow n m m') (bytes : List Byte) :
    SameBelow (n + bytes.length) (m.writeUp n bytes) (m'.writeUp n bytes) := by
  induction bytes generalizing n m m' with
  | nil => exact h
  | cons v rest ih =>
    have hrest := ih (h.write v)
    rwa [Nat.add_assoc, Nat.add_comm 1, ← List.length_cons] at hrest

theorem SameBelow.writeBytes (m m' : Memory) (bytes : List Byte) :
    SameBelow bytes.length (m.writeBytes 0 bytes) (m'.writeBytes 0 bytes) :=
  fun a ha => ⟨bytes.getD a 0, lookup_writeBytes ha m, lookup_writeBytes ha m'⟩

theorem SameResult.raiseFatal (e : FatalErr) (s u : State) : SameResult (raiseFatal e s) (raiseFatal e u) :=
  ⟨rfl, rfl, rfl, rfl, fun a ha => absurd ha (Nat.not_lt_zero a)⟩

theorem SameResult.finishFail {s u : State} (h : SameInput s u) : SameResult (finishFail s) (finishFail u) :=
  ⟨rfl, rfl, rfl, congrArg Latch.aOff h.latch, fun a ha => absurd ha (Nat.not_lt_zero a)⟩

theorem SameResult.finishOk {n : Nat} {s u : State} (h : SameBelow n s.outBuf u.outBuf) (resLen : Nat) (resType : Byte)
    (hasOvf : Bool) : SameResult (finishOk n resLen resType hasOvf s) (finishOk n resLen resType hasOvf u) := by
  refine ⟨rfl, rfl, rfl, rfl, fun a ha => ?_⟩
  have hlt : a < n := Nat.lt_of_lt_of_le ha (by simp [Nat.mod_le])
  obtain ⟨v, hs, hu⟩ := h a hlt
  simp [read_keepBelow, hlt, hs, hu]

/-! ### The framer's commands read nothing else -/

section
variable {s u : State} (h : SameInput s u)
include h

theorem SameInput.n_eq : s.n = u.n := by rw [State.n, h.latch, State.n]

theorem SameInput.aOff_eq : s.aOff = u.aOff := by rw [State.aOff, h.latch, State.aOff]

theorem SameInput.bOff_eq : s.bOff = u.bOff := by rw [State.bOff, h.latch, State.bOff]

theorem SameInput.pLen_eq : s.pLen = u.pLen := by rw [State.pLen, h.latch, State.pLen]

theorem SameInput.startError_eq : startError s = startError u := by rw [startError, h.n_eq, h.caps, startError]

theorem SameInput.inBytes_eq {a k : Nat} (hfit : a + k ≤ s.n) : s.inBytes a k = u.inBytes a k :=
  readBytes_congr fun x _ hx => h.read x (by omega)

theorem SameInput.in1_eq {a : Nat} (hlt : a < s.n) : s.in1 a = u.in1 a := h.read a hlt

theorem SameInput.in2_eq {a : Nat} (hlt : a + 1 < s.n) : s.in2 a = u.in2 a := by
  rw [State.in2, h.read a (by omega), h.read (a + 1) hlt, State.in2]

theorem SameInput.input_eq : s.input = u.input := by
  rw [State.input, h.inBytes_eq (Nat.zero_add s.n).le, h.n_eq, State.input]

theorem SameInput.payloadOperand_eq : payloadOperand s = payloadOperand u := by
  unfold payloadOperand
  rw [← h.aOff_eq, ← h.pLen_eq, ← h.n_eq]
  split
  · rfl
  · rw [h.inBytes_eq (by omega)]

theorem SameInput.readHeader_eq (off : Nat) : readHeader s off = readHeader u off := by
  unfold readHeader Config.headerLen
  rw [← h.n_eq]
  split
  · rfl
  · rw [h.in1_eq (by omega), h.in2_eq (by omega)]

theorem SameInput.readSection_eq (off : Nat) : readSection s off = readSection u off := by
  unfold readSection Config.headerLen
  rw [h.readHeader_eq off, ← h.n_eq]
  split
  · rfl
  · split
    · rfl
    · rw [h.inBytes_eq (by omega)]

theorem SameInput.encodeHeaderOutcome_eq (type : Byte) : encodeHeaderOutcome type s = encodeHeaderOutcome type u := by
  rw [encodeHeaderOutcome, h.pLen_eq, encodeHeaderOutcome]

theorem SameInput.tryMakeSectionOutcome_eq (type : Byte) :
    tryMakeSectionOutcome type s = tryMakeSectionOutcome type u := by
  rw [tryMakeSectionOutcome, sectionOutcome, h.payloadOperand_eq, tryMakeSectionOutcome, sectionOutcome]

theorem SameInput.makeSectionOutcome_eq (type : Byte) : makeSectionOutcome type s = makeSectionOutcome type u := by
  rw [makeSectionOutcome, sectionOutcome, h.payloadOperand_eq, h.aOff_eq, makeSectionOutcome, sectionOutcome]

theorem SameInput.readHeaderOutcome_eq : readHeaderOutcome s = readHeaderOutcome u := by
  rw [readHeaderOutcome, h.aOff_eq, h.readHeader_eq, readHeaderOutcome]

theorem SameInput.readPayloadOutcome_eq : readPayloadOutcome s = readPayloadOutcome u := by
  rw [readPayloadOutcome, h.aOff_eq, h.readSection_eq, readPayloadOutcome]

theorem SameInput.mergeOutcome_eq : mergeOutcome s = mergeOutcome u := by
  unfold mergeOutcome
  simp only [h.aOff_eq, h.bOff_eq, h.readSection_eq]

theorem SameInput.memWrite_cases (a : Nat) (bytes : List Byte) :
    (∃ e, memWrite a bytes s = .error e ∧ memWrite a bytes u = .error e) ∨
    (memWrite a bytes s = .ok { s with outBuf := s.outBuf.writeBytes a bytes } ∧
      memWrite a bytes u = .ok { u with outBuf := u.outBuf.writeBytes a bytes }) := by
  unfold memWrite
  rw [← h.caps]
  split
  · exact .inl ⟨_, rfl, rfl⟩
  · exact .inr ⟨rfl, rfl⟩

theorem SameInput.complete (o : CmdOutcome) : SameResult (complete o s) (complete o u) := by
  cases o with
  | ok out resLen resType hasOvf =>
    rcases h.memWrite_cases 0 out with ⟨e, hs, hu⟩ | ⟨hs, hu⟩ <;> simp only [Machine.complete, hs, hu]
    · exact .raiseFatal e s u
    · exact .finishOk (SameBelow.writeBytes s.outBuf u.outBuf out) resLen resType hasOvf
  | fail => exact .finishFail h
  | fatal e => exact .raiseFatal e s u

/-- A framer's command whose outcome is the same ends the same. -/
theorem SameInput.runCommand {f : State → CmdOutcome} (hf : f s = f u) :
    SameResult (runCommand f s) (runCommand f u) := by
  unfold Machine.runCommand
  rw [h.startError_eq, hf]
  split
  · exact .raiseFatal _ s u
  · exact h.complete _

/-! ### COMPRESS -/

theorem SameInput.runCompress : SameResult (runCompress s) (runCompress u) := by
  have hstart : SameInput (startEncoder s) (startEncoder u) := ⟨h.latch, h.caps, h.read⟩
  unfold Machine.runCompress
  rw [h.startError_eq, h.input_eq]
  split
  · exact .raiseFatal _ s u
  · rcases hstart.memWrite_cases 0 (compress u.input) with ⟨e, hs, hu⟩ | ⟨hs, hu⟩ <;> simp only [hs, hu]
    · exact .raiseFatal e _ _
    · exact .finishOk (SameBelow.writeBytes s.outBuf u.outBuf _) 0 0 false

end

/-! ### DECOMPRESS: two runs side by side -/

/-- Two decoders at the same place of the same stream that have written the same bytes. -/
structure SameStream (s u : State) : Prop extends SameInput s u where
  pc : s.dec.pc = u.dec.pc
  opos : s.dec.opos = u.dec.opos
  room : s.dec.opos.toNat ≤ s.caps.outCap.toNat
  written : SameBelow s.dec.opos.toNat s.outBuf u.outBuf

/-- The same, inside a section that lies in the stream. -/
structure SameSection (s u : State) : Prop extends SameStream s u where
  secLen : s.dec.secLen = u.dec.secLen
  payPos : s.dec.payPos = u.dec.payPos
  fit : s.dec.pc.toNat + 3 + s.dec.secLen.toNat ≤ s.n

/-- Both runs go on in related states, or both end in one error of the decoder. -/
def Flow.Both (R : State → State → Prop) (r r' : Flow) : Prop :=
  (∃ t v, r = .going t ∧ r' = .going v ∧ R t v) ∨
  ∃ e t v, r = .ended (decFatal e t) ∧ r' = .ended (decFatal e v)

theorem Flow.Both.fatal {R : State → State → Prop} (e : FatalErr) (t v : State) :
    Flow.Both R (.ended (decFatal e t)) (.ended (decFatal e v)) := .inr ⟨e, t, v, rfl, rfl⟩

theorem Flow.Both.full {R : State → State → Prop} {s u : State} {r r' : Flow} (h : EndedFull s r)
    (h' : EndedFull u r') : Flow.Both R r r' := by
  obtain ⟨t, -, rfl⟩ := h
  obtain ⟨v, -, rfl⟩ := h'
  exact .fatal _ t v

theorem Flow.Both.andThen {R Q : State → State → Prop} {r r' : Flow} {f g : State → Flow} (h : Flow.Both R r r')
    (hfg : ∀ t v, R t v → Flow.Both Q (f t) (g v)) : Flow.Both Q (r.andThen f) (r'.andThen g) := by
  rcases h with ⟨t, v, rfl, rfl, htv⟩ | ⟨e, t, v, rfl, rfl⟩
  · exact hfg t v htv
  · exact .fatal e t v

theorem SameStream.entered {s u : State} (h : SameStream s u) (y : SecType) (length : Half)
    (hfit : s.dec.pc.toNat + 3 + length.toNat ≤ s.n) : SameSection (entered y length s) (entered y length u) :=
  ⟨⟨⟨h.latch, h.caps, h.read⟩, h.pc, h.opos, h.room, h.written⟩, rfl, rfl, hfit⟩

section
variable {s u : State} (h : SameSection s u)
include h

theorem SameSection.closeSection : SameStream (closeSection s) (closeSection u) := by
  refine ⟨⟨h.latch, h.caps, h.read⟩, ?_, h.opos, h.room, h.written⟩
  rw [closeSection_dec, closeSection_dec, h.pc, h.secLen]

theorem SameSection.tagOffset_eq : tagOffset s = tagOffset u := by
  rw [tagOffset, h.pc, h.payPos, tagOffset]

/-- Both write the same bytes from OPOS on. -/
theorem SameSection.written_writeUp (bytes : List Byte)
    (hroom : s.dec.opos.toNat + bytes.length ≤ s.caps.outCap.toNat) :
    (BitVec.ofNat 32 (s.dec.opos.toNat + bytes.length)).toNat ≤ s.caps.outCap.toNat ∧
    SameBelow (BitVec.ofNat 32 (s.dec.opos.toNat + bytes.length)).toNat (s.outBuf.writeUp s.dec.opos.toNat bytes)
      (u.outBuf.writeUp u.dec.opos.toNat bytes) := by
  have hcap := s.caps.outCap.isLt
  rw [ofNat32_toNat_add _ _ (by omega), ← h.opos]
  exact ⟨hroom, h.written.writeUp bytes⟩

theorem SameSection.copied {k : Nat} (hk : s.dec.payPos.toNat + k ≤ s.dec.secLen.toNat)
    (hroom : s.dec.opos.toNat + k ≤ s.caps.outCap.toNat) : SameSection (copied k s) (copied k u) := by
  have hfit := h.fit
  have hbytes : s.inBuf.readBytes (tagOffset s) k = u.inBuf.readBytes (tagOffset u) k := by
    rw [← h.tagOffset_eq]
    exact h.inBytes_eq (by simp only [tagOffset, Config.headerLen]; omega)
  have hwritten := h.written_writeUp (s.inBuf.readBytes (tagOffset s) k) (by rwa [length_readBytes])
  rw [length_readBytes] at hwritten
  refine ⟨⟨⟨h.latch, h.caps, h.read⟩, h.pc, ?_, hwritten.1, ?_⟩, h.secLen, ?_, h.fit⟩
  · simp only [Machine.copied, h.opos]
  · simp only [Machine.copied, ← hbytes]
    exact hwritten.2
  · simp only [Machine.copied, h.payPos]

theorem SameSection.deltaIter (start : Byte) {count : Half} (delta : Byte)
    (hroom : s.dec.opos.toNat + count.toNat ≤ s.caps.outCap.toNat) :
    SameSection (closeDelta (emitted start delta count.toNat (loadDelta start count delta s)))
      (closeDelta (emitted start delta count.toNat (loadDelta start count delta u))) := by
  have hwritten := h.written_writeUp (runSlice start delta 0 count.toNat) (by rwa [length_runSlice])
  rw [length_runSlice] at hwritten
  refine ⟨⟨⟨h.latch, h.caps, h.read⟩, h.pc, ?_, hwritten.1, hwritten.2⟩, h.secLen, ?_, h.fit⟩
  · simp only [closeDelta_dec, emitted, loadDelta_dec, h.opos]
  · simp only [closeDelta_dec, emitted, loadDelta_dec, h.payPos]

theorem SameSection.runDeltaIter (start : Byte) (count : Half) (delta : Byte) :
    Flow.Both SameSection (runDeltaIter start count delta s) (runDeltaIter start count delta u) := by
  rcases Nat.lt_or_ge s.caps.outCap.toNat (s.dec.opos.toNat + count.toNat) with hfull | hroom
  · have hroom' : u.dec.opos.toNat ≤ u.caps.outCap.toNat := h.caps ▸ h.opos ▸ h.room
    have hfull' : u.caps.outCap.toNat < u.dec.opos.toNat + count.toNat := h.caps ▸ h.opos ▸ hfull
    exact .full (runDeltaIter_full start delta h.room hfull) (runDeltaIter_full start delta hroom' hfull')
  · have hroom' : u.dec.opos.toNat + count.toNat ≤ u.caps.outCap.toNat := h.caps ▸ h.opos ▸ hroom
    exact .inl ⟨_, _, runDeltaIter_fits start delta hroom, runDeltaIter_fits start delta hroom',
      h.deltaIter start delta hroom⟩

theorem SameSection.fetchInstruction_eq (hlt : s.dec.payPos.toNat < s.dec.secLen.toNat) :
    fetchInstruction s = fetchInstruction u := by
  have hfit := h.fit
  have hbytes : s.inBytes (tagOffset s) (min Config.instrLen (s.dec.secLen.toNat - s.dec.payPos.toNat)) =
      u.inBytes (tagOffset s) (min Config.instrLen (s.dec.secLen.toNat - s.dec.payPos.toNat)) :=
    h.inBytes_eq (by simp only [tagOffset, Config.headerLen, Config.instrLen]; omega)
  simp only [fetchInstruction, ← h.tagOffset_eq, ← h.secLen, ← h.payPos, hbytes]

theorem SameSection.interpret (fuel : Nat) : Flow.Both SameStream (interpret fuel s) (interpret fuel u) := by
  induction fuel generalizing s u with
  | zero => exact .inl ⟨_, _, rfl, rfl, h.closeSection⟩
  | succ fuel ih =>
    unfold Machine.interpret
    rw [← h.secLen, ← h.payPos]
    split
    case isTrue hlt =>
      rw [← h.fetchInstruction_eq hlt]
      rcases fetchInstruction_cases s hlt with ⟨-, hf⟩ | ⟨-, ⟨-, hf⟩ | ⟨-, hf⟩⟩ <;> simp only [hf]
      · exact .fatal _ s u
      · exact .fatal _ s u
      · exact (h.runDeltaIter _ _ _).andThen fun t v htv => ih htv
    case isFalse => exact .inl ⟨_, _, rfl, rfl, h.closeSection⟩

end

section
variable {s u : State} (h : SameStream s u)
include h

/-- Entering a section is truncated in both runs or in neither (R181). -/
theorem SameStream.enterSection (y : SecType) (length : Half) :
    Flow.Both SameSection (enterSection y length s) (enterSection y length u) := by
  rcases Nat.lt_or_ge s.n (s.dec.pc.toNat + 3 + length.toNat) with hlt | hfit
  · rw [enterSection_truncated y hlt, enterSection_truncated y (h.n_eq ▸ h.pc ▸ hlt), h.pc]
    exact .fatal _ s u
  · exact .inl ⟨_, _, enterSection_fits y hfit, enterSection_fits y (h.n_eq ▸ h.pc ▸ hfit), h.entered y length hfit⟩

theorem SameStream.runData (length : Half) : Flow.Both SameStream (runData length s) (runData length u) := by
  rcases Nat.lt_or_ge s.n (s.dec.pc.toNat + 3 + length.toNat) with hlt | hfit
  · have hlt' : u.n < u.dec.pc.toNat + 3 + length.toNat := h.n_eq ▸ h.pc ▸ hlt
    rw [Machine.runData, enterSection_truncated .data hlt, Machine.runData, enterSection_truncated .data hlt', h.pc]
    exact .fatal _ s u
  have hfit' : u.dec.pc.toNat + 3 + length.toNat ≤ u.n := h.n_eq ▸ h.pc ▸ hfit
  rcases Nat.lt_or_ge s.caps.outCap.toNat (s.dec.opos.toNat + length.toNat) with hfull | hroom
  · have hroom' : u.dec.opos.toNat ≤ u.caps.outCap.toNat := h.caps ▸ h.opos ▸ h.room
    have hfull' : u.caps.outCap.toNat < u.dec.opos.toNat + length.toNat := h.caps ▸ h.opos ▸ hfull
    exact .full (runData_full hfit h.room hfull) (runData_full hfit' hroom' hfull')
  · have hroom' : u.dec.opos.toNat + length.toNat ≤ u.caps.outCap.toNat := h.caps ▸ h.opos ▸ hroom
    have hpay : (Machine.entered .data length s).dec.payPos.toNat + length.toNat ≤ length.toNat :=
      (Nat.zero_add _).le
    exact .inl ⟨_, _, runData_fits hfit hroom, runData_fits hfit' hroom',
      ((h.entered .data length hfit).copied hpay hroom).closeSection⟩

theorem SameStream.runCode (length : Half) : Flow.Both SameStream (runCode length s) (runCode length u) :=
  (h.enterSection .code length).andThen fun _ _ htv => htv.interpret _

theorem SameStream.fetchSection_eq (hlt : s.dec.pc.toNat < s.n) : fetchSection s = fetchSection u := by
  have hbytes : s.inBytes s.dec.pc.toNat (min Config.headerLen (s.n - s.dec.pc.toNat)) =
      u.inBytes s.dec.pc.toNat (min Config.headerLen (s.n - s.dec.pc.toNat)) := h.inBytes_eq (by omega)
  simp only [fetchSection, ← h.pc, ← h.n_eq, hbytes]

theorem SameStream.decodeStream (fuel : Nat) : Flow.Both SameStream (decodeStream fuel s) (decodeStream fuel u) := by
  induction fuel generalizing s u with
  | zero => exact .inl ⟨s, u, rfl, rfl, h⟩
  | succ fuel ih =>
    unfold Machine.decodeStream
    rw [← h.pc, ← h.n_eq]
    split
    case isTrue hlt =>
      rw [← h.fetchSection_eq hlt]
      rcases fetchSection_cases s with ⟨-, hf⟩ | ⟨-, ⟨-, -, hf⟩ | ⟨-, hf⟩ | ⟨-, hf⟩⟩ <;> simp only [hf]
      · exact .fatal _ s u
      · exact .fatal _ s u
      · exact (h.runData _).andThen fun _ _ htv => ih htv
      · exact (h.runCode _).andThen fun _ _ htv => ih htv
    case isFalse => exact .inl ⟨_, _, rfl, rfl, ⟨h.latch, h.caps, h.read⟩, h.pc, h.opos, h.room, h.written⟩

/-- Two runs that are at the same place end DECOMPRESS with the same result. -/
theorem SameStream.decodeDone : SameResult (decodeDone s) (decodeDone u) := by
  unfold Machine.decodeDone
  rw [← h.opos]
  exact .finishOk h.written 0 0 false

end

theorem SameInput.runDecompress {s u : State} (h : SameInput s u) : SameResult (runDecompress s) (runDecompress u) := by
  have hstart : SameStream (startDecoder s) (startDecoder u) :=
    ⟨⟨h.latch, h.caps, h.read⟩, rfl, rfl, Nat.zero_le _, .zero _ _⟩
  unfold Machine.runDecompress
  rw [← h.startError_eq, ← h.n_eq]
  split
  · exact .raiseFatal _ s u
  · rcases hstart.decodeStream (s.n + 1) with ⟨t, v, hs, hu, htv⟩ | ⟨e, t, v, hs, hu⟩ <;> rw [hs, hu]
    · exact htv.decodeDone
    · exact .raiseFatal e _ _

/-! ### Every command -/

theorem SameInput.exec {s u t v : State} (h : SameInput s u) {i : Instr} (hi : i.level = .cmdRegister)
    (hs : exec i s = .next t) (hu : exec i u = .next v) : SameResult t v := by
  cases i <;> cases hs <;> cases hu
  case data | code | deltaIter => cases hi
  case compress => exact h.runCompress
  case decompress => exact h.runDecompress
  case encodeHeader type => exact h.runCommand (h.encodeHeaderOutcome_eq type)
  case tryMakeSection type => exact h.runCommand (h.tryMakeSectionOutcome_eq type)
  case makeSection type => exact h.runCommand (h.makeSectionOutcome_eq type)
  case readHeader => exact h.runCommand h.readHeaderOutcome_eq
  case readPayload => exact h.runCommand h.readPayloadOutcome_eq
  case merge => exact h.runCommand h.mergeOutcome_eq

/-- Settles O12: the framer's outcomes and COMPRESS's input are functions of what the two states share, and DECOMPRESS runs side by side
in both. -/
theorem commandResultDependsOnlyOnOperandsAndIn : Obligations.CommandResultDependsOnlyOnOperandsAndIn := by
  intro i s u t v hi hlatch hcaps hread hs hu
  obtain ⟨hstatus, houtLen, hresLen, herrOff, hout⟩ := SameInput.exec ⟨hlatch, hcaps, hread⟩ hi hs hu
  exact ⟨hstatus, houtLen, hresLen, herrOff, hout⟩

end Sys2Proof.Machine
end

section
/-! PROOFS. What the block's turns leave alone: IN, the operand registers and their latched copies (20_memory.md R60, R71;
70_reset_and_hazards.md R245); and the free value a read of OUT returns while a command runs (R66, R246). -/

namespace Sys2Proof.Machine

/-! ### The block's turns -/

/-- The block may change STATUS and the result registers, who runs the command, OUT, the units and the draws. -/
theorem BlockFrame.update {s u : State} (h : BlockFrame s u) {status outLen resLen errOff : Word} {active : Active}
    {outBuf : Memory} {dec : DecRegs} {enc : EncRegs} {acc : AccRegs} {draws : Nat} :
    BlockFrame s
      { u with
        regs := { u.regs with status := status, outLen := outLen, resLen := resLen, errOff := errOff }
        active := active
        outBuf := outBuf
        dec := dec
        enc := enc
        acc := acc
        draws := draws } :=
  h.trans ⟨rfl, rfl, rfl, rfl, rfl, rfl, rfl, rfl, rfl, rfl⟩

/-- No primitive update of the block touches what it has to leave alone. -/
theorem blockFrame_runClosed (s : State) : RunClosed (BlockFrame s) where
  decRegs h _ := h.update
  encRegs h _ _ := h.update
  store h _ _ _ := h.update
  ok h _ _ _ _ _ := h.update
  fail h := h.update
  fatal h _ _ := h.update

/-- Settles O10: a run keeps the frame of the state it starts from, and giving a command to its unit changes `active` alone. -/
theorem blockNeverWritesInOrOperands : Obligations.BlockNeverWritesInOrOperands := by
  intro s t hturn he
  have hframe := blockFrame_runClosed (dropTurn s)
  rcases hturn with hturn | hturn <;> simp only [step, hturn, takeTurn] at he
  · exact hframe.blockWhole (.refl _) he
  · exact hframe.blockTick (fun h _ _ _ => h.update) (.refl _) he

/-! ### OUT while a command runs -/

/-- Settles O53: the access passes its guard, and BUSY = 1 selects the free value. -/
theorem outReadWhileBusyIsUnspecified : Obligations.OutReadWhileBusyIsUnspecified := by
  intro s off hlt hb
  rw [hostAct, if_pos hlt, outRead, if_pos hb]

end Sys2Proof.Machine
end

section
/-! PROOFS. The three encodings (30_encoding.md R81 to R89): each decoder answers with an instruction exactly on that instruction's
bytes, so decoding undoes encoding and encoding undoes decoding; the fields of the table's words; and the bytes that are no
instruction. -/

namespace Sys2Proof

/-! ### Which bytes decode to an instruction -/

/-- The bytes of a u16 read from two bytes are those two (R10). -/
@[simp] theorem le16bytes_le16 (lo hi : Byte) : le16bytes (le16 lo hi) = [lo, hi] := by
  rw [le16bytes, loByte_le16, hiByte_le16]

/-- A header decodes exactly where the bytes of a section instruction stand (R81, R82). -/
theorem decodeHeader_eq_ok_iff (bytes : List Byte) (i : Instr) (rest : List Byte) :
    decodeHeader bytes = .ok (i, rest) ↔ i.level = .sectionStream ∧ bytes = encode i ++ rest := by
  constructor
  · intro h
    unfold decodeHeader at h
    split at h
    next type lo hi tail =>
      split at h
      next h0 =>
        cases h
        exact ⟨rfl, by simp [encode, headerBytes, h0]⟩
      next =>
        split at h
        next h1 =>
          cases h
          exact ⟨rfl, by simp [encode, headerBytes, h1]⟩
        next => cases h
    next => cases h
  · rintro ⟨hl, rfl⟩
    cases i with
    | data length | code length => simp [encode, headerBytes, le16bytes, decodeHeader, le16_loByte_hiByte]
    | _ => cases hl

/-- An instruction of a Code payload decodes exactly where the bytes of a DeltaIter stand (R84, R85). -/
theorem decodePayload_eq_ok_iff (bytes : List Byte) (i : Instr) (rest : List Byte) :
    decodePayload bytes = .ok (i, rest) ↔ i.level = .codePayload ∧ bytes = encode i ++ rest := by
  constructor
  · intro h
    unfold decodePayload at h
    split at h
    next => cases h
    next tag operands =>
      split at h
      next h0 =>
        split at h
        next start lo hi delta tail =>
          cases h
          exact ⟨rfl, by simp [encode, deltaIterBytes, h0, loByte_le16, hiByte_le16]⟩
        next => cases h
      next => cases h
  · rintro ⟨hl, rfl⟩
    cases i with
    | deltaIter start count delta => simp [encode, deltaIterBytes, decodePayload, le16_loByte_hiByte]
    | _ => cases hl

/-- OP and TYPE select the command whose word they begin (R88, R89). -/
theorem decodeOp_eq_ok_iff (op type : Byte) (i : Instr) :
    decodeOp op type = .ok i ↔ i.level = .cmdRegister ∧ encode i = commandBytes op type := by
  constructor
  · intro h
    unfold decodeOp at h
    split at h
    case h_9 => cases h
    all_goals
      next hop =>
        cases h
        exact ⟨rfl, congrArg (commandBytes · type) (BitVec.eq_of_toNat_eq hop.symm)⟩
  · rintro ⟨hl, he⟩
    cases i with
    | data | code | deltaIter => cases hl
    | _ =>
      obtain ⟨rfl, rfl⟩ : _ = op ∧ _ = type := by simpa [encode, commandBytes] using he
      rfl

/-- A CMD word decodes by OP and TYPE, whatever its two reserved bytes hold (R88, R89). -/
theorem decodeCommand_eq_ok_iff (bytes : List Byte) (i : Instr) (rest : List Byte) :
    decodeCommand bytes = .ok (i, rest) ↔
      i.level = .cmdRegister ∧
        ∃ op type r0 r1, encode i = commandBytes op type ∧ bytes = op :: type :: r0 :: r1 :: rest := by
  constructor
  · intro h
    unfold decodeCommand at h
    split at h
    next op type r0 r1 tail =>
      split at h
      next hop =>
        cases h
        obtain ⟨hl, he⟩ := (decodeOp_eq_ok_iff op type i).mp hop
        exact ⟨hl, op, type, r0, r1, he, rfl⟩
      next => cases h
    next => cases h
  · rintro ⟨hl, op, type, r0, r1, he, rfl⟩
    rw [decodeCommand, (decodeOp_eq_ok_iff op type i).mpr ⟨hl, he⟩]

/-- A command's bytes are a CMD word with its reserved bytes 0 (R22). -/
theorem encode_eq_commandBytes {i : Instr} (h : i.level = .cmdRegister) : ∃ op type, encode i = commandBytes op type := by
  cases i with
  | data | code | deltaIter => cases h
  | _ => exact ⟨_, _, rfl⟩

/-- Decoding undoes encoding at every level (R81, R84, R88). -/
theorem decode_encode (i : Instr) (rest : List Byte) : decode i.level (encode i ++ rest) = .ok (i, rest) := by
  cases hl : i.level with
  | sectionStream => exact (decodeHeader_eq_ok_iff _ i rest).mpr ⟨hl, rfl⟩
  | codePayload => exact (decodePayload_eq_ok_iff _ i rest).mpr ⟨hl, rfl⟩
  | cmdRegister =>
    obtain ⟨op, type, he⟩ := encode_eq_commandBytes hl
    exact (decodeCommand_eq_ok_iff _ i rest).mpr ⟨hl, op, type, 0, 0, he, by rw [he]; rfl⟩

/-! ### The table's words -/

/-- The lowest byte of a number comes first (R63). -/
theorem numberBytes_byte (n : Nat) (b : Byte) (w : Nat) :
    numberBytes (n + 1) (b.toNat + 256 * w) = b :: numberBytes n w := by
  have hb := b.isLt
  have hlow : BitVec.ofNat 8 (b.toNat + 256 * w) = b := by
    apply BitVec.eq_of_toNat_eq
    simp only [BitVec.toNat_ofNat]
    omega
  have hhigh : (b.toNat + 256 * w) / 256 = w := by omega
  rw [numberBytes, hlow, hhigh]

/-- A u16 is its low byte, then its high byte (R63). -/
theorem numberBytes_half (n : Nat) (v : Half) (w : Nat) :
    numberBytes (n + 2) (v.toNat + 65536 * w) = le16bytes v ++ numberBytes n w := by
  have hv : v.toNat + 65536 * w = (loByte v).toNat + 256 * ((hiByte v).toNat + 256 * w) := by
    have h := le16_toNat (loByte v) (hiByte v)
    rw [le16_loByte_hiByte] at h
    omega
  rw [hv, numberBytes_byte, numberBytes_byte]
  rfl

/-- A header's word: the type in bits 7:0, the length in bits 23:8 (R81). -/
theorem numberBytes_header (type : Byte) (length : Half) :
    numberBytes 3 (256 * length.toNat + type.toNat) = headerBytes type length := by
  rw [Nat.add_comm, numberBytes_byte]
  exact congrArg (type :: ·) (numberBytes_half 0 length 0)

/-- A DeltaIter's word: the tag 0 in bits 7:0, startValue in 15:8, count in 31:16, delta in 39:32 (R84). -/
theorem numberBytes_deltaIter (start delta : Byte) (count : Half) :
    numberBytes 5 (256 * start.toNat + 65536 * count.toNat + 4294967296 * delta.toNat) =
      deltaIterBytes start count delta := by
  have hw : 256 * start.toNat + 65536 * count.toNat + 4294967296 * delta.toNat =
      Config.tagDeltaIter.toNat + 256 * (start.toNat + 256 * (count.toNat + 65536 * (delta.toNat + 256 * 0))) := by
    have htag : Config.tagDeltaIter.toNat = 0 := rfl
    omega
  rw [hw, numberBytes_byte, numberBytes_byte, numberBytes_half, numberBytes_byte]
  rfl

/-- A table word whose bytes are those of an instruction of its level decodes to it. -/
theorem decodeTableWord_of_bytes {nbits w : Nat} {i : Instr} (hl : levelOfBits nbits = some i.level)
    (hw : numberBytes (nbits / 8) w = encode i) : decodeTableWord nbits w = some i := by
  have hd := decode_encode i []
  rw [List.append_nil] at hd
  simp only [decodeTableWord, hl, hw, hd]

namespace Machine

/-! ### The statements -/

/-- Settles O14: each level accepts the bytes of every instruction of its own. -/
theorem decodeOfEncode : Obligations.DecodeOfEncode :=
  decode_encode

/-- Settles O15, by what each level's decoder accepts. -/
theorem encodeOfDecode : Obligations.EncodeOfDecode := by
  intro level bytes i rest h
  cases level with
  | sectionStream =>
    obtain ⟨hl, hb⟩ := (decodeHeader_eq_ok_iff bytes i rest).mp h
    exact ⟨hl, fun _ => hb, nofun⟩
  | codePayload =>
    obtain ⟨hl, hb⟩ := (decodePayload_eq_ok_iff bytes i rest).mp h
    exact ⟨hl, fun _ => hb, nofun⟩
  | cmdRegister =>
    obtain ⟨hl, op, type, r0, r1, he, rfl⟩ := (decodeCommand_eq_ok_iff bytes i rest).mp h
    exact ⟨hl, fun hne => absurd rfl hne, fun _ => ⟨by rw [he]; rfl, rfl⟩⟩

/-- Settles O16: the words' bytes are those of the instructions, which decode. -/
theorem tableWordFields : Obligations.TableWordFields := by
  refine ⟨fun length => ⟨?_, ?_⟩, fun start delta count => ?_⟩
  · exact decodeTableWord_of_bytes rfl (numberBytes_header Config.typeData length)
  · exact decodeTableWord_of_bytes rfl (numberBytes_header Config.typeCode length)
  · exact decodeTableWord_of_bytes rfl (numberBytes_deltaIter start delta count)

/-- Settles O17: a type byte above 1 and a tag above 0 fail the decoder's comparisons, and no OP but 1 to 8 selects a command. -/
theorem illegalEncodingsAreRejected : Obligations.IllegalEncodingsAreRejected := by
  refine ⟨fun type lo hi rest h => ?_, fun tag rest h => ?_, fun op type r0 r1 rest h => ?_⟩
  · have h0 : type ≠ Config.typeData := by rintro rfl; exact absurd h (by decide)
    have h1 : type ≠ Config.typeCode := by rintro rfl; exact absurd h (by decide)
    rw [decode, decodeHeader, if_neg h0, if_neg h1]
  · have h0 : tag ≠ Config.tagDeltaIter := by rintro rfl; exact absurd h (by decide)
    exact if_neg h0
  · have hop : decodeOp op type = .error (.badCommand op) := by
      rcases decodeOp_cases op type with ⟨-, hd⟩ | ⟨h1, h8, -⟩
      · exact hd
      · rcases h with rfl | h9
        · exact absurd h1 (by decide)
        · omega
    rw [decode, decodeCommand, hop]

/-- Settles O18: each word is the encoding of its instruction. -/
theorem specWordsDecode : Obligations.SpecWordsDecode :=
  ⟨decode_encode (.deltaIter 250 10 5) [], decode_encode (.code 5) [], decode_encode (.data 65535) [],
    decode_encode (.compress 0) [], decode_encode (.makeSection 1) []⟩

end Machine

end Sys2Proof
end

section
/-! PROOFS. The section framer (40_section_framer.md R100 to R112): how a command of the framer ends, given its outcome; reading a
section (R105) by its checks; merge (R110) as one cut of the two payloads at 65535 bytes; and the six commands. -/

namespace Sys2Proof.Machine

/-! ### How a command of the framer ends (R42, R211) -/

theorem complete_units (o : CmdOutcome) (s : State) : UnitsKept s (complete o s) := by
  cases o with
  | ok out resLen resType hasOvf =>
    rcases memWrite_cases 0 out s with ⟨-, hw⟩ | ⟨-, hw⟩ <;> simp only [complete, hw] <;> exact ⟨rfl, rfl, rfl⟩
  | fail => exact ⟨rfl, rfl, rfl⟩
  | fatal e => exact raiseFatal_units e s

/-- The framer has no state of its own, so its commands leave every unit alone. -/
theorem runCommand_units (f : State → CmdOutcome) (s : State) : UnitsKept s (runCommand f s) := by
  rcases runCommand_cases f s with ⟨-, hr⟩ | ⟨-, hr⟩ <;> rw [hr]
  · exact raiseFatal_units _ s
  · exact complete_units (f s) s

section
variable {f : State → CmdOutcome} {s : State}

theorem runCommand_eq_complete (hn : s.n ≤ s.caps.inCap.toNat) : runCommand f s = complete (f s) s := by
  rw [runCommand, startError_none hn]

theorem runCommand_fatal (hn : s.n ≤ s.caps.inCap.toNat) {e : FatalErr} (hf : f s = .fatal e)
    (he : e.off < 4294967296) : FatalEnd s (runCommand f s) e := by
  rw [runCommand_eq_complete hn, hf]
  exact raiseFatal_end e s he

theorem runCommand_fail (hn : s.n ≤ s.caps.inCap.toNat) (hf : f s = .fail) : FailEnd s (runCommand f s) := by
  rw [runCommand_eq_complete hn, hf]
  exact finishFail_end s

section
variable {out : List Byte} {resLen : Nat} {resType : Byte} {hasOvf : Bool}

/-- The bytes of an `Ok` do not fit OUT (R61). -/
theorem runCommand_full (hn : s.n ≤ s.caps.inCap.toNat) (hf : f s = .ok out resLen resType hasOvf)
    (hres : resLen < 4294967296) (hcap : out.length > s.caps.outCap.toNat) :
    FatalEnd s (runCommand f s) { kind := .capacityExceeded, off := 0 } := by
  rw [runCommand_eq_complete hn, hf]
  simpa only [if_pos hcap] using (complete_ok out resLen resType hasOvf s hres).2

theorem runCommand_ok (hn : s.n ≤ s.caps.inCap.toNat) (hf : f s = .ok out resLen resType hasOvf)
    (hres : resLen < 4294967296) (hcap : ¬ out.length > s.caps.outCap.toNat) :
    OkEnd s (runCommand f s) out resLen resType hasOvf := by
  rw [runCommand_eq_complete hn, hf]
  simpa only [if_neg hcap] using (complete_ok out resLen resType hasOvf s hres).2

end

end

/-! ### Type bytes (R82, R100) -/

theorem tagByte_legal (y : SecType) : ¬ (tagByte y ≠ 0 ∧ tagByte y ≠ 1) := by cases y <;> decide

theorem secTypeOf_none {b : Byte} (h : b ≠ 0 ∧ b ≠ 1) : secTypeOf b = none := by
  rw [secTypeOf, if_neg h.1, if_neg h.2]

/-- The section type of a legal type byte. -/
def headerType (b : Byte) : SecType := if b = 0 then .data else .code

/-- A legal type byte that is not Data is Code (R82). -/
theorem eq_one_of_legal {b : Byte} (h : ¬ (b ≠ 0 ∧ b ≠ 1)) (h0 : b ≠ 0) : b = 1 :=
  not_not.mp fun h1 => h ⟨h0, h1⟩

theorem secTypeOf_some {b : Byte} (h : ¬ (b ≠ 0 ∧ b ≠ 1)) : secTypeOf b = some (headerType b) := by
  by_cases h0 : b = 0
  · rw [h0]
    rfl
  · rw [eq_one_of_legal h h0]
    rfl

/-- The type read from a legal type byte has that byte as its tag. -/
theorem tagByte_headerType {b : Byte} (h : ¬ (b ≠ 0 ∧ b ≠ 1)) : tagByte (headerType b) = b := by
  by_cases h0 : b = 0
  · rw [h0]
    rfl
  · rw [eq_one_of_legal h h0]
    rfl

/-! ### Reading a section (R105) -/

theorem State.aOff_lt (s : State) : s.aOff < 4294967296 := s.latch.aOff.isLt

theorem State.bOff_lt (s : State) : s.bOff < 4294967296 := s.latch.bOff.isLt

/-- The length that the header at `off` gives, low byte first (R10, R81). -/
def payloadLength (s : State) (off : Nat) : Nat := (s.in1 (off + 1)).toNat + 256 * (s.in1 (off + 2)).toNat

theorem in2_toNat (s : State) (off : Nat) : (s.in2 (off + 1)).toNat = payloadLength s off := le16_toNat _ _

theorem payloadLength_le (s : State) (off : Nat) : payloadLength s off ≤ 65535 := by
  rw [← in2_toNat]
  exact Nat.le_of_lt_succ (s.in2 (off + 1)).isLt

theorem readHeader_eq (s : State) (off : Nat) :
    readHeader s off =
      if off + 3 > s.n then .error { kind := .truncatedStream, off := off }
      else if s.in1 off ≠ 0 ∧ s.in1 off ≠ 1 then .error { kind := .unknownSectionType, off := off }
      else .ok (headerType (s.in1 off), payloadLength s off) := by
  rw [readHeader, Config.headerLen, in2_toNat]
  split_ifs with hfit htype
  · rfl
  · rw [secTypeOf_none htype]
  · rw [secTypeOf_some htype]

theorem readSection_eq (s : State) (off : Nat) :
    readSection s off =
      if off + 3 > s.n then .error { kind := .truncatedStream, off := off }
      else if s.in1 off ≠ 0 ∧ s.in1 off ≠ 1 then .error { kind := .unknownSectionType, off := off }
      else if off + 3 + payloadLength s off > s.n then .error { kind := .truncatedStream, off := off }
      else .ok { type := headerType (s.in1 off), payload := s.inBuf.readBytes (off + 3) (payloadLength s off) } := by
  rw [readSection, readHeader_eq]
  split_ifs with hfit htype hpayload
  · rfl
  · rfl
  · exact if_pos hpayload
  · exact if_neg hpayload

/-- Every error of reading a section is reported at its header. -/
theorem readSection_error_off {s : State} {off : Nat} {e : FatalErr} (h : readSection s off = .error e) : e.off = off := by
  rw [readSection_eq] at h
  split_ifs at h <;> cases h <;> rfl

/-- A section read has a payload within the bound of a section (R113). -/
theorem readSection_bounded {s : State} {off : Nat} {x : Section} (h : readSection s off = .ok x) :
    x.payload.length ≤ 65535 := by
  rw [readSection_eq] at h
  split_ifs at h
  cases h
  simpa using payloadLength_le s off

/-- Settles O36, by the order of the checks in `readHeader_eq` and `readSection_eq`. -/
theorem readSectionChecksInOrder : Obligations.ReadSectionChecksInOrder :=
  fun s off => ⟨readHeader_eq s off, readSection_eq s off⟩

/-! ### Merge (R110, R112) -/

/-- The first of the two sections that merge gives: the first 65535 bytes of the two payloads. -/
def mergedSection (a b : Section) : Section := { type := a.type, payload := (a.payload ++ b.payload).take 65535 }

/-- The second: what is left of the two payloads. -/
def overflowSection (a b : Section) : Section := { type := a.type, payload := (a.payload ++ b.payload).drop 65535 }

@[simp] theorem length_mergedSection (a b : Section) :
    (mergedSection a b).payload.length = min (a.payload.length + b.payload.length) 65535 := by
  rw [mergedSection, List.length_take, List.length_append, Nat.min_comm]

@[simp] theorem length_overflowSection (a b : Section) :
    (overflowSection a b).payload.length = a.payload.length + b.payload.length - 65535 := by
  rw [overflowSection, List.length_drop, List.length_append]

theorem mergedSection_append_overflowSection (a b : Section) :
    (mergedSection a b).payload ++ (overflowSection a b).payload = a.payload ++ b.payload :=
  List.take_append_drop _ _

/-- Two payloads that fit are not cut. -/
theorem mergedSection_of_fits {a b : Section} (h : a.payload.length + b.payload.length ≤ 65535) :
    mergedSection a b = { type := a.type, payload := a.payload ++ b.payload } := by
  rw [mergedSection, List.take_of_length_le (by rwa [List.length_append])]

/-- The cut after a full section is the one between the two. -/
theorem mergedSection_of_full {a : Section} (b : Section) (h : a.payload.length = 65535) : mergedSection a b = a := by
  rw [mergedSection, ← h, List.take_left]

theorem overflowSection_of_full {a b : Section} (h : a.payload.length = 65535) (ht : a.type = b.type) :
    overflowSection a b = b := by
  rw [overflowSection, ← h, List.drop_left, ht]

/-- Merge cuts the two payloads, put together, at 65535 bytes, and overflows when the cut leaves something. -/
theorem mergeSame_eq_cut {a : Section} (b : Section) (ha : a.payload.length ≤ 65535) :
    mergeSame a b =
      (mergedSection a b,
        if a.payload.length + b.payload.length > 65535 then some (overflowSection a b) else none) := by
  rcases mergeSame_cases a b with ⟨hle, hm⟩ | ⟨hgt, hm⟩
  · rw [hm, mergedSection_of_fits hle, if_neg (Nat.not_lt.mpr hle)]
  · rw [hm, if_pos hgt, mergedSection, overflowSection, List.take_append, List.drop_append, List.take_of_length_le ha,
      List.drop_of_length_le ha, List.nil_append]

theorem merge_of_eq {a b : Section} (ha : a.payload.length ≤ 65535) (ht : a.type = b.type) (offB : Nat) :
    merge a b offB =
      .ok (mergedSection a b,
        if a.payload.length + b.payload.length > 65535 then some (overflowSection a b) else none) := by
  rw [merge, if_pos ht, mergeSame_eq_cut b ha]

theorem merge_of_ne {a b : Section} (ht : a.type ≠ b.type) (offB : Nat) :
    merge a b offB = .error { kind := .typeMismatch, off := offB } := if_neg ht

/-- Settles O37, by where the cut of `mergeSame_eq_cut` falls. -/
theorem mergeLaws : Obligations.MergeLaws := by
  intro a b offB ha hb
  refine ⟨fun ht => merge_of_ne ht offB, fun ht => ⟨_, _, merge_of_eq ha ht offB, rfl, length_mergedSection a b, ?_⟩⟩
  refine ⟨fun hnone => ?_, fun x hsome => ?_, fun hfull hne => ?_, fun hnil => ?_, fun ha5 hb5 => ?_⟩
  · have hle : a.payload.length + b.payload.length ≤ 65535 := by simpa using hnone
    exact ⟨by rw [mergedSection_of_fits hle], hle⟩
  · split at hsome <;> cases hsome
    next hgt =>
      refine ⟨rfl, mergedSection_append_overflowSection a b, ?_⟩
      rw [length_overflowSection]
      omega
  · have hpos := List.length_pos_iff.mpr hne
    rw [if_pos (by omega), mergedSection_of_full b hfull, overflowSection_of_full hfull ht]
    exact ⟨rfl, rfl⟩
  · have hle : a.payload.length + b.payload.length ≤ 65535 := by simpa [hnil] using ha
    rw [if_neg (Nat.not_lt.mpr hle), mergedSection_of_fits hle, hnil, List.append_nil]
    exact ⟨rfl, rfl⟩
  · rw [length_mergedSection]
    omega

/-! ### The outcomes of the commands -/

theorem ser_eq {x : Section} (h : x.payload.length ≤ 65535) :
    x.ser = tagByte x.type :: BitVec.ofNat 8 (x.payload.length % 256) :: BitVec.ofNat 8 (x.payload.length / 256) ::
      x.payload := by
  rw [Section.ser, encodeHeader_eq x.type _ h]
  rfl

/-- ENCODE_HEADER by its checks (R101). -/
theorem encodeHeaderOutcome_eq (type : Byte) (s : State) :
    encodeHeaderOutcome type s =
      if type ≠ 0 ∧ type ≠ 1 then .fatal { kind := .unknownSectionType, off := 0 }
      else if s.pLen > 65535 then .fatal { kind := .payloadTooLarge, off := 0 }
      else .ok [type, BitVec.ofNat 8 (s.pLen % 256), BitVec.ofNat 8 (s.pLen / 256)] 0 0 false := by
  rcases typeOperand_cases type with ⟨h0, h1, ht⟩ | ⟨y, ht, rfl⟩ <;> rw [encodeHeaderOutcome, ht]
  · rw [if_pos ⟨h0, h1⟩]
  · rw [if_neg (tagByte_legal y)]
    by_cases hlen : s.pLen > 65535
    · rw [if_pos hlen]
      exact if_pos hlen
    · rw [if_neg hlen, ← encodeHeader_eq y s.pLen (Nat.not_lt.mp hlen)]
      exact if_neg hlen

/-- TRY_MAKE_SECTION and MAKE_SECTION by their checks (R103, R106). -/
theorem sectionOutcome_eq (type : Byte) (tooLong : CmdOutcome) (s : State) :
    sectionOutcome type tooLong s =
      if type ≠ 0 ∧ type ≠ 1 then .fatal { kind := .unknownSectionType, off := 0 }
      else if s.aOff + s.pLen > s.n then .fatal { kind := .badCommand, off := 0 }
      else if s.pLen > 65535 then tooLong
      else .ok (type :: BitVec.ofNat 8 (s.pLen % 256) :: BitVec.ofNat 8 (s.pLen / 256) ::
        s.inBuf.readBytes s.aOff s.pLen) 0 0 false := by
  rcases typeOperand_cases type with ⟨h0, h1, ht⟩ | ⟨y, ht, rfl⟩ <;> rw [sectionOutcome, ht]
  · rw [if_pos ⟨h0, h1⟩]
  · rw [if_neg (tagByte_legal y)]
    rcases payloadOperand_cases s with ⟨hpast, hp⟩ | ⟨hfit, hp⟩ <;> simp only [hp]
    · rw [if_pos hpast]
    · rw [if_neg (Nat.not_lt.mpr hfit), length_readBytes, Config.maxLen]
      split
      · rfl
      · next hlen => rw [ser_eq (by simpa using hlen), length_readBytes]

/-- READ_HEADER by its checks (R107). -/
theorem readHeaderOutcome_eq (s : State) :
    readHeaderOutcome s =
      if s.aOff + 3 > s.n then .fatal { kind := .truncatedStream, off := s.aOff }
      else if s.in1 s.aOff ≠ 0 ∧ s.in1 s.aOff ≠ 1 then .fatal { kind := .unknownSectionType, off := s.aOff }
      else .ok [] (payloadLength s s.aOff) (s.in1 s.aOff) false := by
  rw [readHeaderOutcome, readHeader_eq]
  split_ifs with hfit htype
  · rfl
  · rfl
  · exact congrArg (CmdOutcome.ok [] (payloadLength s s.aOff) · false) (tagByte_headerType htype)

/-- READ_PAYLOAD by its checks (R109). -/
theorem readPayloadOutcome_eq (s : State) :
    readPayloadOutcome s =
      if s.aOff + 3 > s.n then .fatal { kind := .truncatedStream, off := s.aOff }
      else if s.in1 s.aOff ≠ 0 ∧ s.in1 s.aOff ≠ 1 then .fatal { kind := .unknownSectionType, off := s.aOff }
      else if s.aOff + 3 + payloadLength s s.aOff > s.n then .fatal { kind := .truncatedStream, off := s.aOff }
      else .ok (s.inBuf.readBytes (s.aOff + 3) (payloadLength s s.aOff)) (payloadLength s s.aOff) (s.in1 s.aOff)
        false := by
  rw [readPayloadOutcome, readSection_eq]
  split_ifs with hfit htype hpayload
  · rfl
  · rfl
  · rfl
  · simp only [length_readBytes, tagByte_headerType htype]

/-- MERGE once both sections are read (R111). -/
theorem mergeOutcome_of_read {s : State} {a b : Section} (ha : readSection s s.aOff = .ok a)
    (hb : readSection s s.bOff = .ok b) :
    mergeOutcome s =
      if a.type ≠ b.type then .fatal { kind := .typeMismatch, off := s.bOff }
      else
        .ok (if a.payload.length + b.payload.length > 65535 then (mergedSection a b).ser ++ (overflowSection a b).ser
            else (mergedSection a b).ser)
          (mergedSection a b).ser.length (tagByte a.type) (decide (a.payload.length + b.payload.length > 65535)) := by
  simp only [mergeOutcome, ha, hb]
  by_cases ht : a.type = b.type
  · rw [merge_of_eq (readSection_bounded ha) ht, if_neg (not_not.mpr ht)]
    split_ifs with hgt
    · rw [decide_eq_true hgt]
      rfl
    · rw [decide_eq_false hgt]
      rfl
  · rw [merge_of_ne ht, if_pos ht]

/-! ### The commands -/

/-- Settles O30, by the checks of `encodeHeaderOutcome_eq`; the header's 3 bytes meet OUT_CAP. -/
theorem encodeHeaderWritesTheHeader : Obligations.EncodeHeaderWritesTheHeader := by
  intro type s hn
  refine ⟨_, rfl, runCommand_units _ s, ?_⟩
  have hf := encodeHeaderOutcome_eq type s
  split_ifs at hf ⊢ with htype hlen hcap
  · exact runCommand_fatal hn hf (by decide)
  · exact runCommand_fatal hn hf (by decide)
  · exact runCommand_full hn hf (by decide) hcap
  · exact runCommand_ok hn hf (by decide) hcap

/-- How a command that makes a section ends, `P` being its end when the payload is above 65535 bytes. -/
theorem runCommand_sectionOutcome {type : Byte} {s : State} {f : State → CmdOutcome} {tooLong : CmdOutcome}
    {P : State → Prop} (hn : s.n ≤ s.caps.inCap.toNat) (hf : f s = sectionOutcome type tooLong s)
    (hlong : f s = tooLong → P (runCommand f s)) :
    if type ≠ 0 ∧ type ≠ 1 then FatalEnd s (runCommand f s) { kind := .unknownSectionType, off := 0 }
    else if s.aOff + s.pLen > s.n then FatalEnd s (runCommand f s) { kind := .badCommand, off := 0 }
    else if s.pLen > 65535 then P (runCommand f s)
    else if 3 + s.pLen > s.caps.outCap.toNat then FatalEnd s (runCommand f s) { kind := .capacityExceeded, off := 0 }
    else
      OkEnd s (runCommand f s)
        (type :: BitVec.ofNat 8 (s.pLen % 256) :: BitVec.ofNat 8 (s.pLen / 256) :: s.inBuf.readBytes s.aOff s.pLen)
        0 0 false := by
  rw [sectionOutcome_eq] at hf
  split_ifs at hf ⊢ with htype hpast hlen hcap
  · exact runCommand_fatal hn hf (by decide)
  · exact runCommand_fatal hn hf (by decide)
  · exact hlong hf
  · exact runCommand_full hn hf (by decide) (by simp only [List.length_cons, length_readBytes]; omega)
  · exact runCommand_ok hn hf (by decide) (by simp only [List.length_cons, length_readBytes]; omega)

/-- Settles O31: a payload that is too long is the normal failure. -/
theorem tryMakeSectionWritesTheSectionOrFails : Obligations.TryMakeSectionWritesTheSectionOrFails :=
  fun _ s hn => ⟨_, rfl, runCommand_units _ s, runCommand_sectionOutcome (P := FailEnd s) hn rfl (runCommand_fail hn)⟩

/-- Settles O32: a payload that is too long is fatal at A_OFF. -/
theorem makeSectionWritesTheSectionOrIsFatal : Obligations.MakeSectionWritesTheSectionOrIsFatal :=
  fun _ s hn => ⟨_, rfl, runCommand_units _ s,
    runCommand_sectionOutcome (P := fun t => FatalEnd s t { kind := .payloadTooLarge, off := s.aOff }) hn rfl
      fun hf => runCommand_fatal hn hf s.aOff_lt⟩

/-- Settles O33, by the checks of `readHeaderOutcome_eq`; no byte is written, so OUT cannot overflow. -/
theorem readHeaderReportsTypeAndLength : Obligations.ReadHeaderReportsTypeAndLength := by
  intro type s hn
  refine ⟨_, rfl, runCommand_units _ s, ?_⟩
  have hlen := payloadLength_le s s.aOff
  have hf := readHeaderOutcome_eq s
  split_ifs at hf ⊢ with hfit htype
  · exact runCommand_fatal hn hf s.aOff_lt
  · exact runCommand_fatal hn hf s.aOff_lt
  · exact runCommand_ok hn hf (by omega) (Nat.not_lt_zero _)

/-- Settles O34, by the checks of `readPayloadOutcome_eq`; the payload's bytes meet OUT_CAP. -/
theorem readPayloadCopiesThePayload : Obligations.ReadPayloadCopiesThePayload := by
  intro type s hn
  refine ⟨_, rfl, runCommand_units _ s, ?_⟩
  intro length
  have hlength : payloadLength s s.aOff = length := rfl
  have hle := payloadLength_le s s.aOff
  have hf := readPayloadOutcome_eq s
  rw [hlength] at hf hle
  split_ifs at hf ⊢ with hfit htype hpayload hcap
  · exact runCommand_fatal hn hf s.aOff_lt
  · exact runCommand_fatal hn hf s.aOff_lt
  · exact runCommand_fatal hn hf s.aOff_lt
  · exact runCommand_full hn hf (by omega) (by rwa [length_readBytes])
  · exact runCommand_ok hn hf (by omega) (by rwa [length_readBytes])

/-- Settles O35: the outcome's two sections are the two parts of the cut, within the bound of a section. -/
theorem mergeWritesMergedThenOverflow : Obligations.MergeWritesMergedThenOverflow := by
  intro type s hn
  refine ⟨_, rfl, runCommand_units _ s, ?_⟩
  split
  next e _ ha => exact runCommand_fatal hn (by rw [mergeOutcome, ha]) (readSection_error_off ha ▸ s.aOff_lt)
  next a e ha hb =>
    exact runCommand_fatal hn (by simp only [mergeOutcome, ha, hb]) (readSection_error_off hb ▸ s.bOff_lt)
  next a b ha hb =>
    intro both ser merged out
    have hla := readSection_bounded ha
    have hlb := readSection_bounded hb
    have hboth : a.payload.length + b.payload.length = both.length := List.length_append.symm
    have hmerged : (mergedSection a b).ser = merged := ser_eq (by rw [length_mergedSection]; omega)
    have hoverflow : (overflowSection a b).ser = ser (both.drop 65535) :=
      ser_eq (by rw [length_overflowSection]; omega)
    have hlen : merged.length ≤ 65538 := by
      rw [← hmerged, length_ser, length_mergedSection]
      omega
    have hf : mergeOutcome s =
        if a.type ≠ b.type then .fatal { kind := .typeMismatch, off := s.bOff }
        else .ok out merged.length (tagByte a.type) (decide (both.length > 65535)) := by
      rw [mergeOutcome_of_read ha hb, hmerged, hoverflow, hboth]
    split_ifs at hf ⊢ with htype hcap
    · exact runCommand_fatal hn hf s.bOff_lt
    · exact runCommand_full hn hf (by omega) hcap
    · exact runCommand_ok hn hf (by omega) hcap

end Sys2Proof.Machine
end

section
/-! PROOFS. The raw list (41_encoder.md R141 to R153): the detector's run and why it is the longest one, the scan loop branch by branch,
and the induction over the loop from which the list's shape and its bytes follow. -/

namespace Sys2Proof.Machine

/-! ### The detector (R143, R154) -/

/-- Every position the loop of R143 passes has the run's difference. -/
theorem diff_of_lt_runEnd {b : List Byte} {a : Nat} {delta : Byte} {fuel j p : Nat} (hj : j ≤ p)
    (hp : p < runEnd b a delta fuel j) : diff b p = delta := by
  induction fuel generalizing j with
  | zero => exact absurd (hp.trans_le hj) (lt_irrefl p)
  | succ fuel ih =>
    unfold runEnd at hp
    split at hp
    case isTrue h =>
      obtain ⟨-, -, hdiff⟩ := h
      rcases hj.eq_or_lt with rfl | hlt
      · exact hdiff
      · exact ih hlt hp
    case isFalse => exact absurd (hp.trans_le hj) (lt_irrefl p)

/-- Where the loop of R143 stops: at the end of the input, at the cap, or at a position that breaks the run. -/
theorem runEnd_stops {b : List Byte} {a : Nat} {delta : Byte} {fuel j : Nat} (hfuel : b.length ≤ j + fuel)
    (hlt : runEnd b a delta fuel j < b.length) (hcap : runEnd b a delta fuel j - a < 65535) :
    diff b (runEnd b a delta fuel j) ≠ delta := by
  induction fuel generalizing j with
  | zero => exact absurd hlt (Nat.not_lt.mpr hfuel)
  | succ fuel ih =>
    unfold runEnd at hlt hcap ⊢
    split at hlt
    case isTrue h =>
      rw [if_pos h] at hcap ⊢
      exact ih (by omega) hlt hcap
    case isFalse h =>
      rw [if_neg h] at hcap ⊢
      exact fun hdiff => h ⟨hlt, hcap, hdiff⟩

/-- The pair of the anchor and the byte after it belongs to the run, and so does every later position before its end. -/
theorem diff_of_lt_detectRun {b : List Byte} {a p : Nat} (ha : a < p) (hp : p < (detectRun b a).2) :
    diff b p = (detectRun b a).1 := by
  rcases Nat.eq_or_lt_of_le ha with rfl | hlt
  · rfl
  · exact diff_of_lt_runEnd hlt hp

/-- Settles O39, by where the detector's loop stops. -/
theorem detectRunIsMaximal : Obligations.DetectRunIsMaximal := by
  intro b a ha
  obtain ⟨hlo, hhi, hcap⟩ := detectRun_bounds (b := b) ha
  exact ⟨rfl, hlo, hhi, hcap, fun p => diff_of_lt_detectRun, runEnd_stops (by omega)⟩

/-- The bytes of a run are those of the DeltaIter with its start and difference (R143, R185). -/
theorem byteAt_of_lt_detectRun {b : List Byte} {a k : Nat} (hk : a + k < (detectRun b a).2) :
    byteAt b (a + k) = runByte (byteAt b a) (detectRun b a).1 k := by
  induction k with
  | zero => exact (runByte_zero _ _).symm
  | succ k ih =>
    have hdiff : byteAt b (a + k + 1) - byteAt b (a + k) = (detectRun b a).1 :=
      diff_of_lt_detectRun (by omega) hk
    rw [runByte_succ, ← ih (by omega), ← hdiff, ← Nat.add_assoc]
    exact (add_sub_cancel _ _).symm

/-! ### The scan loop (R149) -/

theorem scanFrom_end {b : List Byte} (fuel : Nat) {a : Nat} (h : b.length ≤ a) : scanFrom b fuel a = [] := by
  cases fuel with
  | zero => rfl
  | succ fuel => rw [scanFrom, if_neg (Nat.not_lt.mpr h)]

theorem scanFrom_tail {b : List Byte} {fuel a : Nat} (h : a + 1 = b.length) :
    scanFrom b (fuel + 1) a = [byteSection b a] := by
  rw [scanFrom, if_pos (by omega), if_pos (by omega)]

theorem scanFrom_run {b : List Byte} {fuel a : Nat} (h : a + 2 ≤ b.length) :
    scanFrom b (fuel + 1) a =
      if (detectRun b a).2 - a - 1 > 10 then
        runSectionOf b a (detectRun b a).2 (detectRun b a).1 ::
          (if (detectRun b a).2 < b.length then
            byteSection b (detectRun b a).2 :: scanFrom b fuel ((detectRun b a).2 + 1)
          else [])
      else literalSection b a (detectRun b a).2 :: scanFrom b fuel (detectRun b a).2 := by
  rw [scanFrom, if_pos (by omega), if_neg (by omega)]
  cases detectRun b a with
  | mk delta j =>
    rw [apply_ite (List.cons (runSectionOf b a j delta))]
    rfl

/-- Fuel that reaches the end of the input is enough, since the anchor rises on every branch. -/
theorem scanFrom_fuel {b : List Byte} {fuel fuel' a : Nat} (h : b.length ≤ a + fuel) (h' : b.length ≤ a + fuel') :
    scanFrom b fuel a = scanFrom b fuel' a := by
  induction fuel generalizing fuel' a with
  | zero =>
    have hend : b.length ≤ a := h
    rw [scanFrom_end 0 hend, scanFrom_end fuel' hend]
  | succ fuel ih =>
    rcases Nat.lt_or_ge a b.length with hlt | hle
    · obtain ⟨fuel', rfl⟩ : ∃ f, fuel' = f + 1 := ⟨fuel' - 1, by omega⟩
      by_cases htail : a + 1 = b.length
      · rw [scanFrom_tail htail, scanFrom_tail htail]
      · have hfit : a + 2 ≤ b.length := by omega
        obtain ⟨hlo, -, -⟩ := detectRun_bounds hfit
        rw [scanFrom_run hfit, scanFrom_run hfit, ih (fuel' := fuel') (by omega) (by omega),
          ih (fuel' := fuel') (by omega) (by omega)]
    · rw [scanFrom_end _ hle, scanFrom_end _ hle]

theorem scanFrom_succ_length (b : List Byte) (a : Nat) : scanFrom b (b.length + 1) a = scanFrom b b.length a :=
  scanFrom_fuel (by omega) (by omega)

theorem scan_of_short {b : List Byte} (h : b.length < 2) : scan b = [{ type := .data, payload := b }] := if_pos h

theorem scan_of_long {b : List Byte} (h : 2 ≤ b.length) : scan b = scanFrom b b.length 0 := if_neg (Nat.not_lt.mpr h)

/-- Settles O54: the branches of the loop, with one more unit of fuel. -/
theorem rawListFollowsTheLoop : Obligations.RawListFollowsTheLoop := by
  refine fun b => ⟨scan_of_short, scan_of_long, fun a => ⟨scanFrom_end b.length, fun htail => ?_, fun hfit => ?_⟩⟩
  · exact (scanFrom_succ_length b a).symm.trans (scanFrom_tail htail)
  · exact (scanFrom_succ_length b a).symm.trans (scanFrom_run hfit)

/-! ### Induction over the loop -/

/-- `l` is a list the loop gives from anchor `a`: one constructor per branch of R149. -/
inductive ScansTo (b : List Byte) : Nat → List Section → Prop where
  | done {a : Nat} (hend : b.length ≤ a) : ScansTo b a []
  | tail {a : Nat} (htail : a + 1 = b.length) : ScansTo b a [byteSection b a]
  | run {a : Nat} (hfit : a + 2 ≤ b.length) (hlong : (detectRun b a).2 - a - 1 > 10)
      (hend : (detectRun b a).2 = b.length) : ScansTo b a [runSectionOf b a (detectRun b a).2 (detectRun b a).1]
  | runBreak {a : Nat} {rest : List Section} (hfit : a + 2 ≤ b.length) (hlong : (detectRun b a).2 - a - 1 > 10)
      (hlt : (detectRun b a).2 < b.length) (hrest : ScansTo b ((detectRun b a).2 + 1) rest) :
      ScansTo b a
        (runSectionOf b a (detectRun b a).2 (detectRun b a).1 :: byteSection b (detectRun b a).2 :: rest)
  | literal {a : Nat} {rest : List Section} (hfit : a + 2 ≤ b.length) (hshort : ¬ (detectRun b a).2 - a - 1 > 10)
      (hrest : ScansTo b (detectRun b a).2 rest) : ScansTo b a (literalSection b a (detectRun b a).2 :: rest)

theorem scansTo_scanFrom {b : List Byte} {fuel a : Nat} (hfuel : b.length ≤ a + fuel) :
    ScansTo b a (scanFrom b fuel a) := by
  induction fuel generalizing a with
  | zero => exact .done hfuel
  | succ fuel ih =>
    rcases Nat.lt_trichotomy (a + 1) b.length with hfit | htail | hend
    · obtain ⟨hlo, hhi, -⟩ := detectRun_bounds (b := b) hfit
      rw [scanFrom_run hfit]
      split_ifs with hlong hlt
      · exact .runBreak hfit hlong hlt (ih (by omega))
      · exact .run hfit hlong (by omega)
      · exact .literal hfit hlong (ih (by omega))
    · rw [scanFrom_tail htail]
      exact .tail htail
    · rw [scanFrom_end _ (by omega)]
      exact .done (by omega)

/-- The raw list is the empty input's one section, or the loop's from anchor 0; a single byte is the loop's tail (R142, R148). -/
theorem scan_cases (b : List Byte) :
    (b = [] ∧ scan b = [{ type := .data, payload := [] }]) ∨ (b ≠ [] ∧ ScansTo b 0 (scan b)) := by
  match b with
  | [] => exact .inl ⟨rfl, rfl⟩
  | [v] => exact .inr ⟨by simp, .tail rfl⟩
  | v :: w :: rest =>
    rw [scan_of_long (by simp)]
    exact .inr ⟨by simp, scansTo_scanFrom (by omega)⟩

/-! ### The shape of the raw list (R152) -/

/-- A Code section of one DeltaIter of at least 12 bytes, or a Data section of 1 to 11 bytes. -/
def RawShape (x : Section) : Prop :=
  (x.type = .code ∧ ∃ (start delta : Byte) (count : Half),
    x.payload = encode (.deltaIter start count delta) ∧ 12 ≤ count.toNat) ∨
  (x.type = .data ∧ x.payload.length ≤ 11 ∧ x.payload ≠ [])

theorem byteSection_shape (b : List Byte) (p : Nat) : RawShape (byteSection b p) :=
  .inr ⟨rfl, (by decide : 1 ≤ 11), List.cons_ne_nil _ _⟩

theorem runSectionOf_shape {b : List Byte} {a : Nat} (hfit : a + 2 ≤ b.length)
    (hlong : (detectRun b a).2 - a - 1 > 10) : RawShape (runSectionOf b a (detectRun b a).2 (detectRun b a).1) := by
  obtain ⟨-, -, hcap⟩ := detectRun_bounds hfit
  refine .inl ⟨rfl, _, _, _, rfl, ?_⟩
  rw [BitVec.toNat_ofNat, Nat.mod_eq_of_lt (by omega)]
  omega

theorem literalSection_shape {b : List Byte} {a : Nat} (hfit : a + 2 ≤ b.length)
    (hshort : ¬ (detectRun b a).2 - a - 1 > 10) : RawShape (literalSection b a (detectRun b a).2) := by
  obtain ⟨hlo, hhi, -⟩ := detectRun_bounds hfit
  have hlen : (literalSection b a (detectRun b a).2).payload.length = (detectRun b a).2 - a := by
    simp only [literalSection, List.length_take, List.length_drop]
    omega
  exact .inr ⟨rfl, by omega, List.ne_nil_of_length_pos (by omega)⟩

theorem ScansTo.shape {b : List Byte} {a : Nat} {l : List Section} (h : ScansTo b a l) : ∀ x ∈ l, RawShape x := by
  induction h with
  | done => simp
  | tail => simpa using byteSection_shape b _
  | run hfit hlong => simpa using runSectionOf_shape hfit hlong
  | runBreak hfit hlong _ _ ih => simpa using ⟨runSectionOf_shape hfit hlong, byteSection_shape b _, ih⟩
  | literal hfit hshort _ ih => simpa using ⟨literalSection_shape hfit hshort, ih⟩

/-- A section right after a Code section is a Data section. -/
def DataAfterCode (x y : Section) : Prop := x.type = .code → y.type = .data

/-- A Data section in front asks nothing of the section after it. -/
theorem dataAfterCode_cons {x : Section} {l : List Section} (hx : x.type = .data) (h : l.IsChain DataAfterCode) :
    (x :: l).IsChain DataAfterCode :=
  List.isChain_cons.mpr ⟨fun _ _ hcode => by simp [hx] at hcode, h⟩

theorem ScansTo.dataAfterCode {b : List Byte} {a : Nat} {l : List Section} (h : ScansTo b a l) :
    l.IsChain DataAfterCode := by
  induction h with
  | done => exact .nil
  | tail => exact .singleton _
  | run => exact .singleton _
  | runBreak _ _ _ _ ih => exact List.isChain_cons_cons.mpr ⟨fun _ => rfl, dataAfterCode_cons rfl ih⟩
  | literal _ _ _ ih => exact dataAfterCode_cons rfl ih

theorem scan_dataAfterCode (b : List Byte) : (scan b).IsChain DataAfterCode := by
  rcases scan_cases b with ⟨-, hs⟩ | ⟨-, hs⟩
  · rw [hs]
    exact .singleton _
  · exact hs.dataAfterCode

theorem isChain_getElem? {R : Section → Section → Prop} {l : List Section} (h : l.IsChain R) {k : Nat} {x y : Section}
    (hx : l[k]? = some x) (hy : l[k + 1]? = some y) : R x y := by
  obtain ⟨hk, rfl⟩ := List.getElem?_eq_some_iff.mp hx
  obtain ⟨hk', rfl⟩ := List.getElem?_eq_some_iff.mp hy
  exact List.isChain_iff_getElem.mp h k hk'

/-- Settles O40, by the shape of what each branch of the loop appends. -/
theorem rawListShape : Obligations.RawListShape := by
  refine fun b => ⟨fun x hx => ?_, fun k x y => isChain_getElem? (scan_dataAfterCode b)⟩
  rcases scan_cases b with ⟨hb, hs⟩ | ⟨-, hs⟩
  · rw [hs, List.mem_singleton] at hx
    subst hx
    exact ⟨Nat.zero_le _, fun _ => hb⟩
  · rcases hs.shape x hx with ⟨ht, hrun⟩ | ⟨ht, hlen, hne⟩
    · simpa only [ht] using hrun
    · simpa only [ht] using ⟨hlen, fun hnil => absurd hnil hne⟩

/-! ### The bytes the raw list stands for (R151) -/

/-- A Code section of one DeltaIter stands for its bytes (R184, R185). -/
theorem sectionBytes_deltaIter (start : Byte) (count : Half) (delta : Byte) :
    sectionBytes { type := .code, payload := encode (.deltaIter start count delta) } =
      runBytes start count.toNat delta := by
  have hcount : (loByte count).toNat + 256 * (hiByte count).toNat = count.toNat := by
    rw [← le16_toNat, le16_loByte_hiByte]
  simp [sectionBytes, encode, deltaIterBytes, codeResult, hcount]

theorem sectionBytes_data {x : Section} (h : x.type = .data) : sectionBytes x = x.payload := by
  simp only [sectionBytes, h]

/-- The Code section of a run stands for the bytes of the input that the run spans. -/
theorem sectionBytes_runSectionOf {b : List Byte} {a : Nat} (hfit : a + 2 ≤ b.length) :
    sectionBytes (runSectionOf b a (detectRun b a).2 (detectRun b a).1) = (b.drop a).take ((detectRun b a).2 - a) := by
  obtain ⟨hlo, hhi, hcap⟩ := detectRun_bounds hfit
  refine (sectionBytes_deltaIter _ _ _).trans ?_
  rw [BitVec.toNat_ofNat, Nat.mod_eq_of_lt (by omega)]
  refine List.ext_getElem (by simp; omega) fun k hk hk' => ?_
  rw [length_runBytes] at hk
  have hbyte := byteAt_of_lt_detectRun (b := b) (a := a) (k := k) (by omega)
  rw [byteAt, List.getD_eq_getElem _ _ (by omega)] at hbyte
  simp only [runBytes, List.getElem_map, List.getElem_range, List.getElem_take, List.getElem_drop, hbyte]
  rfl

theorem take_append_drop_slice {b : List Byte} {a j : Nat} (h : a ≤ j) :
    (b.drop a).take (j - a) ++ b.drop j = b.drop a := by
  have hj : b.drop j = (b.drop a).drop (j - a) := by rw [List.drop_drop, Nat.add_sub_cancel' h]
  rw [hj, List.take_append_drop]

theorem byteAt_cons_drop {b : List Byte} {p : Nat} (h : p < b.length) : byteAt b p :: b.drop (p + 1) = b.drop p := by
  rw [byteAt, List.getD_eq_getElem _ _ h, List.drop_eq_getElem_cons h]

theorem ScansTo.flatMap_sectionBytes {b : List Byte} {a : Nat} {l : List Section} (h : ScansTo b a l) :
    l.flatMap sectionBytes = b.drop a := by
  induction h with
  | done hend => rw [List.drop_of_length_le hend]; rfl
  | @tail a htail =>
    rw [← byteAt_cons_drop (by omega), htail, List.drop_length]
    rfl
  | @run a hfit _ hend =>
    rw [List.flatMap_cons, sectionBytes_runSectionOf hfit, hend, List.take_of_length_le (by simp), List.flatMap_nil,
      List.append_nil]
  | @runBreak a rest hfit _ hlt _ ih =>
    obtain ⟨hlo, -, -⟩ := detectRun_bounds hfit
    rw [List.flatMap_cons, List.flatMap_cons, ih, sectionBytes_runSectionOf hfit, sectionBytes_data rfl]
    calc (b.drop a).take ((detectRun b a).2 - a) ++ byteAt b (detectRun b a).2 :: b.drop ((detectRun b a).2 + 1)
        = (b.drop a).take ((detectRun b a).2 - a) ++ b.drop (detectRun b a).2 := by rw [byteAt_cons_drop hlt]
      _ = b.drop a := take_append_drop_slice (by omega)
  | @literal a rest hfit _ _ ih =>
    obtain ⟨hlo, -, -⟩ := detectRun_bounds hfit
    rw [List.flatMap_cons, ih, sectionBytes_data rfl]
    exact take_append_drop_slice (by omega)

/-- Settles O41: each branch of the loop appends what stands for the bytes it passes. -/
theorem rawListCoversTheInput : Obligations.RawListCoversTheInput := by
  intro b
  rcases scan_cases b with ⟨rfl, hs⟩ | ⟨-, hs⟩
  · rw [hs]
    rfl
  · exact hs.flatMap_sectionBytes

/-! ### The threshold (R153) -/

theorem byteAt_runBytes (start delta : Byte) {n k : Nat} (h : k < n) :
    byteAt (runBytes start n delta) k = runByte start delta k := getD_runBytes start delta h

theorem diff_runBytes (start delta : Byte) {n k : Nat} (h : k + 1 < n) :
    diff (runBytes start n delta) (k + 1) = delta := by
  rw [diff, Nat.add_sub_cancel, byteAt_runBytes start delta h, byteAt_runBytes start delta (by omega), runByte_succ]
  exact add_sub_cancel_left _ _

/-- In an arithmetic progression the detector's run from the first byte is all of it. -/
theorem detectRun_runBytes (start delta : Byte) {n : Nat} (h2 : 2 ≤ n) (hcap : n ≤ 65535) :
    detectRun (runBytes start n delta) 0 = (delta, n) := by
  have hlen := length_runBytes start n delta
  have hfst : (detectRun (runBytes start n delta) 0).1 = delta := diff_runBytes start delta h2
  obtain ⟨hlo, hhi, -⟩ := detectRun_bounds (b := runBytes start n delta) (a := 0) (by omega)
  obtain ⟨-, -, -, -, -, hmax⟩ := detectRunIsMaximal (runBytes start n delta) 0 (by omega)
  refine Prod.ext hfst (Nat.le_antisymm (by omega) (Nat.le_of_not_lt fun hlt => ?_))
  obtain ⟨j, hj⟩ : ∃ j, (detectRun (runBytes start n delta) 0).2 = j + 1 := ⟨_, (Nat.sub_add_cancel (by omega)).symm⟩
  refine hmax (by omega) (by omega) ?_
  rw [hfst, hj]
  exact diff_runBytes start delta (by omega)

/-- The stream of a raw list of one section is that section. -/
theorem compress_of_scan_eq_singleton {b : List Byte} {x : Section} (h : scan b = [x]) : compress b = x.ser := by
  rw [compress, h]
  exact List.append_nil _

theorem scan_runBytes (start delta : Byte) {n : Nat} (h2 : 2 ≤ n) (hcap : n ≤ 65535) :
    scan (runBytes start n delta) =
      [if n - 0 - 1 > 10 then runSectionOf (runBytes start n delta) 0 n delta
        else { type := .data, payload := runBytes start n delta }] := by
  have hlen := length_runBytes start n delta
  have hliteral :
      literalSection (runBytes start n delta) 0 n = { type := .data, payload := runBytes start n delta } := by
    rw [literalSection, List.drop_zero, List.take_of_length_le (by omega)]
  rw [scan_of_long (by omega), ← scanFrom_succ_length, scanFrom_run (by omega), detectRun_runBytes start delta h2 hcap]
  simp only [hlen, lt_irrefl, if_false, scanFrom_end _ hlen.le, hliteral]
  split_ifs <;> rfl

/-- Settles O42: the run of the progression is all of it, and 11 - 1 is not above the threshold, 12 - 1 is. -/
theorem thresholdBoundary : Obligations.ThresholdBoundary := by
  intro start delta
  have h11 := compress_of_scan_eq_singleton (scan_runBytes start delta (n := 11) (by decide) (by decide))
  have h12 := compress_of_scan_eq_singleton (scan_runBytes start delta (n := 12) (by decide) (by decide))
  rw [if_neg (by decide)] at h11
  rw [if_pos (by decide)] at h12
  have hliteral : (runBytes start 11 delta).length ≤ 65535 := by simp
  have hrun : (runSectionOf (runBytes start 12 delta) 0 12 delta).payload.length ≤ 65535 := show 5 ≤ 65535 by decide
  constructor
  · rw [h11, ser_eq hliteral, length_runBytes]
    rfl
  · rw [h12, ser_eq hrun, runSectionOf, byteAt_runBytes start delta (by decide), runByte_zero]
    simp [deltaIterBytes, tagByte, loByte, hiByte]

end Sys2Proof.Machine
end

section
/-! PROOFS. The coalescer (41_encoder.md R155 to R158): the fold by its four cases and the induction over them, how a run of one type is
packed into full sections and a last one, and what coalescing makes of a raw list. -/

namespace Sys2Proof.Machine

/-! ### The fold of R155 -/

/-- A section of the accumulator's type is merged into it; the cut at 65535 bytes puts the accumulator out. -/
theorem coalesceFrom_cons_eq {acc x : Section} (hacc : acc.payload.length ≤ 65535) (ht : x.type = acc.type)
    (rest : List Section) :
    coalesceFrom acc (x :: rest) =
      if acc.payload.length + x.payload.length > 65535 then
        mergedSection acc x :: coalesceFrom (overflowSection acc x) rest
      else coalesceFrom (mergedSection acc x) rest := by
  rw [coalesceFrom, if_pos ht, mergeSame_eq_cut x hacc]
  split_ifs <;> rfl

/-- A section of the other type puts the accumulator out and takes its place. -/
theorem coalesceFrom_cons_ne {acc x : Section} (ht : x.type ≠ acc.type) (rest : List Section) :
    coalesceFrom acc (x :: rest) = acc :: coalesceFrom x rest := if_neg ht

/-- `out` is what the fold makes of `raw` from an accumulator: one constructor per case of R155. -/
inductive CoalescesTo : Section → List Section → List Section → Prop where
  | last {acc : Section} (hacc : acc.payload.length ≤ 65535) : CoalescesTo acc [] [acc]
  | fits {acc x : Section} {rest out : List Section} (ht : x.type = acc.type)
      (hfits : acc.payload.length + x.payload.length ≤ 65535) (hout : CoalescesTo (mergedSection acc x) rest out) :
      CoalescesTo acc (x :: rest) out
  | full {acc x : Section} {rest out : List Section} (ht : x.type = acc.type)
      (hfull : acc.payload.length + x.payload.length > 65535) (hout : CoalescesTo (overflowSection acc x) rest out) :
      CoalescesTo acc (x :: rest) (mergedSection acc x :: out)
  | other {acc x : Section} {rest out : List Section} (hacc : acc.payload.length ≤ 65535) (ht : x.type ≠ acc.type)
      (hout : CoalescesTo x rest out) : CoalescesTo acc (x :: rest) (acc :: out)

/-- A cut that leaves something is after 65535 bytes. -/
theorem length_mergedSection_of_gt {a b : Section} (h : a.payload.length + b.payload.length > 65535) :
    (mergedSection a b).payload.length = 65535 := by
  rw [length_mergedSection]
  omega

/-- Both parts of a cut are within the bound of a section (R113). -/
theorem cut_bounded {a b : Section} (ha : a.payload.length ≤ 65535) (hb : b.payload.length ≤ 65535) :
    (mergedSection a b).payload.length ≤ 65535 ∧ (overflowSection a b).payload.length ≤ 65535 := by
  rw [length_mergedSection, length_overflowSection]
  omega

theorem coalescesTo_coalesceFrom {acc : Section} {raw : List Section} (hacc : acc.payload.length ≤ 65535)
    (hraw : ∀ x ∈ raw, x.payload.length ≤ 65535) : CoalescesTo acc raw (coalesceFrom acc raw) := by
  induction raw generalizing acc with
  | nil => exact .last hacc
  | cons x rest ih =>
    simp only [List.mem_cons, forall_eq_or_imp] at hraw
    obtain ⟨hx, hrest⟩ := hraw
    obtain ⟨hmerged, hoverflow⟩ := cut_bounded hacc hx
    by_cases ht : x.type = acc.type
    · rw [coalesceFrom_cons_eq hacc ht]
      split_ifs with hgt
      · exact .full ht hgt (ih hoverflow hrest)
      · exact .fits ht (Nat.le_of_not_lt hgt) (ih hmerged hrest)
    · rw [coalesceFrom_cons_ne ht]
      exact .other hacc ht (ih hx hrest)

theorem CoalescesTo.bounded {acc : Section} {raw out : List Section} (h : CoalescesTo acc raw out) :
    ∀ x ∈ out, x.payload.length ≤ 65535 := by
  induction h with
  | last hacc => simpa using hacc
  | fits _ _ _ ih => exact ih
  | full _ hfull _ ih => simpa only [List.mem_cons, forall_eq_or_imp] using ⟨(length_mergedSection_of_gt hfull).le, ih⟩
  | other hacc _ _ ih => simpa only [List.mem_cons, forall_eq_or_imp] using ⟨hacc, ih⟩

/-- The first section put out has the accumulator's type. -/
theorem CoalescesTo.head_type {acc : Section} {raw out : List Section} (h : CoalescesTo acc raw out) :
    ∀ y ∈ out.head?, y.type = acc.type := by
  induction h with
  | fits _ _ _ ih => exact ih
  | _ => simp [mergedSection]

/-- A section before one of its own type is full (R157). -/
def FullBeforeSameType (x y : Section) : Prop := x.type = y.type → x.payload.length = 65535

theorem CoalescesTo.fullBeforeSameType {acc : Section} {raw out : List Section} (h : CoalescesTo acc raw out) :
    out.IsChain FullBeforeSameType := by
  induction h with
  | last => exact .singleton _
  | fits _ _ _ ih => exact ih
  | full _ hfull _ ih => exact List.isChain_cons.mpr ⟨fun _ _ _ => length_mergedSection_of_gt hfull, ih⟩
  | other _ ht hout ih =>
    exact List.isChain_cons.mpr ⟨fun y hy heq => absurd ((hout.head_type y hy).symm.trans heq.symm) ht, ih⟩

/-- Coalescing a list of bounded sections is the fold from its first. -/
theorem coalesce_cases {raw : List Section} (hraw : ∀ x ∈ raw, x.payload.length ≤ 65535) :
    (raw = [] ∧ coalesce raw = []) ∨ ∃ x rest, raw = x :: rest ∧ CoalescesTo x rest (coalesce raw) := by
  cases raw with
  | nil => exact .inl ⟨rfl, rfl⟩
  | cons x rest =>
    simp only [List.mem_cons, forall_eq_or_imp] at hraw
    obtain ⟨hx, hrest⟩ := hraw
    exact .inr ⟨x, rest, rfl, coalescesTo_coalesceFrom hx hrest⟩

/-! ### Packing a run of one type (R157) -/

/-- `full` and then `last` hold the bytes `all` of a run of one type: full sections, and a last one that is not empty after a full
one. -/
structure Packs (type : SecType) (all : List Byte) (full : List Section) (last : Section) : Prop where
  isFull : ∀ x ∈ full, x.type = type ∧ x.payload.length = 65535
  lastType : last.type = type
  lastBounded : last.payload.length ≤ 65535
  lastNonempty : full ≠ [] → last.payload ≠ []
  bytes : full.flatMap Section.payload ++ last.payload = all

/-- A full section in front of a packing that is not empty. -/
theorem Packs.cons {type : SecType} {all : List Byte} {full : List Section} {last x : Section}
    (h : Packs type all full last) (hx : x.type = type ∧ x.payload.length = 65535) (hne : all ≠ []) :
    Packs type (x.payload ++ all) (x :: full) last where
  isFull := by simpa only [List.mem_cons, forall_eq_or_imp] using ⟨hx, h.isFull⟩
  lastType := h.lastType
  lastBounded := h.lastBounded
  lastNonempty _ := by
    cases full with
    | nil => rw [← h.bytes] at hne; exact hne
    | cons y full => exact h.lastNonempty (List.cons_ne_nil y full)
  bytes := by rw [List.flatMap_cons, List.append_assoc, h.bytes]

/-- Over a run of the accumulator's type the fold packs, whatever comes after. -/
theorem coalesceFrom_run {acc : Section} {run : List Section} (hacc : acc.payload.length ≤ 65535)
    (hrun : ∀ x ∈ run, x.type = acc.type ∧ x.payload.length ≤ 65535) :
    ∃ full last, Packs acc.type (acc.payload ++ run.flatMap Section.payload) full last ∧
      ∀ rest, coalesceFrom acc (run ++ rest) = full ++ coalesceFrom last rest := by
  induction run generalizing acc with
  | nil =>
    have hpacks : Packs acc.type (acc.payload ++ []) [] acc :=
      ⟨by simp, rfl, hacc, fun h => absurd rfl h, (List.append_nil _).symm⟩
    exact ⟨[], acc, hpacks, fun _ => rfl⟩
  | cons x run ih =>
    simp only [List.mem_cons, forall_eq_or_imp] at hrun
    obtain ⟨⟨ht, hx⟩, hrun⟩ := hrun
    obtain ⟨hmerged, hoverflow⟩ := cut_bounded hacc hx
    have hcut := mergedSection_append_overflowSection acc x
    simp only [List.cons_append, coalesceFrom_cons_eq hacc ht, List.flatMap_cons, ← List.append_assoc, ← hcut]
    split_ifs with hgt
    · obtain ⟨full, last, hpacks, hfold⟩ := ih (acc := overflowSection acc x) hoverflow hrun
      have hne : (overflowSection acc x).payload ≠ [] :=
        List.ne_nil_of_length_pos (by rw [length_overflowSection]; omega)
      refine ⟨mergedSection acc x :: full, last, ?_, fun rest => by rw [hfold, List.cons_append]⟩
      rw [List.append_assoc]
      exact hpacks.cons ⟨rfl, length_mergedSection_of_gt hgt⟩ (List.append_ne_nil_of_left_ne_nil hne _)
    · obtain ⟨full, last, hpacks, hfold⟩ := ih (acc := mergedSection acc x) hmerged hrun
      rw [mergedSection_of_fits (Nat.le_of_not_lt hgt)] at hpacks
      rw [hcut]
      exact ⟨full, last, hpacks, hfold⟩

/-- The sections of a packing: how many, how long, and what they hold. -/
theorem Packs.sections {type : SecType} {all : List Byte} {full : List Section} {last : Section}
    (h : Packs type all full last) :
    (∀ x ∈ full ++ [last], x.type = type ∧ x.payload.length ≤ 65535) ∧
    (full ++ [last]).flatMap Section.payload = all ∧
    (full ++ [last]).length = max 1 ((all.length + 65534) / 65535) ∧
    ∀ (k : Nat) (x : Section), (full ++ [last])[k]? = some x → k + 1 < (full ++ [last]).length →
      x.payload.length = 65535 := by
  refine ⟨fun x hx => ?_, by simpa using h.bytes, ?_, fun k x hx hk => ?_⟩
  · rcases List.mem_append.mp hx with hx | hx
    · obtain ⟨ht, hlen⟩ := h.isFull x hx
      exact ⟨ht, hlen.le⟩
    · rw [List.mem_singleton.mp hx]
      exact ⟨h.lastType, h.lastBounded⟩
  · have hfull : (full.flatMap Section.payload).length = 65535 * full.length := by
      rw [List.length_flatMap, List.map_congr_left fun x hx => (h.isFull x hx).2]
      simp [Nat.mul_comm]
    have hlen := h.lastBounded
    have hpos : full.length ≠ 0 → last.payload.length ≠ 0 := by simpa using h.lastNonempty
    rw [← h.bytes, List.length_append, List.length_append, hfull, List.length_singleton]
    omega
  · rw [List.length_append, List.length_singleton] at hk
    rw [List.getElem?_append_left (by omega)] at hx
    exact (h.isFull x (List.mem_of_getElem? hx)).2

/-- Settles O43: the packing of a run, and the chain of the fold's output. -/
theorem coalescingLaw : Obligations.CoalescingLaw := by
  refine ⟨fun type run hne hrun => ?_, fun raw k x y hraw hx hy => ?_⟩
  · obtain ⟨x, run, rfl⟩ := List.exists_cons_of_ne_nil hne
    simp only [List.mem_cons, forall_eq_or_imp] at hrun
    obtain ⟨⟨rfl, hx⟩, hrun⟩ := hrun
    obtain ⟨full, last, hpacks, hfold⟩ := coalesceFrom_run hx hrun
    have hout : coalesce (x :: run) = full ++ [last] := by simpa [coalesce, coalesceFrom] using hfold []
    obtain ⟨hsections, hbytes, hlength, hfull⟩ := hpacks.sections
    intro out all
    rw [show out = full ++ [last] from hout]
    refine ⟨hsections, hbytes, hlength, hfull, fun rest hrest => ?_⟩
    rw [List.cons_append, coalesce, hfold, List.append_assoc]
    cases rest with
    | nil => rfl
    | cons y rest => rw [coalesceFrom_cons_ne (hpacks.lastType.symm ▸ hrest y rfl)]; rfl
  · rcases coalesce_cases hraw with ⟨-, hc⟩ | ⟨_, _, -, hc⟩
    · simp [hc] at hx
    · exact isChain_getElem? hc.fullBeforeSameType hx hy

/-! ### Coalescing a list in which no Code section follows another (R158) -/

/-- Two sections of such a list that merge are Data sections. -/
theorem data_of_sameType {acc x : Section} {rest : List Section} (h : (acc :: x :: rest).IsChain DataAfterCode)
    (ht : x.type = acc.type) : acc.type = .data ∧ rest.IsChain DataAfterCode := by
  obtain ⟨hrel, htail⟩ := List.isChain_cons_cons.mp h
  refine ⟨?_, htail.tail⟩
  cases hacc : acc.type with
  | data => rfl
  | code => rw [← hacc, ← ht, hrel hacc]

/-- A property of every Code section of the list is one of every Code section put out: none is merged. -/
theorem CoalescesTo.code {P : Section → Prop} {acc : Section} {raw out : List Section} (h : CoalescesTo acc raw out)
    (hchain : (acc :: raw).IsChain DataAfterCode) (hP : ∀ x ∈ acc :: raw, x.type = .code → P x) :
    ∀ x ∈ out, x.type = .code → P x := by
  have hdata {y : Section} (hy : y.type = .data) : y.type = .code → P y := fun hcode => by simp [hy] at hcode
  induction h with
  | last => exact hP
  | fits ht _ _ ih =>
    obtain ⟨hacc, hrest⟩ := data_of_sameType hchain ht
    simp only [List.mem_cons, forall_eq_or_imp] at hP ih
    exact ih (dataAfterCode_cons hacc hrest) ⟨hdata hacc, hP.2.2⟩
  | full ht _ _ ih =>
    obtain ⟨hacc, hrest⟩ := data_of_sameType hchain ht
    simp only [List.mem_cons, forall_eq_or_imp] at hP ih ⊢
    exact ⟨hdata hacc, ih (dataAfterCode_cons hacc hrest) ⟨hdata hacc, hP.2.2⟩⟩
  | other _ _ _ ih =>
    simp only [List.mem_cons, forall_eq_or_imp] at hP ih ⊢
    exact ⟨hP.1, ih hchain.tail hP.2⟩

/-- Coalescing such a list changes nothing of what it stands for. -/
theorem CoalescesTo.flatMap_sectionBytes {acc : Section} {raw out : List Section} (h : CoalescesTo acc raw out)
    (hchain : (acc :: raw).IsChain DataAfterCode) :
    out.flatMap sectionBytes = sectionBytes acc ++ raw.flatMap sectionBytes := by
  induction h with
  | last => simp
  | @fits acc x rest out ht hfits _ ih =>
    obtain ⟨hacc, hrest⟩ := data_of_sameType hchain ht
    have hmerged : sectionBytes (mergedSection acc x) = acc.payload ++ x.payload := by
      rw [sectionBytes_data (x := mergedSection acc x) hacc, mergedSection_of_fits hfits]
    rw [ih (dataAfterCode_cons hacc hrest), hmerged, List.flatMap_cons, sectionBytes_data hacc,
      sectionBytes_data (ht.trans hacc), List.append_assoc]
  | @full acc x rest out ht _ _ ih =>
    obtain ⟨hacc, hrest⟩ := data_of_sameType hchain ht
    rw [List.flatMap_cons, ih (dataAfterCode_cons hacc hrest), List.flatMap_cons, sectionBytes_data (x := acc) hacc,
      sectionBytes_data (x := mergedSection acc x) hacc, sectionBytes_data (x := overflowSection acc x) hacc,
      sectionBytes_data (ht.trans hacc), ← List.append_assoc, mergedSection_append_overflowSection, List.append_assoc]
  | other _ _ _ ih => rw [List.flatMap_cons, ih hchain.tail, List.flatMap_cons]

/-! ### Coalescing the raw list -/

theorem scan_bounded (b : List Byte) : ∀ x ∈ scan b, x.payload.length ≤ 65535 := by
  intro x hx
  rcases scan_cases b with ⟨-, hs⟩ | ⟨-, hs⟩
  · rw [hs, List.mem_singleton] at hx
    subst hx
    exact Nat.zero_le _
  · rcases hs.shape x hx with ⟨-, start, delta, count, hp, -⟩ | ⟨-, hlen, -⟩
    · rw [hp]
      exact (by decide : 5 ≤ 65535)
    · omega

/-- The Code sections of the raw list are those of the loop (R152). -/
theorem scan_code {b : List Byte} {x : Section} (hx : x ∈ scan b) (ht : x.type = .code) :
    ∃ (start delta : Byte) (count : Half), x.payload = encode (.deltaIter start count delta) := by
  obtain ⟨hshape, -⟩ := rawListShape b
  have hcode := hshape x hx
  simp only [ht] at hcode
  obtain ⟨start, delta, count, hp, -⟩ := hcode
  exact ⟨start, delta, count, hp⟩

theorem coalesce_scan_bounded (b : List Byte) : ∀ x ∈ coalesce (scan b), x.payload.length ≤ 65535 := by
  rcases coalesce_cases (scan_bounded b) with ⟨-, hc⟩ | ⟨_, _, -, hc⟩
  · simp [hc]
  · exact hc.bounded

/-- Settles O44: no Code section of the raw list is merged. -/
theorem outputCodeSectionsHoldOneDeltaIter : Obligations.OutputCodeSectionsHoldOneDeltaIter := by
  intro b
  rcases coalesce_cases (scan_bounded b) with ⟨-, hc⟩ | ⟨x, rest, hs, hc⟩
  · simp [hc]
  · exact hc.code (hs ▸ scan_dataAfterCode b) fun y hy => scan_code (hs ▸ hy)

/-- The sections of COMPRESS's stream stand for its input (R151, R157). -/
theorem coalesce_scan_flatMap_sectionBytes (b : List Byte) : (coalesce (scan b)).flatMap sectionBytes = b := by
  rcases coalesce_cases (scan_bounded b) with ⟨hs, hc⟩ | ⟨x, rest, hs, hc⟩
  · rw [hc, ← hs]
    exact rawListCoversTheInput b
  · rw [hc.flatMap_sectionBytes (hs ▸ scan_dataAfterCode b), ← List.flatMap_cons, ← hs]
    exact rawListCoversTheInput b

/-- COMPRESS's bytes by R81. -/
theorem compress_eq_streamBytes (b : List Byte) : compress b = streamBytes (coalesce (scan b)) :=
  serialize_eq _ (coalesce_scan_bounded b)

end Sys2Proof.Machine
end

section
/-! PROOFS. The encoder's step order (41_encoder.md R150, R155, R159): one equation for each of its steps, and from them the statements
about the block's turns while the encoder runs. -/

namespace Sys2Proof.Machine

@[simp] theorem length_input (s : State) : s.input.length = s.n := length_readBytes _ _ _

theorem ofNat_n (s : State) : BitVec.ofNat 32 s.n = s.latch.aLen := by simp [State.n]

/-! ### The steps before Flush (R143 to R149) -/

section
variable {s : State}

/-- Detect with two bytes left measures the run. -/
theorem encTick_detect_run (hs : s.enc.state = .detect) (hfit : s.enc.anchor.toNat + 2 ≤ s.n) :
    encTick s = { s with
      enc := { s.enc with
        state := if (detectRun s.input s.enc.anchor.toNat).2 - s.enc.anchor.toNat - 1 > 10 then .emitCode
          else .emitLiteral
        j := BitVec.ofNat 32 (detectRun s.input s.enc.anchor.toNat).2
        delta := (detectRun s.input s.enc.anchor.toNat).1
        runLen := BitVec.ofNat 32 ((detectRun s.input s.enc.anchor.toNat).2 - s.enc.anchor.toNat - 1) } } := by
  rw [encTick, hs]
  rcases tickDetect_cases s with ⟨htail, -⟩ | ⟨-, hd⟩ | ⟨hempty, -⟩ | ⟨hend, -, -⟩
  · omega
  · exact hd
  · omega
  · omega

theorem encTick_detect_tail (hs : s.enc.state = .detect) (htail : s.enc.anchor.toNat + 1 = s.n) :
    encTick s = { s with enc := { s.enc with state := .emitTail } } := by
  rw [encTick, hs]
  rcases tickDetect_cases s with ⟨-, hd⟩ | ⟨hfit, -⟩ | ⟨hempty, -⟩ | ⟨hend, -, -⟩
  · exact hd
  · omega
  · omega
  · omega

/-- Detect past the last byte goes to Flush, with the empty Data section for the empty input (log 14). -/
theorem encTick_detect_end (hs : s.enc.state = .detect) (hend : s.n ≤ s.enc.anchor.toNat) :
    encTick s = { s with
      enc := { s.enc with
        state := .flush
        raw := if s.n = 0 then s.enc.raw ++ [{ type := .data, payload := [] }] else s.enc.raw } } := by
  rw [encTick, hs]
  rcases tickDetect_cases s with ⟨htail, -⟩ | ⟨hfit, -⟩ | ⟨hempty, hd⟩ | ⟨-, hne, hd⟩
  · omega
  · omega
  · rw [if_pos hempty]
    exact hd
  · rw [if_neg hne]
    exact hd

/-- EmitCode before the end of the input goes on to the break byte. -/
theorem encTick_emitCode_break (hs : s.enc.state = .emitCode) (hlt : s.enc.j.toNat < s.n) :
    encTick s = { s with
      enc := { s.enc with
        state := .emitBreak
        raw := s.enc.raw ++ [runSectionOf s.input s.enc.anchor.toNat s.enc.j.toNat s.enc.delta] } } := by
  simp only [encTick, hs, tickEmitCode, if_pos hlt]

/-- EmitCode at the end of the input goes back to Detect. -/
theorem encTick_emitCode_end (hs : s.enc.state = .emitCode) (hend : ¬ s.enc.j.toNat < s.n) :
    encTick s = { s with
      enc := { s.enc with
        state := .detect
        raw := s.enc.raw ++ [runSectionOf s.input s.enc.anchor.toNat s.enc.j.toNat s.enc.delta]
        anchor := s.latch.aLen } } := by
  simp only [encTick, hs, tickEmitCode, if_neg hend, emitRaw, ofNat_n]

theorem encTick_emitBreak (hs : s.enc.state = .emitBreak) :
    encTick s = { s with
      enc := { s.enc with
        state := .detect
        raw := s.enc.raw ++ [byteSection s.input s.enc.j.toNat]
        anchor := BitVec.ofNat 32 (s.enc.j.toNat + 1) } } := by
  rw [encTick, hs]
  rfl

theorem encTick_emitLiteral (hs : s.enc.state = .emitLiteral) :
    encTick s = { s with
      enc := { s.enc with
        state := .detect
        raw := s.enc.raw ++ [literalSection s.input s.enc.anchor.toNat s.enc.j.toNat]
        anchor := s.enc.j } } := by
  rw [encTick, hs]
  simp only [emitRaw, BitVec.ofNat_toNat, BitVec.setWidth_eq]

theorem encTick_emitTail (hs : s.enc.state = .emitTail) :
    encTick s = { s with
      enc := { s.enc with
        state := .detect
        raw := s.enc.raw ++ [byteSection s.input s.enc.anchor.toNat]
        anchor := s.latch.aLen } } := by
  rw [encTick, hs]
  simp only [emitRaw, ofNat_n]

end

/-! ### The first step (R40, R211) -/

/-- OP 0x01 selects COMPRESS (R88). -/
theorem fetchCommand_compress {s : State} (hop : cmdOp s.latch.cmd = 0x01) :
    ∃ type, fetchCommand s = .ok (.compress type) := by
  have hbyte : BitVec.ofNat 8 s.latch.cmd.toNat = 0x01 := by
    rw [← hop]
    apply BitVec.eq_of_toNat_eq
    simp [cmdOp]
  exact ⟨_, by simp only [fetchCommand, commandWord, numberBytes, hbyte]; rfl⟩

/-- A tick of an accepted COMPRESS makes the START check and starts the encoder. -/
theorem blockTick_compress {s : State} (ha : s.active = .accepted) (hop : cmdOp s.latch.cmd = 0x01) :
    blockTick s = .next (beginUnit .encoder startEncoder s) := by
  obtain ⟨type, hf⟩ := fetchCommand_compress hop
  simp only [blockTick, ha, hf]
  rfl

/-- Settles O55, by the equations of the steps. -/
theorem encoderTicksFollowTheOrder : Obligations.EncoderTicksFollowTheOrder := by
  refine ⟨fun s ha hop hn ht => ?_, fun s ha ht => ?_⟩
  · have hstart : startError (dropTurn s) = none := startError_none hn
    have hstep : step s = blockTick (dropTurn s) := by simp only [step, ht, takeTurn]
    rw [hstep, blockTick_compress (s := dropTurn s) ha hop, beginUnit, hstart]
    rfl
  · intro b a j raw
    rw [step_encoder ha ht]
    refine ⟨fun hs hfit => ?_, fun hs htail => ?_, fun hs hend => ?_, fun hs => ?_, fun hs => ?_, fun hs => ?_,
      fun hs => ?_⟩
    · exact congrArg _ (encTick_detect_run (s := dropTurn s) hs hfit)
    · exact congrArg _ (encTick_detect_tail (s := dropTurn s) hs htail)
    · exact congrArg _ (encTick_detect_end (s := dropTurn s) hs hend)
    · split_ifs with hlt
      · exact congrArg _ (encTick_emitCode_break (s := dropTurn s) hs hlt)
      · exact congrArg _ (encTick_emitCode_end (s := dropTurn s) hs hlt)
    · exact congrArg _ (encTick_emitBreak (s := dropTurn s) hs)
    · exact congrArg _ (encTick_emitLiteral (s := dropTurn s) hs)
    · exact congrArg _ (encTick_emitTail (s := dropTurn s) hs)

/-! ### Flush and Done (R155, R159) -/

section
variable {s : State} {x : Section} {rest : List Section}

/-- The first raw section becomes the accumulator. -/
theorem encTick_flush_load (hs : s.enc.state = .flush) (hraw : s.enc.raw = x :: rest) (hv : s.acc.valid = false) :
    encTick s = { s with enc := { s.enc with raw := rest }, acc := accOf x } := by
  simp only [encTick, hs, tickFlush, hraw, flushFold, hv]
  rfl

/-- A raw section of the other type puts the accumulator out. -/
theorem encTick_flush_other (hs : s.enc.state = .flush) (hraw : s.enc.raw = x :: rest) (hv : s.acc.valid = true)
    (ht : x.type ≠ s.acc.asSection.type) :
    encTick s = { s with
      enc := { s.enc with raw := rest, outs := s.enc.outs ++ [s.acc.asSection] }, acc := accOf x } := by
  simp only [encTick, hs, tickFlush, hraw, flushFold, hv, if_true, if_neg ht]

/-- A raw section of the accumulator's type is merged into it. -/
theorem encTick_flush_merge (hs : s.enc.state = .flush) (hraw : s.enc.raw = x :: rest) (hv : s.acc.valid = true)
    (ht : x.type = s.acc.asSection.type) :
    encTick s =
      if s.acc.asSection.payload.length + x.payload.length > 65535 then
        { s with
          enc := { s.enc with raw := rest, outs := s.enc.outs ++ [mergedSection s.acc.asSection x] }
          acc := accOf (overflowSection s.acc.asSection x) }
      else { s with enc := { s.enc with raw := rest }, acc := accOf (mergedSection s.acc.asSection x) } := by
  simp only [encTick, hs, tickFlush, hraw, flushFold, hv, if_true, if_pos ht,
    mergeSame_eq_cut x (asSection_bounded s.acc)]
  split_ifs <;> rfl

/-- With no raw section left the accumulator is put out. -/
theorem encTick_flush_last (hs : s.enc.state = .flush) (hraw : s.enc.raw = []) (hv : s.acc.valid = true) :
    encTick s = { s with
      enc := { s.enc with outs := s.enc.outs ++ [s.acc.asSection] }, acc := { s.acc with valid := false } } := by
  simp only [encTick, hs, tickFlush, hraw, hv, if_true]

/-- With the accumulator put out the stream is written to OUT, or CapacityExceeded. -/
theorem encTick_flush_write (hs : s.enc.state = .flush) (hraw : s.enc.raw = []) (hv : s.acc.valid = false) :
    (s.caps.outCap.toNat < (serialize s.enc.outs).length ∧
      encTick s = encFatal { kind := .capacityExceeded, off := 0 } s) ∨
    ((serialize s.enc.outs).length ≤ s.caps.outCap.toNat ∧
      encTick s = { s with
        enc := { s.enc with state := .done }, outBuf := s.outBuf.writeBytes 0 (serialize s.enc.outs) }) := by
  have htick : encTick s = flushWrite s := by
    simp only [encTick, hs, tickFlush, hraw, hv]
    rfl
  rw [htick, flushWrite]
  rcases memWrite_cases 0 (serialize s.enc.outs) s with ⟨hlt, hw⟩ | ⟨hle, hw⟩ <;> rw [Nat.zero_add] at *
  · exact .inl ⟨hlt, by rw [hw]⟩
  · exact .inr ⟨hle, by rw [hw]⟩

theorem encTick_done (hs : s.enc.state = .done) : encTick s = encodeDone s := by rw [encTick, hs]

end

section
variable {s : State} (h : EncoderInv s) (ha : s.active = .encoder)
include h ha

theorem serialize_outs : serialize s.enc.outs = streamBytes s.enc.outs :=
  serialize_eq _ fun x hx => h.sections ha x (List.mem_append_right _ hx)

/-- The end of Flush: CapacityExceeded, or the stream in OUT from offset 0 and the bytes past it as they were (R159). -/
theorem flushWrite_end (hs : s.enc.state = .flush) (hraw : s.enc.raw = []) (hv : s.acc.valid = false) :
    if (streamBytes s.enc.outs).length > s.caps.outCap.toNat then
      FatalEnd s (encTick s) { kind := .capacityExceeded, off := 0 } ∧
        (encTick s).enc = { s.enc with state := .fatal } ∧ (encTick s).acc = s.acc ∧ (encTick s).dec = s.dec
    else
      encTick s = { s with enc := { s.enc with state := .done }, outBuf := (encTick s).outBuf } ∧
        (∀ k, k < (streamBytes s.enc.outs).length →
          (encTick s).outBuf.read k = (streamBytes s.enc.outs).getD k 0) ∧
        ∀ k, (streamBytes s.enc.outs).length ≤ k → (encTick s).outBuf.read k = s.outBuf.read k := by
  rw [← serialize_outs h ha]
  rcases encTick_flush_write hs hraw hv with ⟨hlt, he⟩ | ⟨hle, he⟩ <;> rw [he]
  · rw [if_pos hlt]
    exact ⟨encFatal_end _ _ (by decide), rfl, rfl, rfl⟩
  · rw [if_neg (Nat.not_lt.mpr hle)]
    refine ⟨rfl, fun k hk => ?_, fun k hk => ?_⟩
    · simpa using read_writeBytes_inside k _ hk 0 s.outBuf
    · exact read_writeBytes_above _ (by omega) s.outBuf

/-- In Done the stream stands in OUT, so the command ends `Ok` with it (R140, R159). -/
theorem encodeDone_end (hs : s.enc.state = .done) :
    OkEnd s (encodeDone s) (streamBytes s.enc.outs) 0 0 false := by
  have hcap := s.caps.outCap.isLt
  obtain ⟨hlen, hbytes⟩ := h.done ha hs
  rw [encodeDone, serialize_outs h ha]
  exact finishOk_end (by omega) (by decide) (fun k hk => by rw [hbytes k hk]; rfl)
    (fun k hk => by rw [Memory.read, hbytes k hk]; rfl)

end

/-- Settles O56, by the equations of the steps; the invariant gives the accumulator's section and the stream in OUT. -/
theorem flushTicksFoldAndWrite : Obligations.FlushTicksFoldAndWrite := by
  intro s h ha ht held loaded
  have hloaded (x : Section) : loaded x = accOf x := by
    obtain ⟨type, payload⟩ := x
    cases type <;> rfl
  have hheld (hv : s.acc.valid = true) : s.acc.asSection = held := asSection_eq s.acc (h.acc ha hv).1
  have hdrop : EncoderInv (dropTurn s) := h.of_eq rfl rfl rfl rfl rfl rfl
  simp only [hloaded, step_encoder ha ht]
  refine ⟨fun x rest hs hraw => ⟨fun hv => ?_, fun hv hne => ?_, fun hv heq => ?_⟩, fun hs hraw hv => ?_,
    fun hs hraw hv => ?_, fun hs => ?_⟩
  · exact congrArg _ (encTick_flush_load (s := dropTurn s) hs hraw hv)
  · rw [← hheld hv] at hne ⊢
    exact congrArg _ (encTick_flush_other (s := dropTurn s) hs hraw hv hne)
  · rw [← hheld hv] at heq ⊢
    have hboth : (s.acc.asSection.payload ++ x.payload).length =
        s.acc.asSection.payload.length + x.payload.length := List.length_append
    rw [encTick_flush_merge (s := dropTurn s) hs hraw hv heq, dropTurn_acc, hboth]
    by_cases hgt : s.acc.asSection.payload.length + x.payload.length > 65535
    · rw [if_pos hgt, if_neg (Nat.not_le.mpr hgt)]
      rfl
    · rw [if_neg hgt, if_pos (Nat.not_lt.mp hgt), mergedSection_of_fits (Nat.not_lt.mp hgt)]
      rfl
  · rw [← hheld hv]
    exact congrArg _ (encTick_flush_last (s := dropTurn s) hs hraw hv)
  · exact ⟨_, rfl, flushWrite_end hdrop ha hs hraw hv⟩
  · rw [encTick_done (s := dropTurn s) hs]
    exact ⟨_, rfl, encodeDone_end hdrop ha hs, rfl, rfl, rfl⟩

end Sys2Proof.Machine
end

section
/-! PROOFS. COMPRESS (41_encoder.md R140, R160): how its meaning ends, and that the ticks of the step order (R150) reach the same end:
the rounds from Detect to Detect append the raw list, the folds of Flush put out the coalesced one. -/

namespace Sys2Proof.Machine

/-! ### How the meaning ends -/

/-- COMPRESS when the stream fits OUT: it is written, and ENC_STATE is Done (R140). -/
def compressed (s : State) : State :=
  { startEncoder s with
    enc := { (startEncoder s).enc with state := .done }
    outBuf := s.outBuf.writeBytes 0 (compress s.input) }

/-- What COMPRESS can do: BadCommand, CapacityExceeded, or the stream in OUT (R140, R160). -/
theorem runCompress_cases (s : State) :
    (s.caps.inCap.toNat < s.n ∧ runCompress s = raiseFatal { kind := .badCommand, off := 0 } s) ∨
    (s.n ≤ s.caps.inCap.toNat ∧ s.caps.outCap.toNat < (compress s.input).length ∧
      runCompress s = encFatal { kind := .capacityExceeded, off := 0 } (startEncoder s)) ∨
    (s.n ≤ s.caps.inCap.toNat ∧ (compress s.input).length ≤ s.caps.outCap.toNat ∧
      runCompress s = finishOk (compress s.input).length 0 0 false (compressed s)) := by
  by_cases hn : s.n ≤ s.caps.inCap.toNat
  · rcases memWrite_cases 0 (compress s.input) (startEncoder s) with ⟨hlt, hw⟩ | ⟨hle, hw⟩
    · exact .inr (.inl ⟨hn, by simpa using hlt, by simp only [runCompress, startError_none hn, hw]⟩)
    · exact .inr (.inr ⟨hn, by simpa using hle, by simp only [runCompress, startError_none hn, hw]; rfl⟩)
  · exact .inl ⟨by omega, by simp only [runCompress, startError_some (Nat.not_le.mp hn)]⟩

/-- `Ok` with bytes that a block write has put in OUT from offset 0 (R42, R61, R74). -/
theorem finishOk_of_written {s : State} {m : Memory} {out : List Byte} {resLen : Nat} {resType : Byte} {hasOvf : Bool}
    (hout : s.outBuf = m.writeBytes 0 out) (hlen : out.length < 4294967296) (hres : resLen < 4294967296) :
    OkEnd s (finishOk out.length resLen resType hasOvf s) out resLen resType hasOvf := by
  refine finishOk_end hlen hres (fun k hk => ?_) (fun k hk => ?_) <;> rw [hout]
  · rw [lookup_writeBytes hk]
    rfl
  · simpa using read_writeBytes_inside k out hk 0 m

/-- Settles O38, by how the meaning ends. -/
theorem compressWritesTheStream : Obligations.CompressWritesTheStream := by
  intro type s
  have hcap := s.caps.outCap.isLt
  have hout : compress s.input = streamBytes (coalesce (scan (s.inBuf.readBytes 0 s.n))) := compress_eq_streamBytes _
  have hframe (t : State) (ht : t = startEncoder s ∨ t = compressed s) : BlockFrame s t := by
    rcases ht with rfl | rfl <;> exact ⟨rfl, rfl, rfl, rfl, rfl, rfl, rfl, rfl, rfl, rfl⟩
  refine ⟨_, rfl, ?_⟩
  simp only [← hout]
  rcases runCompress_cases s with ⟨hlt, hr⟩ | ⟨hn, hlt, hr⟩ | ⟨hn, hle, hr⟩ <;> rw [hr]
  · rw [if_pos hlt]
    exact ⟨rfl, raiseFatal_end _ s (by decide)⟩
  · rw [if_neg (Nat.not_lt.mpr hn), if_pos hlt]
    exact ⟨rfl, (encFatal_end _ _ (by decide)).ofUnits (hframe _ (.inl rfl)) rfl⟩
  · rw [if_neg (Nat.not_lt.mpr hn), if_neg (Nat.not_lt.mpr hle)]
    exact ⟨rfl, (finishOk_of_written rfl (by omega) (by decide)).ofState (hframe _ (.inr rfl)) rfl⟩

/-! ### Runs of the step machine -/

/-- Some number of ticks leads from `s` to `t`. -/
def Reaches (s t : State) : Prop := ∃ k, ticks k s = t

theorem ticks_succ {s t : State} (h : blockTick s = .next t) (k : Nat) : ticks (k + 1) s = ticks k t := by
  simp only [ticks, h]

theorem ticks_add (j k : Nat) (s : State) : ticks (j + k) s = ticks k (ticks j s) := by
  induction j generalizing s with
  | zero => rw [Nat.zero_add]; rfl
  | succ j ih =>
    obtain ⟨t, ht⟩ := blockTick_next s
    rw [Nat.add_right_comm, ticks_succ ht, ticks_succ ht, ih]

theorem Reaches.refl (s : State) : Reaches s s := ⟨0, rfl⟩

theorem Reaches.trans {s t u : State} (h : Reaches s t) (h' : Reaches t u) : Reaches s u := by
  obtain ⟨j, rfl⟩ := h
  obtain ⟨k, rfl⟩ := h'
  exact ⟨j + k, ticks_add j k s⟩

/-- One step of the running encoder, and then more. -/
theorem Reaches.encStep {s t u : State} (ha : s.active = .encoder) (ht : encTick s = t) (h : Reaches t u) :
    Reaches s u := by
  obtain ⟨k, rfl⟩ := h
  have hb : blockTick s = .next t := by simp only [blockTick, ha, unitTick, ht]
  exact ⟨k + 1, ticks_succ hb k⟩

/-! ### The rounds from Detect to Detect -/

/-- A position inside the input fits J and ANCHOR. -/
theorem toNat_ofNat_of_le_n {s : State} {p : Nat} (h : p ≤ s.n) : (BitVec.ofNat 32 p).toNat = p :=
  Nat.mod_eq_of_lt (h.trans_lt s.latch.aLen.isLt)

/-- From Detect the ticks append `l` to the raw list and come back to Detect at anchor `a`. -/
def Appends (s : State) (l : List Section) (a : Nat) : Prop :=
  ∃ e : EncRegs, Reaches s { s with enc := e } ∧ e.state = .detect ∧ e.anchor.toNat = a ∧
    e.raw = s.enc.raw ++ l ∧ e.outs = s.enc.outs

section
variable {s : State} (ha : s.active = .encoder) (hs : s.enc.state = .detect)

include hs in
/-- What Detect loads, with two bytes left. -/
theorem detect_measures (hfit : s.enc.anchor.toNat + 2 ≤ s.n) :
    ∃ e : EncRegs, encTick s = { s with enc := e } ∧
      e.state = (if (detectRun s.input s.enc.anchor.toNat).2 - s.enc.anchor.toNat - 1 > 10 then .emitCode
        else .emitLiteral) ∧
      e.anchor = s.enc.anchor ∧ e.j.toNat = (detectRun s.input s.enc.anchor.toNat).2 ∧
      e.delta = (detectRun s.input s.enc.anchor.toNat).1 ∧ e.raw = s.enc.raw ∧ e.outs = s.enc.outs := by
  obtain ⟨-, hhi, -⟩ := detectRun_bounds (b := s.input) (by simpa using hfit)
  exact ⟨_, encTick_detect_run hs hfit, rfl, rfl, toNat_ofNat_of_le_n (by simpa using hhi), rfl, rfl, rfl⟩

include ha hs

theorem appends_tail (htail : s.enc.anchor.toNat + 1 = s.n) :
    Appends s [byteSection s.input s.enc.anchor.toNat] s.n :=
  ⟨_, .encStep ha (encTick_detect_tail hs htail) (.encStep ha (encTick_emitTail rfl) (.refl _)), rfl, rfl, rfl, rfl⟩

theorem appends_literal (hfit : s.enc.anchor.toNat + 2 ≤ s.n)
    (hshort : ¬ (detectRun s.input s.enc.anchor.toNat).2 - s.enc.anchor.toNat - 1 > 10) :
    Appends s [literalSection s.input s.enc.anchor.toNat (detectRun s.input s.enc.anchor.toNat).2]
      (detectRun s.input s.enc.anchor.toNat).2 := by
  obtain ⟨e, hdetect, hstate, hanchor, hj, -, hraw, houts⟩ := detect_measures hs hfit
  rw [if_neg hshort] at hstate
  have hemit := encTick_emitLiteral (s := { s with enc := e }) hstate
  exact ⟨_, .encStep ha hdetect (.encStep ha hemit (.refl _)), rfl, hj, by rw [← hj, ← hanchor, ← hraw]; rfl, houts⟩

theorem appends_run (hfit : s.enc.anchor.toNat + 2 ≤ s.n)
    (hlong : (detectRun s.input s.enc.anchor.toNat).2 - s.enc.anchor.toNat - 1 > 10)
    (hend : (detectRun s.input s.enc.anchor.toNat).2 = s.n) :
    Appends s [runSectionOf s.input s.enc.anchor.toNat (detectRun s.input s.enc.anchor.toNat).2
      (detectRun s.input s.enc.anchor.toNat).1] s.n := by
  obtain ⟨e, hdetect, hstate, hanchor, hj, hdelta, hraw, houts⟩ := detect_measures hs hfit
  rw [if_pos hlong] at hstate
  have hemit := encTick_emitCode_end (s := { s with enc := e }) hstate (Nat.not_lt.mpr (hend.symm.trans hj.symm).le)
  exact ⟨_, .encStep ha hdetect (.encStep ha hemit (.refl _)), rfl, rfl,
    by rw [← hj, ← hdelta, ← hanchor, ← hraw]; rfl, houts⟩

theorem appends_runBreak (hfit : s.enc.anchor.toNat + 2 ≤ s.n)
    (hlong : (detectRun s.input s.enc.anchor.toNat).2 - s.enc.anchor.toNat - 1 > 10)
    (hlt : (detectRun s.input s.enc.anchor.toNat).2 < s.n) :
    Appends s [runSectionOf s.input s.enc.anchor.toNat (detectRun s.input s.enc.anchor.toNat).2
      (detectRun s.input s.enc.anchor.toNat).1, byteSection s.input (detectRun s.input s.enc.anchor.toNat).2]
      ((detectRun s.input s.enc.anchor.toNat).2 + 1) := by
  obtain ⟨e, hdetect, hstate, hanchor, hj, hdelta, hraw, houts⟩ := detect_measures hs hfit
  rw [if_pos hlong] at hstate
  have hemit := encTick_emitCode_break (s := { s with enc := e }) hstate (hj.trans_lt hlt)
  have hreach := Reaches.encStep ha hdetect (.encStep ha hemit (.encStep ha (encTick_emitBreak rfl) (.refl _)))
  refine ⟨_, hreach, rfl, ?_, ?_, houts⟩
  · rw [← hj] at hlt ⊢
    exact toNat_ofNat_of_le_n (s := s) hlt
  · rw [← hj, ← hdelta, ← hanchor, ← hraw]
    exact List.append_assoc _ _ _

end

/-- The ticks from Detect to Flush append `l` to the raw list. -/
def ReachesFlush (s : State) (l : List Section) : Prop :=
  ∃ e : EncRegs, Reaches s { s with enc := e } ∧ e.state = .flush ∧ e.raw = s.enc.raw ++ l ∧ e.outs = s.enc.outs

/-- A round, and then more. -/
theorem Appends.reachesFlush {s : State} {l l' : List Section} {a : Nat} (h : Appends s l a)
    (h' : ∀ e : EncRegs, e.state = .detect → e.anchor.toNat = a → ReachesFlush { s with enc := e } l') :
    ReachesFlush s (l ++ l') := by
  obtain ⟨e, hreach, hstate, hanchor, hraw, houts⟩ := h
  obtain ⟨e', hreach', hstate', hraw', houts'⟩ := h' e hstate hanchor
  exact ⟨e', hreach.trans hreach', hstate', by rw [hraw', hraw, List.append_assoc], houts'.trans houts⟩

theorem reachesFlush_end {s : State} (ha : s.active = .encoder) (hs : s.enc.state = .detect)
    (hend : s.n ≤ s.enc.anchor.toNat) :
    ReachesFlush s (if s.n = 0 then [{ type := .data, payload := [] }] else []) := by
  refine ⟨_, .encStep ha (encTick_detect_end hs hend) (.refl _), rfl, ?_, rfl⟩
  split_ifs
  · rfl
  · exact (List.append_nil _).symm

/-- The ticks from Detect to Flush append what the loop of R149 gives. -/
theorem ScansTo.reachesFlush {b : List Byte} {a : Nat} {l : List Section} (h : ScansTo b a l) {s : State}
    (ha : s.active = .encoder) (hs : s.enc.state = .detect) (hanchor : s.enc.anchor.toNat = a) (hb : s.input = b)
    (hne : s.n ≠ 0) : ReachesFlush s l := by
  have hlen : b.length = s.n := by rw [← hb, length_input]
  have hdone {s : State} (ha : s.active = .encoder) (hs : s.enc.state = .detect) (hend : s.n ≤ s.enc.anchor.toNat)
      (hne : s.n ≠ 0) : ReachesFlush s [] := by
    simpa only [if_neg hne] using reachesFlush_end ha hs hend
  induction h generalizing s with
  | done hend => exact hdone ha hs (by omega) hne
  | tail htail =>
    subst hb hanchor
    exact (appends_tail ha hs (by omega)).reachesFlush fun e hs' ha' => hdone ha hs' ha'.ge hne
  | run hfit hlong hend =>
    subst hb hanchor
    exact (appends_run ha hs (by omega) hlong (by omega)).reachesFlush fun e hs' ha' => hdone ha hs' ha'.ge hne
  | runBreak hfit hlong hlt _ ih =>
    subst hb hanchor
    exact (appends_runBreak ha hs (by omega) hlong (by omega)).reachesFlush fun e hs' ha' => ih ha hs' ha' rfl hne hlen
  | literal hfit hshort _ ih =>
    subst hb hanchor
    exact (appends_literal ha hs (by omega) hshort).reachesFlush fun e hs' ha' => ih ha hs' ha' rfl hne hlen

/-- The ticks from the start to Flush make the raw list (R149). -/
theorem reachesFlush_scan {s : State} (ha : s.active = .encoder) (hs : s.enc.state = .detect)
    (hanchor : s.enc.anchor = 0) : ReachesFlush s (scan s.input) := by
  have hlen := length_input s
  have hzero : s.enc.anchor.toNat = 0 := by rw [hanchor]; rfl
  rcases scan_cases s.input with ⟨hnil, hscan⟩ | ⟨hne, hscan⟩
  · have hn : s.n = 0 := by rw [← hlen, hnil]; rfl
    rw [hscan]
    simpa only [if_pos hn] using reachesFlush_end ha hs (by omega)
  · have hn : s.n ≠ 0 := by rw [← hlen]; exact fun h => hne (List.length_eq_zero_iff.mp h)
    exact hscan.reachesFlush ha hs hzero rfl hn

/-! ### The folds of Flush -/

/-- The accumulator loaded with a bounded section is that section (R39). -/
theorem asSection_accOf {y : Section} (hy : y.payload.length ≤ 65535) : (accOf y).asSection = y := by
  rw [asSection_eq _ (accOf_inv hy).1]
  obtain ⟨type, payload⟩ := y
  cases type <;> rfl

/-- The ticks of Flush put out what the fold of R155 gives, and leave the accumulator empty. -/
def Folds (s : State) (out : List Section) : Prop :=
  ∃ r : AccRegs, r.valid = false ∧
    Reaches s { s with enc := { s.enc with raw := [], outs := s.enc.outs ++ out }, acc := r }

/-- A step that puts `put` out, and then more. -/
theorem Folds.encStep {s : State} {rest put out : List Section} {r : AccRegs} (ha : s.active = .encoder)
    (ht : encTick s = { s with enc := { s.enc with raw := rest, outs := s.enc.outs ++ put }, acc := r })
    (h : Folds { s with enc := { s.enc with raw := rest, outs := s.enc.outs ++ put }, acc := r } out) :
    Folds s (put ++ out) := by
  obtain ⟨r', hv, hreach⟩ := h
  refine ⟨r', hv, .encStep ha ht ?_⟩
  simpa only [List.append_assoc] using hreach

/-- A step that puts nothing out, and then more. -/
theorem Folds.encStep_merge {s : State} {rest out : List Section} {r : AccRegs} (ha : s.active = .encoder)
    (ht : encTick s = { s with enc := { s.enc with raw := rest }, acc := r })
    (h : Folds { s with enc := { s.enc with raw := rest }, acc := r } out) : Folds s out := by
  obtain ⟨r', hv, hreach⟩ := h
  exact ⟨r', hv, .encStep ha ht hreach⟩

theorem CoalescesTo.folds {y : Section} {raw out : List Section} (h : CoalescesTo y raw out) {s : State}
    (ha : s.active = .encoder) (hs : s.enc.state = .flush) (hraw : s.enc.raw = raw) (hacc : s.acc = accOf y)
    (hy : y.payload.length ≤ 65535) (hbound : ∀ x ∈ raw, x.payload.length ≤ 65535) : Folds s out := by
  have hv : s.acc.valid = true := by rw [hacc]; rfl
  have hsection : s.acc.asSection = y := by rw [hacc, asSection_accOf hy]
  induction h generalizing s with
  | @last y =>
    have htick := encTick_flush_last hs hraw hv
    rw [hsection] at htick
    exact ⟨_, rfl, .encStep ha htick (by rw [← hraw]; exact .refl _)⟩
  | @fits y x rest out ht hfits _ ih =>
    obtain ⟨hx, hrest⟩ := List.forall_mem_cons.mp hbound
    have hmerged := (cut_bounded hy hx).1
    have htick := encTick_flush_merge hs hraw hv (hsection ▸ ht)
    rw [hsection, if_neg (Nat.not_lt.mpr hfits)] at htick
    exact .encStep_merge ha htick (ih ha hs rfl rfl hmerged hrest rfl (asSection_accOf hmerged))
  | @full y x rest out ht hfull _ ih =>
    obtain ⟨hx, hrest⟩ := List.forall_mem_cons.mp hbound
    have hoverflow := (cut_bounded hy hx).2
    have htick := encTick_flush_merge hs hraw hv (hsection ▸ ht)
    rw [hsection, if_pos hfull] at htick
    exact .encStep ha htick (ih ha hs rfl rfl hoverflow hrest rfl (asSection_accOf hoverflow))
  | @other y x rest out _ ht _ ih =>
    obtain ⟨hx, hrest⟩ := List.forall_mem_cons.mp hbound
    have htick := encTick_flush_other hs hraw hv (hsection ▸ ht)
    rw [hsection] at htick
    exact .encStep ha htick (ih ha hs rfl rfl hx hrest rfl (asSection_accOf hx))

/-- The ticks of Flush put out the coalesced list (R155). -/
theorem folds_coalesce {s : State} (ha : s.active = .encoder) (hs : s.enc.state = .flush) (hv : s.acc.valid = false)
    (hbound : ∀ x ∈ s.enc.raw, x.payload.length ≤ 65535) : Folds s (coalesce s.enc.raw) := by
  rcases coalesce_cases hbound with ⟨hraw, hc⟩ | ⟨x, rest, hraw, hc⟩
  · refine ⟨s.acc, hv, ?_⟩
    rw [hc, List.append_nil, ← hraw]
    exact .refl s
  · obtain ⟨hx, hrest⟩ := List.forall_mem_cons.mp (hraw ▸ hbound)
    exact .encStep_merge ha (encTick_flush_load hs hraw hv) (hc.folds ha hs rfl rfl hx hrest)

/-! ### From the accepted COMPRESS to its end -/

/-- The started encoder comes to the end of Flush with the coalesced list put out. -/
theorem reaches_flushed (s : State) :
    ∃ e r, Reaches { startEncoder s with active := .encoder } { s with active := .encoder, enc := e, acc := r } ∧
      e.state = .flush ∧ e.raw = [] ∧ e.outs = coalesce (scan s.input) ∧ r.valid = false := by
  obtain ⟨e, hscan, hs, hraw, houts⟩ := reachesFlush_scan (s := { startEncoder s with active := .encoder }) rfl rfl rfl
  change e.raw = scan s.input at hraw
  obtain ⟨r, hv, hfold⟩ := folds_coalesce (s := { startEncoder s with active := .encoder, enc := e }) rfl hs rfl
    (by rw [hraw]; exact scan_bounded s.input)
  refine ⟨_, r, hscan.trans hfold, hs, rfl, ?_, hv⟩
  rw [houts, hraw]
  rfl

/-- The end of the ticks of an accepted COMPRESS, but for the encoder's and the coalescer's registers (U6). -/
theorem beginUnit_reaches_runCompress (s : State) :
    ∃ u, Reaches (beginUnit .encoder startEncoder s) u ∧
      { u with enc := (runCompress s).enc, acc := (runCompress s).acc } = runCompress s := by
  obtain ⟨e, r, hreach, hs, hraw, houts, hv⟩ := reaches_flushed s
  have hout : serialize e.outs = compress s.input := by rw [houts]; rfl
  have hwrite := encTick_flush_write (s := { s with active := .encoder, enc := e, acc := r }) hs hraw hv
  simp only [hout] at hwrite
  rcases runCompress_cases s with ⟨hlt, hr⟩ | ⟨hn, hlt, hr⟩ | ⟨hn, hle, hr⟩ <;> rw [beginUnit, hr]
  · rw [startError_some hlt]
    exact ⟨_, .refl _, rfl⟩
  · rw [startError_none hn]
    rcases hwrite with ⟨-, hfull⟩ | ⟨hle, -⟩
    · exact ⟨_, hreach.trans (.encStep rfl hfull (.refl _)), rfl⟩
    · omega
  · rw [startError_none hn]
    rcases hwrite with ⟨hlt, -⟩ | ⟨-, hwritten⟩
    · omega
    · refine ⟨_, hreach.trans (.encStep rfl hwritten (.encStep rfl (encTick_done rfl) (.refl _))), ?_⟩
      simp only [encodeDone, hout]
      rfl

/-- Settles O45: the first tick starts the encoder, the rounds make the raw list, the folds the coalesced one, and its bytes are
written. -/
theorem compressIsItsTicks : Obligations.CompressIsItsTicks := by
  intro s t type ha hop ht
  cases ht
  obtain ⟨u, ⟨k, rfl⟩, hend⟩ := beginUnit_reaches_runCompress s
  exact ⟨k + 1, Nat.succ_pos k, by rw [ticks_succ (blockTick_compress ha hop)]; exact hend⟩

end Sys2Proof.Machine
end

section
/-! PROOFS. Decompressing what COMPRESS gave (41_encoder.md R161; 42_decoder.md R192): the decoder's run over one section whose bytes
stand in IN, over a list of such sections, and so over COMPRESS's stream. -/

namespace Sys2Proof.Machine

/-! ### Bytes that stand in a buffer -/

/-- `bytes` stand in the buffer from `a` on. -/
def Memory.Holds (m : Memory) (a : Nat) (bytes : List Byte) : Prop := m.readBytes a bytes.length = bytes

theorem holds_cons {m : Memory} {a : Nat} {v : Byte} {rest : List Byte} :
    m.Holds a (v :: rest) ↔ m.read a = v ∧ m.Holds (a + 1) rest := by
  simp [Memory.Holds, Memory.readBytes]

theorem holds_append {m : Memory} {a : Nat} {p q : List Byte} :
    m.Holds a (p ++ q) ↔ m.Holds a p ∧ m.Holds (a + p.length) q := by
  induction p generalizing a with
  | nil => simp [Memory.Holds, Memory.readBytes]
  | cons v p ih =>
    rw [List.cons_append, holds_cons, holds_cons, ih, and_assoc, List.length_cons, Nat.add_right_comm, Nat.add_assoc a]

theorem holds_of_getD {m : Memory} {bytes : List Byte} (h : ∀ k, k < bytes.length → m.read k = bytes.getD k 0) :
    m.Holds 0 bytes := by
  refine List.ext_getElem (length_readBytes _ _ _) fun k hk hk' => ?_
  rw [← List.getD_eq_getElem _ 0 hk, ← List.getD_eq_getElem _ 0 hk', getD_readBytes hk', Nat.zero_add, h k hk']

/-! ### The run over sections -/

/-- From `s` the decoder has passed `len` bytes of the stream and emitted `out`. -/
structure Passed (s : State) (len : Nat) (out : List Byte) (t : State) : Prop extends StreamFrame s t where
  pc : t.dec.pc.toNat = s.dec.pc.toNat + len
  opos : t.dec.opos.toNat = s.dec.opos.toNat + out.length
  outBuf : t.outBuf = s.outBuf.writeUp s.dec.opos.toNat out

theorem Passed.trans {s t u : State} {len len' : Nat} {out out' : List Byte} (h : Passed s len out t)
    (h' : Passed t len' out' u) : Passed s (len + len') (out ++ out') u where
  toStreamFrame := h.toStreamFrame.trans h'.toStreamFrame
  pc := by rw [h'.pc, h.pc, Nat.add_assoc]
  opos := by rw [h'.opos, h.opos, List.length_append, Nat.add_assoc]
  outBuf := by rw [h'.outBuf, h.outBuf, h.opos, writeUp_append]

theorem StreamFrame.n_eq {s t : State} (h : StreamFrame s t) : t.n = s.n := by rw [State.n, h.latch, State.n]

section
variable {s : State}

theorem fetchSection_of_holds {i : Instr} (hi : i.level = .sectionStream) (hfit : s.dec.pc.toNat + 3 ≤ s.n)
    (h : s.inBuf.Holds s.dec.pc.toNat (encode i)) : fetchSection s = .ok i := by
  have hlen : (encode i).length = 3 := by
    cases i with
    | data | code => rfl
    | _ => cases hi
  have hd := decode_encode i []
  rw [List.append_nil, hi] at hd
  rw [Memory.Holds, hlen] at h
  exact fetchSection_of_decode hfit (by rw [State.inBytes, h]; exact hd)

theorem fetchInstruction_of_holds {start : Byte} {count : Half} {delta : Byte}
    (hfit : s.dec.payPos.toNat + 5 ≤ s.dec.secLen.toNat)
    (h : s.inBuf.Holds (tagOffset s) (encode (.deltaIter start count delta))) :
    fetchInstruction s = .ok (.deltaIter start count delta) := by
  have hd := decode_encode (.deltaIter start count delta) []
  rw [List.append_nil] at hd
  exact fetchInstruction_of_decode hfit (by rw [State.inBytes]; exact h.symm ▸ hd)

theorem decodeStream_section {i : Instr} {t : State} (hlt : s.dec.pc.toNat < s.n) (hf : fetchSection s = .ok i)
    (hr : runSection i s = .going t) (fuel : Nat) : decodeStream (fuel + 1) s = decodeStream fuel t := by
  simp only [decodeStream, if_pos hlt, hf, hr, going_andThen]

theorem decodeStream_end (h : s.dec.pc.toNat = s.n) (fuel : Nat) :
    decodeStream (fuel + 1) s = .going { s with dec := { s.dec with state := .done } } := by
  rw [decodeStream, if_neg h.ge.not_gt]

theorem interpret_instruction {i : Instr} (hlt : s.dec.payPos.toNat < s.dec.secLen.toNat)
    (hf : fetchInstruction s = .ok i) (fuel : Nat) :
    interpret (fuel + 1) s = (runInstruction i s).andThen (interpret fuel) := by
  simp only [interpret, if_pos hlt, hf]

theorem interpret_end (h : ¬ s.dec.payPos.toNat < s.dec.secLen.toNat) (fuel : Nat) :
    interpret fuel s = .going (closeSection s) := by
  cases fuel with
  | zero => rfl
  | succ fuel => rw [interpret, if_neg h]

theorem closeSection_pc (hfit : s.dec.pc.toNat + 3 + s.dec.secLen.toNat ≤ s.n) :
    (closeSection s).dec.pc.toNat = s.dec.pc.toNat + 3 + s.dec.secLen.toNat :=
  toNat_ofNat_of_le_n hfit

/-- A Data section that stands in IN and fits OUT is passed, its payload emitted (R183). -/
theorem passes_data {payload : List Byte} (hlen : payload.length ≤ 65535)
    (hfit : s.dec.pc.toNat + (3 + payload.length) ≤ s.n)
    (hin : s.inBuf.Holds s.dec.pc.toNat ({ type := .data, payload := payload } : Section).ser)
    (hroom : s.dec.opos.toNat + payload.length ≤ s.caps.outCap.toNat) (fuel : Nat) :
    ∃ t, Passed s (3 + payload.length) payload t ∧ decodeStream (fuel + 1) s = decodeStream fuel t := by
  obtain ⟨hheader, hpayload⟩ := holds_append.mp hin
  have hcap := s.caps.outCap.isLt
  have hlength : (BitVec.ofNat 16 payload.length).toNat = payload.length := Nat.mod_eq_of_lt (by omega)
  have hf : fetchSection s = .ok (.data (BitVec.ofNat 16 payload.length)) :=
    fetchSection_of_holds rfl (by omega) hheader
  have hr := runData_fits (s := s) (length := BitVec.ofNat 16 payload.length) (by omega) (by omega)
  rw [hlength] at hr
  refine ⟨_, ⟨StreamFrame.ofUpdate s _ _, ?_, ?_, ?_⟩, decodeStream_section (by omega) hf hr fuel⟩
  · have hpc := closeSection_pc (s := copied payload.length (entered .data (BitVec.ofNat 16 payload.length) s))
      (by show s.dec.pc.toNat + 3 + (BitVec.ofNat 16 payload.length).toNat ≤ s.n; omega)
    refine hpc.trans ?_
    show s.dec.pc.toNat + 3 + (BitVec.ofNat 16 payload.length).toNat = _
    omega
  · exact ofNat32_toNat_add s.dec.opos _ (by omega)
  · exact congrArg (s.outBuf.writeUp s.dec.opos.toNat) hpayload

/-- A Code section of one DeltaIter that stands in IN and fits OUT is passed, the run emitted (R184, R185). -/
theorem passes_deltaIter {start delta : Byte} {count : Half} (hfit : s.dec.pc.toNat + (3 + 5) ≤ s.n)
    (hin : s.inBuf.Holds s.dec.pc.toNat
      ({ type := .code, payload := encode (.deltaIter start count delta) } : Section).ser)
    (hroom : s.dec.opos.toNat + count.toNat ≤ s.caps.outCap.toNat) (fuel : Nat) :
    ∃ t, Passed s (3 + 5) (runBytes start count.toNat delta) t ∧ decodeStream (fuel + 1) s = decodeStream fuel t := by
  obtain ⟨hheader, hpayload⟩ := holds_append.mp hin
  have hcap := s.caps.outCap.isLt
  have hf : fetchSection s = .ok (.code 5) := fetchSection_of_holds rfl (by omega) hheader
  have hload : fetchInstruction (entered .code 5 s) = .ok (.deltaIter start count delta) :=
    fetchInstruction_of_holds (Nat.le_refl 5) hpayload
  have hrun := runDeltaIter_fits start delta (s := entered .code 5 s) hroom
  have hr : runSection (.code 5) s =
      .going (closeSection (closeDelta
        (emitted start delta count.toNat (loadDelta start count delta (entered .code 5 s))))) := by
    rw [runSection, runCode, enterSection_fits (s := s) .code (length := 5) hfit, going_andThen]
    refine (interpret_instruction (s := entered .code 5 s) (Nat.succ_pos 4) hload 4).trans ?_
    rw [runInstruction, hrun, going_andThen]
    exact interpret_end (by exact Nat.lt_irrefl 5) 4
  refine ⟨_, ⟨StreamFrame.ofUpdate s _ _, ?_, ?_, ?_⟩, decodeStream_section (by omega) hf hr fuel⟩
  · exact closeSection_pc (s := closeDelta _) hfit
  · rw [length_runBytes]
    exact ofNat32_toNat_add s.dec.opos _ (by omega)
  · rw [← runSlice_zero_eq]
    rfl

end

/-- A section that stands for bytes: a Data section, or a Code section of one DeltaIter, within its bound. -/
def WellCoded (x : Section) : Prop :=
  x.payload.length ≤ 65535 ∧
    (x.type = .code → ∃ (start delta : Byte) (count : Half), x.payload = encode (.deltaIter start count delta))

theorem passes_section {x : Section} (hx : WellCoded x) {s : State} (hfit : s.dec.pc.toNat + x.ser.length ≤ s.n)
    (hin : s.inBuf.Holds s.dec.pc.toNat x.ser)
    (hroom : s.dec.opos.toNat + (sectionBytes x).length ≤ s.caps.outCap.toNat) (fuel : Nat) :
    ∃ t, Passed s x.ser.length (sectionBytes x) t ∧ decodeStream (fuel + 1) s = decodeStream fuel t := by
  obtain ⟨type, payload⟩ := x
  obtain ⟨hlen, hcode⟩ := hx
  rw [length_ser] at hfit ⊢
  cases type with
  | data => exact passes_data hlen hfit hin hroom fuel
  | code =>
    obtain ⟨start, delta, count, rfl⟩ := hcode rfl
    rw [sectionBytes_deltaIter] at hroom ⊢
    rw [length_runBytes] at hroom
    exact passes_deltaIter hfit hin hroom fuel

/-- A stream of such sections is decoded to its end, and what they stand for is emitted (R187). -/
theorem decodeStream_serialize {l : List Section} (hl : ∀ x ∈ l, WellCoded x) {s : State}
    (hend : s.dec.pc.toNat + (serialize l).length = s.n) (hin : s.inBuf.Holds s.dec.pc.toNat (serialize l))
    (hroom : s.dec.opos.toNat + (l.flatMap sectionBytes).length ≤ s.caps.outCap.toNat) {fuel : Nat}
    (hfuel : l.length < fuel) :
    ∃ t, Passed s (serialize l).length (l.flatMap sectionBytes) t ∧
      decodeStream fuel s = .going { t with dec := { t.dec with state := .done } } := by
  obtain ⟨fuel, rfl⟩ : ∃ f, fuel = f + 1 := ⟨fuel - 1, by omega⟩
  induction l generalizing s fuel with
  | nil => exact ⟨s, ⟨StreamFrame.refl s, rfl, rfl, rfl⟩, decodeStream_end hend fuel⟩
  | cons x l ih =>
    obtain ⟨hx, hl⟩ := List.forall_mem_cons.mp hl
    obtain ⟨fuel, rfl⟩ : ∃ f, fuel = f + 1 := ⟨fuel - 1, by simp only [List.length_cons] at hfuel; omega⟩
    have hser : serialize (x :: l) = x.ser ++ serialize l := List.flatMap_cons
    rw [List.flatMap_cons, List.length_append] at hroom
    rw [hser, List.length_append] at hend
    rw [hser, holds_append] at hin
    obtain ⟨hinx, hinl⟩ := hin
    obtain ⟨t, hpass, hstep⟩ := passes_section hx (by omega) hinx (by omega) (fuel + 1)
    obtain ⟨u, hrest, hdone⟩ := ih hl (s := t) (by rw [hpass.pc, hpass.n_eq]; omega)
      (by rw [hpass.inBuf, hpass.pc]; exact hinl) (by rw [hpass.opos, hpass.caps]; omega) fuel
      (by simp only [List.length_cons] at hfuel; omega)
    refine ⟨u, ?_, hstep.trans hdone⟩
    rw [hser, List.flatMap_cons, List.length_append]
    exact hpass.trans hrest

/-! ### The round trip -/

/-- Every section takes at least its header. -/
theorem length_le_length_serialize (l : List Section) : l.length ≤ (serialize l).length := by
  induction l with
  | nil => exact Nat.le_refl 0
  | cons x l ih =>
    rw [show serialize (x :: l) = x.ser ++ serialize l from List.flatMap_cons, List.length_append, length_ser,
      List.length_cons]
    omega

/-- DECOMPRESS of a stream of such sections ends `Ok` with what they stand for (R180, R187). -/
theorem runDecompress_serialize {l : List Section} (hl : ∀ x ∈ l, WellCoded x) {u : State}
    (hn : u.n ≤ u.caps.inCap.toNat) (hlen : u.n = (serialize l).length) (hin : u.inBuf.Holds 0 (serialize l))
    (hroom : (l.flatMap sectionBytes).length ≤ u.caps.outCap.toNat) :
    OkEnd u (runDecompress u) (l.flatMap sectionBytes) 0 0 false := by
  have hcap := u.caps.outCap.isLt
  have hfuel := length_le_length_serialize l
  obtain ⟨t, hpass, hrun⟩ := decodeStream_serialize hl (s := startDecoder u) (fuel := u.n + 1)
    ((Nat.zero_add _).trans hlen.symm) hin ((Nat.zero_add _).trans_le hroom) (by omega)
  have hopos : t.dec.opos.toNat = (l.flatMap sectionBytes).length := hpass.opos.trans (Nat.zero_add _)
  have hout : t.outBuf = u.outBuf.writeUp 0 (l.flatMap sectionBytes) := hpass.outBuf
  have hframe : StreamFrame u { t with dec := { t.dec with state := .done } } :=
    ((StreamFrame.ofUpdate u _ _).trans hpass.toStreamFrame).trans (StreamFrame.ofUpdate t _ _)
  simp only [runDecompress, startError_none hn, hrun, decodeDone, hopos]
  refine (finishOk_end (by omega) (by decide) (fun k hk => ?_) (fun k hk => ?_)).ofState hframe.toBlockFrame
    hframe.draws
  · rw [hout]
    exact lookup_writeUp_isSome _ _ _ _ (.inr ⟨Nat.zero_le k, by omega⟩)
  · rw [hout, read_writeUp, if_pos ⟨Nat.zero_le k, by omega⟩, Nat.sub_zero]

/-- The sections of COMPRESS's stream (R158, R113). -/
theorem coalesce_scan_wellCoded (b : List Byte) : ∀ x ∈ coalesce (scan b), WellCoded x :=
  fun x hx => ⟨coalesce_scan_bounded b x hx, outputCodeSectionsHoldOneDeltaIter b x hx⟩

/-- Settles O46: OUT holds the stream of sections that stand for the input. -/
theorem compressThenDecompressIsTheInput : Obligations.CompressThenDecompressIsTheInput := by
  intro s t u type type' ht hok hlen hn hroom hin
  obtain ⟨t', ht', -, hend⟩ := compressWritesTheStream type s
  obtain rfl : t' = t := Host.Outcome.next.inj (ht'.symm.trans ht)
  have hstream := coalesce_scan_flatMap_sectionBytes s.input
  have hser : serialize (coalesce (scan s.input)) = streamBytes (coalesce (scan s.input)) := compress_eq_streamBytes _
  dsimp only at hend
  split_ifs at hend
  · exact absurd hend.fatal (by simp [hok])
  · exact absurd hend.fatal (by simp [hok])
  · have hn' : u.n = (serialize (coalesce (scan s.input))).length := by rw [hser, State.n, hlen]; exact hend.outLen
    have hholds : u.inBuf.Holds 0 (serialize (coalesce (scan s.input))) := by
      refine holds_of_getD fun k hk => ?_
      rw [hin k (hn' ▸ hk), hser]
      exact hend.bytes k (hser ▸ hk)
    refine ⟨_, rfl, ?_⟩
    have hok := runDecompress_serialize (coalesce_scan_wellCoded s.input) hn hn' hholds
      (by rw [hstream, length_input]; exact hroom)
    rwa [hstream] at hok

end Sys2Proof.Machine
end

section
/-! PROOFS. DATA and DELTAITER as wholes (42_decoder.md R183, R185): the loop of each fills OUT or reaches its closed form. -/

namespace Sys2Proof.Machine

/-! ### Room in OUT -/

/-- OUT has no room for `n` more bytes, and there are some (R61). -/
def Overflows (s : State) (n : Nat) : Prop := n ≠ 0 ∧ s.dec.opos.toNat + n > s.caps.outCap.toNat

theorem overflows_half (s : State) (v : Half) :
    Overflows s v.toNat ↔ v ≠ 0 ∧ s.dec.opos.toNat + v.toNat > s.caps.outCap.toNat := by
  rw [Overflows, Ne, Ne, ← BitVec.toNat_inj]
  rfl

theorem overflows_list (s : State) (out : List Byte) :
    Overflows s out.length ↔ out ≠ [] ∧ s.dec.opos.toNat + out.length > s.caps.outCap.toNat := by
  rw [Overflows, Ne, Ne, List.length_eq_zero_iff]

theorem room_of_not_overflows {s : State} {n : Nat} (h : ¬ Overflows s n) :
    n = 0 ∨ s.dec.opos.toNat + n ≤ s.caps.outCap.toNat := by
  unfold Overflows at h
  omega

/-- OPOS does not wrap over bytes that have room. -/
theorem opos_add_of_room {s : State} {n : Nat} (h : ¬ Overflows s n) :
    (BitVec.ofNat 32 (s.dec.opos.toNat + n)).toNat = s.dec.opos.toNat + n := by
  have hcap := s.caps.outCap.isLt
  have hopos := s.dec.opos.isLt
  have hroom := room_of_not_overflows h
  exact ofNat32_toNat_add s.dec.opos n (by omega)

/-! ### Bytes that a loop has written -/

theorem read_writeUp_inside (m : Memory) (a : Nat) {bytes : List Byte} {k : Nat} (h : k < bytes.length) :
    (m.writeUp a bytes).read (a + k) = bytes.getD k 0 := by
  rw [read_writeUp, if_pos (by omega), Nat.add_sub_cancel_left]

theorem read_writeUp_outside (m : Memory) (a : Nat) {bytes : List Byte} {x : Nat} (h : x < a ∨ a + bytes.length ≤ x) :
    (m.writeUp a bytes).read x = m.read x := by
  rw [read_writeUp, if_neg (by omega)]

/-! ### DATA (R183) -/

section
variable {length : Half} {s : State} (hfit : s.dec.pc.toNat + 3 + length.toNat ≤ s.n)
include hfit

theorem runData_overflows (h : Overflows s length.toNat) : EndedFull s (runData length s) := by
  rw [runData, enterSection_fits .data hfit, going_andThen]
  exact (copyPayload_full _ (entered .data length s) h.1 h.2).ofFrame (StreamFrame.ofUpdate s _ _)

theorem runData_copies (h : ¬ Overflows s length.toNat) :
    runData length s = .going (closeSection (copied length.toNat (entered .data length s))) := by
  have hpay : (entered .data length s).dec.payPos.toNat + length.toNat < 65536 :=
    (Nat.zero_add length.toNat).symm ▸ length.isLt
  rw [runData, enterSection_fits .data hfit, going_andThen]
  exact copyPayload_fits _ (entered .data length s) hpay (room_of_not_overflows h)

end

/-- Settles O19: the payload check, then the copy loop, which fills OUT or copies the payload. -/
theorem dataCopiesItsPayload : Obligations.DataCopiesItsPayload := by
  intro length s
  refine ⟨_, rfl, ?_⟩
  split_ifs with hpast hfull
  · rw [runData, enterSection_truncated .data hpast]
    exact decFatal_end _ s s.dec.pc.isLt
  · exact (runData_overflows (Nat.not_lt.mp hpast) ((overflows_half s length).mpr hfull)).fatal
  · rw [runData_copies (Nat.not_lt.mp hpast) (mt (overflows_half s length).mp hfull)]
    have htag : tagOffset (entered .data length s) = s.dec.pc.toNat + 3 := rfl
    refine ⟨StreamFrame.ofUpdate s _ _, ?_, fun k hk => ?_, fun a ha => ?_⟩
    · simp [copied, entered, payloadState, tagByte]
    · rw [going_state, closeSection_outBuf, copied, htag]
      exact (read_writeUp_inside _ s.dec.opos.toNat (by simpa using hk)).trans (getD_readBytes hk _ _)
    · exact read_writeUp_outside _ s.dec.opos.toNat (by simpa using ha)

/-! ### DELTAITER (R185) -/

section
variable (start : Byte) {count : Half} (delta : Byte) {s : State}

theorem runDeltaIter_overflows (h : Overflows s count.toNat) : EndedFull s (runDeltaIter start count delta s) :=
  (emitRun_full start delta _ (loadDelta start count delta s) h.1 h.2).ofFrame (StreamFrame.ofUpdate s _ _)

theorem runDeltaIter_emits (h : ¬ Overflows s count.toNat) :
    runDeltaIter start count delta s =
      .going (closeDelta (emitted start delta count.toNat (loadDelta start count delta s))) := by
  have hk : (loadDelta start count delta s).dec.diK.toNat + count.toNat < 65536 :=
    (Nat.zero_add count.toNat).symm ▸ count.isLt
  exact emitRun_fits start delta _ _ (runByte_zero start delta).symm hk (room_of_not_overflows h)

/-- The run that a loaded DeltaIter emits is the one of R185. -/
theorem emitted_loadDelta_outBuf (count : Half) (n : Nat) :
    (emitted start delta n (loadDelta start count delta s)).outBuf =
      s.outBuf.writeUp s.dec.opos.toNat (runBytes start n delta) := by
  rw [← runSlice_zero_eq]
  rfl

end

/-- Settles O20: the run loop fills OUT or emits the run. -/
theorem deltaIterEmitsItsRun : Obligations.DeltaIterEmitsItsRun := by
  intro start count delta s
  refine ⟨_, rfl, ?_⟩
  split_ifs with hfull
  · exact (runDeltaIter_overflows start delta ((overflows_half s count).mpr hfull)).fatal
  · rw [runDeltaIter_emits start delta (mt (overflows_half s count).mp hfull)]
    refine ⟨StreamFrame.ofUpdate s _ _, ?_, fun k hk => ?_, fun a ha => ?_⟩
    · simp [emitted, runByte]
    · rw [going_state, closeDelta_outBuf, emitted_loadDelta_outBuf]
      exact (read_writeUp_inside _ s.dec.opos.toNat (by simpa using hk)).trans (getD_runBytes start delta hk)
    · exact read_writeUp_outside _ s.dec.opos.toNat (by simpa using ha)

end Sys2Proof.Machine
end

section
/-! PROOFS. What a section stands for (42_decoder.md R181 to R186): a run of the decoder emits the bytes that its stretch of the stream
stands for, a Code payload those of `codeResult`, and ends in the stretch's error, unless OUT fills first (60_exceptions.md R215). -/

namespace Sys2Proof.Machine

/-! ### A run that emits bytes and may end in an error -/

/-- The run has ended in `e`, raised in a state that differs from `s` in OUT and the decoder only. -/
def EndedIn (s : State) (e : FatalErr) (r : Flow) : Prop :=
  e.off < 4294967296 ∧ ∃ u, StreamFrame s u ∧ r = .ended (decFatal e u)

theorem EndedIn.refl (s : State) {e : FatalErr} (he : e.off < 4294967296) : EndedIn s e (.ended (decFatal e s)) :=
  ⟨he, s, StreamFrame.refl s, rfl⟩

theorem EndedFull.endedIn {s : State} {r : Flow} (h : EndedFull s r) :
    EndedIn s { kind := .capacityExceeded, off := 0 } r :=
  ⟨by decide, h⟩

theorem EndedIn.ofFrame {s u : State} {e : FatalErr} {r : Flow} (h : StreamFrame s u) (h' : EndedIn u e r) :
    EndedIn s e r := by
  obtain ⟨he, v, hv, rfl⟩ := h'
  exact ⟨he, v, h.trans hv, rfl⟩

/-- A run that has ended runs nothing more. -/
theorem EndedIn.andThen_eq {s : State} {e : FatalErr} {r : Flow} (h : EndedIn s e r) (f : State → Flow) :
    r.andThen f = r := by
  obtain ⟨-, u, -, rfl⟩ := h
  rfl

theorem EndedIn.andThen {s : State} {e : FatalErr} {r : Flow} (h : EndedIn s e r) (f : State → Flow) :
    EndedIn s e (r.andThen f) := by
  rwa [h.andThen_eq]

theorem EndedIn.fatal {s : State} {e : FatalErr} {r : Flow} (h : EndedIn s e r) : FatalEnd s r.state e := by
  obtain ⟨he, u, hu, rfl⟩ := h
  exact (decFatal_end e u he).ofStream hu

/-- Two stretches of a stream one after the other: what the second emits comes after the first, unless the first ends in an error
(R215). -/
def Result.andThen (p q : List Byte × Option FatalErr) : List Byte × Option FatalErr :=
  match p with
  | (out, some e) => (out, some e)
  | (out, none) => (out ++ q.1, q.2)

theorem Result.length_le (p q : List Byte × Option FatalErr) : p.1.length ≤ (Result.andThen p q).1.length := by
  obtain ⟨out, e⟩ := p
  cases e with
  | some e => exact Nat.le_refl _
  | none => simp [Result.andThen]

theorem not_overflows_zero (s : State) : ¬ Overflows s 0 := fun h => h.1 rfl

theorem Overflows.mono {s : State} {m n : Nat} (h : Overflows s m) (hmn : m ≤ n) : Overflows s n := by
  unfold Overflows at h ⊢
  omega

/-- Once some bytes have been emitted, OUT overflows with the rest when it does with all of them. -/
theorem overflows_append {s t : State} {len : Nat} {out : List Byte} (hroom : ¬ Overflows s out.length)
    (hpass : Passed s len out t) (out' : List Byte) :
    Overflows s (out ++ out').length ↔ Overflows t out'.length := by
  have hopos := hpass.opos
  have hcaps := hpass.caps
  unfold Overflows at hroom ⊢
  rw [hopos, hcaps, List.length_append]
  omega

/-- How a run from `s` over a stretch of the stream can end, given what the stretch stands for: in CapacityExceeded, when OUT has no
room for its bytes; else in its error; else in a state that holds its bytes in OUT and meets `P`. -/
inductive Means (s : State) (P : State → Prop) : List Byte × Option FatalErr → Flow → Prop where
  | full {p : List Byte × Option FatalErr} {r : Flow} (hfull : Overflows s p.1.length)
      (h : EndedIn s { kind := .capacityExceeded, off := 0 } r) : Means s P p r
  | error {out : List Byte} {e : FatalErr} {r : Flow} (hroom : ¬ Overflows s out.length) (h : EndedIn s e r) :
      Means s P (out, some e) r
  | goes {out : List Byte} {len : Nat} {t : State} (hroom : ¬ Overflows s out.length) (hpass : Passed s len out t)
      (ht : P t) : Means s P (out, none) (.going t)

section
variable {s : State} {P : State → Prop} {r : Flow} {out : List Byte}

theorem Means.imp {p : List Byte × Option FatalErr} {Q : State → Prop} (h : Means s P p r) (hPQ : ∀ t, P t → Q t) :
    Means s Q p r := by
  cases h with
  | full hfull he => exact .full hfull he
  | error hroom he => exact .error hroom he
  | goes hroom hpass ht => exact .goes hroom hpass (hPQ _ ht)

theorem Means.endedFull {p : List Byte × Option FatalErr} (h : Means s P p r) (hfull : Overflows s p.1.length) :
    EndedIn s { kind := .capacityExceeded, off := 0 } r := by
  cases h with
  | full _ he => exact he
  | error hroom => exact absurd hfull hroom
  | goes hroom => exact absurd hfull hroom

theorem Means.endedIn {e : FatalErr} (h : Means s P (out, some e) r) (hroom : ¬ Overflows s out.length) :
    EndedIn s e r := by
  cases h with
  | full hfull => exact absurd hfull hroom
  | error _ he => exact he

theorem Means.going (h : Means s P (out, none) r) (hroom : ¬ Overflows s out.length) :
    ∃ len t, r = .going t ∧ Passed s len out t ∧ P t := by
  cases h with
  | full hfull => exact absurd hfull hroom
  | goes _ hpass ht => exact ⟨_, _, rfl, hpass, ht⟩

/-- A run over a stretch with an error has ended, in it or in CapacityExceeded. -/
theorem Means.ended {e : FatalErr} (h : Means s P (out, some e) r) : ∃ e', EndedIn s e' r := by
  cases h with
  | full _ he => exact ⟨_, he⟩
  | error _ he => exact ⟨_, he⟩

/-- Where a run goes on, it meets its condition. -/
theorem Means.of_going {p : List Byte × Option FatalErr} {t : State} (h : Means s P p r) (hr : r = .going t) :
    StreamFrame s t ∧ P t := by
  subst hr
  cases h with
  | full _ he =>
    obtain ⟨-, u, -, hu⟩ := he
    cases hu
  | error _ he =>
    obtain ⟨-, u, -, hu⟩ := he
    cases hu
  | goes _ hpass ht => exact ⟨hpass.toStreamFrame, ht⟩

end

/-- A stretch that emits nothing and ends in an error. -/
theorem Means.error_at {s : State} {P : State → Prop} {e : FatalErr} (he : e.off < 4294967296) :
    Means s P ([], some e) (.ended (decFatal e s)) :=
  .error (not_overflows_zero s) (.refl s he)

/-- A run may start in any state with the same OPOS that differs in OUT and the decoder only. -/
theorem Means.ofFrame {s u : State} {P : State → Prop} {p : List Byte × Option FatalErr} {r : Flow} {len : Nat}
    (h : Passed s len [] u) (h' : Means u P p r) : Means s P p r := by
  have hover (out : List Byte) := overflows_append (not_overflows_zero s) h out
  cases h' with
  | full hfull he => exact .full ((hover _).mpr hfull) (.ofFrame h.toStreamFrame he)
  | error hroom he => exact .error (mt (hover _).mp hroom) (.ofFrame h.toStreamFrame he)
  | goes hroom hpass ht => exact .goes (mt (hover _).mp hroom) (h.trans hpass) ht

/-- Two stretches one after the other. -/
theorem Means.andThen {s : State} {P Q : State → Prop} {p q : List Byte × Option FatalErr} {r : Flow}
    {f : State → Flow} (h : Means s P p r) (hf : ∀ t, StreamFrame s t → P t → Means t Q q (f t)) :
    Means s Q (Result.andThen p q) (r.andThen f) := by
  cases h with
  | full hfull he => exact .full (hfull.mono (Result.length_le p q)) (he.andThen f)
  | error hroom he => exact .error hroom (he.andThen f)
  | @goes out len t hroom hpass ht =>
    have hover (out' : List Byte) := overflows_append hroom hpass out'
    have hrest := hf t hpass.toStreamFrame ht
    rw [going_andThen]
    generalize f t = r at hrest
    cases hrest with
    | full hfull he => exact .full ((hover _).mpr hfull) (.ofFrame hpass.toStreamFrame he)
    | error hroom' he => exact .error (mt (hover _).mp hroom') (.ofFrame hpass.toStreamFrame he)
    | goes hroom' hpass' ht' => exact .goes (mt (hover _).mp hroom') (hpass.trans hpass') ht'

/-! ### What is left of a payload -/

/-- The payload bytes not yet consumed (R37). -/
def payloadLeft (s : State) : List Byte :=
  s.inBuf.readBytes (tagOffset s) (s.dec.secLen.toNat - s.dec.payPos.toNat)

/-- What a payload of `bytes` at offset `q` stands for, by its section's type (R183, R184). -/
def payloadResult : SecType → Nat → List Byte → List Byte × Option FatalErr
  | .data, _, bytes => (bytes, none)
  | .code, q, bytes => codeResult q bytes

/-- The loop that consumes the payload bytes left, their number first, by the section's type (R183, R184). -/
def runPayload : SecType → Nat → State → Flow
  | .data => copyPayload
  | .code => interpret

/-- The cursors lie inside a payload that lies inside the stream (R181, R186). -/
structure InPayload (s : State) : Prop where
  fit : s.dec.pc.toNat + 3 + s.dec.secLen.toNat ≤ s.n
  payPos : s.dec.payPos.toNat ≤ s.dec.secLen.toNat

/-- The section of `s` has been passed (R186). -/
structure Closed (s t : State) : Prop where
  state : t.dec.state = .readingHeader
  pc : t.dec.pc.toNat = s.dec.pc.toNat + 3 + s.dec.secLen.toNat
  secType : t.dec.secType = s.dec.secType
  secLen : t.dec.secLen = s.dec.secLen
  payPos : t.dec.payPos = s.dec.secLen

theorem InPayload.tagOffset_lt {s : State} (h : InPayload s) (hlt : s.dec.payPos.toNat < s.dec.secLen.toNat) :
    tagOffset s < 4294967296 := by
  have hn := s.latch.aLen.isLt
  have hfit := h.fit
  simp only [State.n] at hfit
  simp only [tagOffset, Config.headerLen]
  omega

theorem InPayload.closed {s : State} (h : InPayload s) (hend : s.dec.payPos = s.dec.secLen) :
    Closed s (closeSection s) :=
  ⟨rfl, closeSection_pc h.fit, rfl, rfl, hend⟩

theorem payloadLeft_end {s : State} (hend : s.dec.payPos.toNat = s.dec.secLen.toNat) : payloadLeft s = [] := by
  rw [payloadLeft, hend, Nat.sub_self]
  rfl

/-- The state after a DELTAITER (R185). -/
def afterDelta (start : Byte) (count : Half) (delta : Byte) (s : State) : State :=
  closeDelta (emitted start delta count.toNat (loadDelta start count delta s))

section
variable {s : State} (hfit : s.dec.payPos.toNat + 5 ≤ s.dec.secLen.toNat) (start : Byte) (count : Half) (delta : Byte)
include hfit

theorem afterDelta_payPos : (afterDelta start count delta s).dec.payPos.toNat = s.dec.payPos.toNat + 5 := by
  have hlt := s.dec.secLen.isLt
  exact ofNat16_toNat_add s.dec.payPos 5 (by omega)

theorem tagOffset_afterDelta : tagOffset (afterDelta start count delta s) = tagOffset s + 5 := by
  rw [tagOffset, afterDelta_payPos hfit, tagOffset]
  exact (Nat.add_assoc _ _ _).symm

theorem payloadLeft_afterDelta :
    payloadLeft (afterDelta start count delta s) =
      s.inBuf.readBytes (tagOffset s + 5) (s.dec.secLen.toNat - s.dec.payPos.toNat - 5) := by
  rw [payloadLeft, tagOffset_afterDelta hfit, afterDelta_payPos hfit, Nat.sub_sub]
  rfl

/-- With 5 payload bytes left, they are an instruction's and the rest comes after it. -/
theorem payloadLeft_cons :
    payloadLeft s = s.in1 (tagOffset s) :: s.in1 (tagOffset s + 1) :: s.in1 (tagOffset s + 2) ::
      s.in1 (tagOffset s + 3) :: s.in1 (tagOffset s + 4) :: payloadLeft (afterDelta start count delta s) := by
  rw [payloadLeft_afterDelta hfit]
  obtain ⟨r, hr⟩ : ∃ r, s.dec.secLen.toNat - s.dec.payPos.toNat = r + 5 := ⟨_, (Nat.sub_add_cancel (by omega)).symm⟩
  rw [payloadLeft, hr]
  rfl

end

@[simp] theorem afterDelta_secLen (start : Byte) (count : Half) (delta : Byte) (s : State) :
    (afterDelta start count delta s).dec.secLen = s.dec.secLen := rfl

theorem passed_afterDelta (start : Byte) {count : Half} (delta : Byte) {s : State} (h : ¬ Overflows s count.toNat) :
    Passed s 0 (runBytes start count.toNat delta) (afterDelta start count delta s) where
  toStreamFrame := StreamFrame.ofUpdate s _ _
  pc := rfl
  opos := by
    rw [length_runBytes]
    exact opos_add_of_room h
  outBuf := emitted_loadDelta_outBuf start delta count count.toNat

/-- DELTAITER stands for its run (R185). -/
theorem runDeltaIter_means (start : Byte) (count : Half) (delta : Byte) (s : State) :
    Means s (· = afterDelta start count delta s) (runBytes start count.toNat delta, none)
      (runDeltaIter start count delta s) := by
  by_cases hfull : Overflows s count.toNat
  · exact .full (by rwa [length_runBytes]) (runDeltaIter_overflows start delta hfull).endedIn
  · rw [runDeltaIter_emits start delta hfull]
    exact .goes (by rwa [length_runBytes]) (passed_afterDelta start delta hfull) rfl

/-! ### Code payloads (R184) -/

theorem codeResult_deltaIter (q : Nat) (start lo hi delta : Byte) (rest : List Byte) :
    codeResult q (0 :: start :: lo :: hi :: delta :: rest) =
      Result.andThen (runBytes start (le16 lo hi).toNat delta, none) (codeResult (q + 5) rest) := by
  rw [codeResult, if_pos rfl, le16_toNat]
  rfl

theorem codeResult_unknown {tag : Byte} (h : tag ≠ 0) (q : Nat) (rest : List Byte) :
    codeResult q (tag :: rest) = ([], some { kind := .unknownOpcode, off := q }) := by
  unfold codeResult
  split
  next heq => cases heq
  next heq => cases heq; rw [if_neg h]
  next heq => cases heq; rw [if_neg h]

theorem codeResult_cut (q : Nat) {rest : List Byte} (h : rest.length < 4) :
    codeResult q (0 :: rest) = ([], some { kind := .truncatedInstruction, off := q }) := by
  unfold codeResult
  split
  next heq => cases heq
  next heq =>
    cases heq
    simp only [List.length_cons] at h
    omega
  next heq => cases heq; rw [if_pos rfl]

/-- The fetch at the tag offset and `codeResult` find the same: an error there, or a DELTAITER and then the rest. -/
theorem instruction_cases {s : State} (hlt : s.dec.payPos.toNat < s.dec.secLen.toNat) :
    (∃ kind, fetchInstruction s = .error { kind := kind, off := tagOffset s } ∧
      codeResult (tagOffset s) (payloadLeft s) = ([], some { kind := kind, off := tagOffset s })) ∨
    (s.dec.payPos.toNat + 5 ≤ s.dec.secLen.toNat ∧ ∃ start count delta,
      fetchInstruction s = .ok (.deltaIter start count delta) ∧
      codeResult (tagOffset s) (payloadLeft s) =
        Result.andThen (runBytes start count.toNat delta, none)
          (codeResult (tagOffset (afterDelta start count delta s)) (payloadLeft (afterDelta start count delta s)))) := by
  obtain ⟨r, hr⟩ : ∃ r, s.dec.secLen.toNat - s.dec.payPos.toNat = r + 1 := ⟨_, (Nat.sub_add_cancel (by omega)).symm⟩
  have hleft : payloadLeft s = s.in1 (tagOffset s) :: s.inBuf.readBytes (tagOffset s + 1) r := by
    rw [payloadLeft, hr]
    rfl
  rcases fetchInstruction_cases s hlt with ⟨htag, hf⟩ | ⟨htag, ⟨hcut, hf⟩ | ⟨hfit, hf⟩⟩
  · exact .inl ⟨_, hf, by rw [hleft, codeResult_unknown htag]⟩
  · exact .inl ⟨_, hf, by rw [hleft, htag, codeResult_cut _ (by rw [length_readBytes]; omega)]⟩
  · refine .inr ⟨hfit, _, _, _, hf, ?_⟩
    rw [payloadLeft_cons hfit, htag, codeResult_deltaIter, tagOffset_afterDelta hfit]
    rfl

/-- At the end of its payload a section is passed (R186). -/
theorem closeSection_means {s : State} (h : InPayload s) (hend : s.dec.payPos = s.dec.secLen) :
    Means s (Closed s) ([], none) (.going (closeSection s)) := by
  have hclosed := h.closed hend
  exact .goes (len := 3 + s.dec.secLen.toNat) (not_overflows_zero s)
    ⟨StreamFrame.ofUpdate s _ _, hclosed.pc.trans (Nat.add_assoc _ _ _), rfl, rfl⟩ hclosed

theorem InPayload.afterDelta {s : State} (h : InPayload s) (hfit : s.dec.payPos.toNat + 5 ≤ s.dec.secLen.toNat)
    (start : Byte) (count : Half) (delta : Byte) : InPayload (afterDelta start count delta s) :=
  ⟨h.fit, (afterDelta_payPos hfit start count delta).trans_le hfit⟩

theorem interpret_end_means {s : State} (h : InPayload s) (hend : s.dec.payPos.toNat = s.dec.secLen.toNat) (fuel : Nat) :
    Means s (Closed s) (codeResult (tagOffset s) (payloadLeft s)) (interpret fuel s) := by
  rw [payloadLeft_end hend, interpret_end (Nat.not_lt.mpr hend.ge)]
  exact closeSection_means h (BitVec.eq_of_toNat_eq hend)

/-- The loop of R184 stands for what `codeResult` gives of the bytes left. -/
theorem interpret_means {s : State} (h : InPayload s) {fuel : Nat}
    (hfuel : s.dec.secLen.toNat - s.dec.payPos.toNat ≤ fuel) :
    Means s (Closed s) (codeResult (tagOffset s) (payloadLeft s)) (interpret fuel s) := by
  induction fuel generalizing s with
  | zero => exact interpret_end_means h (Nat.le_antisymm h.payPos (Nat.sub_eq_zero_iff_le.mp (Nat.le_zero.mp hfuel))) 0
  | succ fuel ih =>
    rcases h.payPos.lt_or_eq with hlt | hend
    · rcases instruction_cases hlt with ⟨kind, hf, hr⟩ | ⟨hfit, start, count, delta, hf, hr⟩ <;> rw [hr]
      · simp only [interpret, if_pos hlt, hf]
        exact .error_at (h.tagOffset_lt hlt)
      · rw [interpret_instruction hlt hf]
        refine (runDeltaIter_means start count delta s).andThen fun t _ ht => ?_
        subst ht
        exact (ih (h.afterDelta hfit start count delta) (by rw [afterDelta_payPos hfit, afterDelta_secLen]; omega)).imp
          fun t ht => ⟨ht.state, ht.pc, ht.secType, ht.secLen, ht.payPos⟩
    · exact interpret_end_means h hend _

/-- The loop of R183 stands for the payload bytes left. -/
theorem copyPayload_means {s : State} (h : InPayload s) :
    Means s (Closed s) (payloadLeft s, none) (copyPayload (s.dec.secLen.toNat - s.dec.payPos.toNat) s) := by
  have hpay := h.payPos
  have hlen : (payloadLeft s).length = s.dec.secLen.toNat - s.dec.payPos.toNat := length_readBytes _ _ _
  have hsum : s.dec.payPos.toNat + (s.dec.secLen.toNat - s.dec.payPos.toNat) = s.dec.secLen.toNat := by omega
  by_cases hfull : Overflows s (s.dec.secLen.toNat - s.dec.payPos.toNat)
  · exact .full (by rwa [hlen]) (EndedFull.endedIn (copyPayload_full _ s hfull.1 hfull.2))
  · rw [copyPayload_fits _ s (hsum.trans_lt s.dec.secLen.isLt) (room_of_not_overflows hfull)]
    have hclosed : Closed s (closeSection (copied (s.dec.secLen.toNat - s.dec.payPos.toNat) s)) :=
      ⟨rfl, closeSection_pc (s := copied _ s) h.fit, rfl, rfl, by simp [copied, hsum]⟩
    refine .goes (len := 3 + s.dec.secLen.toNat) (by rwa [hlen])
      ⟨StreamFrame.ofUpdate s _ _, hclosed.pc.trans (Nat.add_assoc _ _ _), ?_, rfl⟩ hclosed
    rw [hlen]
    exact opos_add_of_room hfull

/-- A payload stands for what its section's type makes of its bytes (R183, R184). -/
theorem runPayload_means (y : SecType) {s : State} (h : InPayload s) :
    Means s (Closed s) (payloadResult y (tagOffset s) (payloadLeft s))
      (runPayload y (s.dec.secLen.toNat - s.dec.payPos.toNat) s) := by
  cases y with
  | data => exact copyPayload_means h
  | code => exact interpret_means h (Nat.le_refl _)

/-! ### Sections (R181 to R186) -/

/-- The header of a section (R81). -/
def headerOf : SecType → Half → Instr
  | .data => .data
  | .code => .code

theorem runSection_headerOf (y : SecType) (length : Half) (s : State) :
    runSection (headerOf y length) s = (enterSection y length s).andThen (runPayload y length.toNat) := by
  cases y <;> rfl

section
variable (y : SecType) {length : Half} {s : State}

theorem runSection_truncated (h : s.n < s.dec.pc.toNat + 3 + length.toNat) :
    EndedIn s { kind := .truncatedStream, off := s.dec.pc.toNat } (runSection (headerOf y length) s) := by
  rw [runSection_headerOf, enterSection_truncated y h]
  exact .refl s s.dec.pc.isLt

variable (hfit : s.dec.pc.toNat + 3 + length.toNat ≤ s.n)
include hfit

theorem inPayload_entered : InPayload (entered y length s) := ⟨hfit, Nat.zero_le _⟩

/-- A section that lies in the stream stands for what its payload does. -/
theorem runSection_means :
    Means s (Closed (entered y length s))
      (payloadResult y (s.dec.pc.toNat + 3) (s.inBuf.readBytes (s.dec.pc.toNat + 3) length.toNat))
      (runSection (headerOf y length) s) := by
  rw [runSection_headerOf, enterSection_fits y hfit, going_andThen]
  have hentered : Passed s 0 [] (entered y length s) := ⟨StreamFrame.ofUpdate s _ _, rfl, rfl, rfl⟩
  exact (runPayload_means y (inPayload_entered y hfit)).ofFrame hentered

end

/-- Settles O21: the payload check, then what the payload stands for. -/
theorem codeInterpretsItsPayload : Obligations.CodeInterpretsItsPayload := by
  intro length s
  refine ⟨_, rfl, ?_⟩
  intro r
  have hmeans (hfit : ¬ s.dec.pc.toNat + 3 + length.toNat > s.n) :
      Means s (Closed (entered .code length s)) r (runCode length s) := runSection_means .code (Nat.not_lt.mp hfit)
  obtain ⟨out, e⟩ := r
  split_ifs with hpast hfull
  · exact (runSection_truncated .code hpast).fatal
  · exact ((hmeans hpast).endedFull ((overflows_list s out).mpr hfull)).fatal
  · have hroom := mt (overflows_list s out).mp hfull
    cases e with
    | some e => exact ((hmeans hpast).endedIn hroom).fatal
    | none =>
      obtain ⟨len, t, hr, hpass, hclosed⟩ := (hmeans hpast).going hroom
      rw [hr]
      refine ⟨hpass.toStreamFrame, hclosed.state, hclosed.pc, hclosed.secType, hclosed.secLen, hclosed.payPos,
        hpass.opos, fun k hk => ?_, fun a ha => ?_⟩
      · rw [going_state, hpass.outBuf]
        exact read_writeUp_inside _ _ hk
      · rw [going_state, hpass.outBuf]
        exact read_writeUp_outside _ _ ha

end Sys2Proof.Machine
end

section
/-! PROOFS. DECOMPRESS (42_decoder.md R180, R187, R192): the loop over the sections of a stream against `streamResult`, and how the
command ends. -/

namespace Sys2Proof.Machine

/-! ### What a stream stands for, section by section (R181 to R186) -/

/-- The ticks of a payload's instructions, two for each (R188). -/
def payloadSteps : SecType → Nat → Nat
  | .data, _ => 0
  | .code, length => 2 * (length / 5)

section
variable (fuel pc : Nat) (lo hi : Byte) (rest : List Byte)

theorem streamResult_unknown {type : Byte} (h : type ≠ 0 ∧ type ≠ 1) :
    streamResult (fuel + 1) pc (type :: lo :: hi :: rest) = ([], some { kind := .unknownSectionType, off := pc }) := by
  rw [streamResult, if_pos h]

theorem streamResult_truncated (y : SecType) (h : rest.length < (le16 lo hi).toNat) :
    streamResult (fuel + 1) pc (tagByte y :: lo :: hi :: rest) =
      ([], some { kind := .truncatedStream, off := pc }) := by
  rw [le16_toNat] at h
  rw [streamResult, if_neg (tagByte_legal y), if_pos h]

/-- A whole section, and then the rest of the stream. -/
theorem streamResult_section (y : SecType) (h : (le16 lo hi).toNat ≤ rest.length) :
    streamResult (fuel + 1) pc (tagByte y :: lo :: hi :: rest) =
      Result.andThen (payloadResult y (pc + 3) (rest.take (le16 lo hi).toNat))
        (streamResult fuel (pc + 3 + (le16 lo hi).toNat) (rest.drop (le16 lo hi).toNat)) := by
  rw [le16_toNat] at h ⊢
  rw [streamResult, if_neg (tagByte_legal y), if_neg (Nat.not_lt.mpr h)]
  cases y with
  | data => rfl
  | code =>
    simp only [tagByte, payloadResult]
    cases codeResult (pc + 3) (rest.take (lo.toNat + 256 * hi.toNat)) with
    | mk out e => cases e <;> rfl

theorem streamResult_short {bytes : List Byte} (hne : bytes ≠ []) (h : bytes.length < 3) :
    streamResult fuel pc bytes = ([], some { kind := .truncatedStream, off := pc }) := by
  match bytes with
  | [_] => cases fuel <;> rfl
  | [_, _] => cases fuel <;> rfl
  | _ :: _ :: _ :: _ => simp only [List.length_cons] at h; omega

theorem streamResult_nil : streamResult fuel pc [] = ([], none) := by
  cases fuel <;> rfl

theorem streamSteps_section (y : SecType) :
    streamSteps (fuel + 1) (tagByte y :: lo :: hi :: rest) =
      2 + payloadSteps y (le16 lo hi).toNat + streamSteps fuel (rest.drop (le16 lo hi).toNat) := by
  rw [streamSteps, le16_toNat]
  cases y <;> rfl

end

/-! ### What is left of the stream -/

/-- The bytes of the stream from PC on. -/
def streamLeft (s : State) : List Byte := s.inBuf.readBytes s.dec.pc.toNat (s.n - s.dec.pc.toNat)

theorem streamLeft_end {s : State} (h : s.dec.pc.toNat = s.n) : streamLeft s = [] := by
  rw [streamLeft, h, Nat.sub_self]
  rfl

/-- With 3 bytes left, they are a header's. -/
theorem streamLeft_cons {s : State} (h : s.dec.pc.toNat + 3 ≤ s.n) :
    streamLeft s = s.in1 s.dec.pc.toNat :: s.in1 (s.dec.pc.toNat + 1) :: s.in1 (s.dec.pc.toNat + 2) ::
      s.inBuf.readBytes (s.dec.pc.toNat + 3) (s.n - (s.dec.pc.toNat + 3)) := by
  obtain ⟨r, hr⟩ : ∃ r, s.n - s.dec.pc.toNat = r + 3 := ⟨_, (Nat.sub_add_cancel (by omega)).symm⟩
  have hrest : s.n - (s.dec.pc.toNat + 3) = r := by omega
  rw [streamLeft, hr, hrest]
  rfl

/-- A whole section stands at PC: the fetch finds its header, its payload fits, and what the stream stands for and the ticks it takes
are the section's and then those of the rest. -/
structure SectionAhead (s : State) (y : SecType) (length : Half) : Prop where
  fetch : fetchSection s = .ok (headerOf y length)
  fit : s.dec.pc.toNat + 3 + length.toNat ≤ s.n
  result (fuel : Nat) : streamResult (fuel + 1) s.dec.pc.toNat (streamLeft s) =
    Result.andThen
      (payloadResult y (s.dec.pc.toNat + 3) (s.inBuf.readBytes (s.dec.pc.toNat + 3) length.toNat))
      (streamResult fuel (s.dec.pc.toNat + 3 + length.toNat)
        (s.inBuf.readBytes (s.dec.pc.toNat + 3 + length.toNat) (s.n - (s.dec.pc.toNat + 3 + length.toNat))))
  steps (fuel : Nat) : streamSteps (fuel + 1) (streamLeft s) =
    2 + payloadSteps y length.toNat + streamSteps fuel
      (s.inBuf.readBytes (s.dec.pc.toNat + 3 + length.toNat) (s.n - (s.dec.pc.toNat + 3 + length.toNat)))

/-- The header that a fetch finds, by its type byte (R182). -/
theorem fetchSection_ok {s : State} {i : Instr} (h : fetchSection s = .ok i) :
    ∃ y, s.in1 s.dec.pc.toNat = tagByte y ∧ s.dec.pc.toNat + 3 ≤ s.n ∧
      i = headerOf y (s.in2 (s.dec.pc.toNat + 1)) := by
  rcases fetchSection_cases s with ⟨-, hf⟩ | ⟨hfit, ⟨-, -, hf⟩ | ⟨htype, hf⟩ | ⟨htype, hf⟩⟩ <;> rw [hf] at h <;> cases h
  · exact ⟨.data, htype, hfit, rfl⟩
  · exact ⟨.code, htype, hfit, rfl⟩

theorem fetchSection_error {s : State} {e : FatalErr} (hlt : s.dec.pc.toNat < s.n) (h : fetchSection s = .error e)
    (fuel : Nat) : e.off = s.dec.pc.toNat ∧ streamResult (fuel + 1) s.dec.pc.toNat (streamLeft s) = ([], some e) := by
  rcases fetchSection_cases s with ⟨hshort, hf⟩ | ⟨hfit, ⟨h0, h1, hf⟩ | ⟨-, hf⟩ | ⟨-, hf⟩⟩ <;> rw [hf] at h <;> cases h
  · have hlen : (streamLeft s).length = s.n - s.dec.pc.toNat := length_readBytes _ _ _
    have hne : streamLeft s ≠ [] := List.ne_nil_of_length_pos (hlen ▸ Nat.sub_pos_of_lt hlt)
    exact ⟨rfl, streamResult_short _ _ hne (by omega)⟩
  · exact ⟨rfl, by rw [streamLeft_cons hfit, streamResult_unknown _ _ _ _ _ ⟨h0, h1⟩]⟩

/-- What can stand at PC: no header, a section that is cut, or a whole section (R181). -/
theorem header_cases (s : State) :
    (∃ e, fetchSection s = .error e) ∨
    (∃ y length, fetchSection s = .ok (headerOf y length) ∧ s.n < s.dec.pc.toNat + 3 + length.toNat ∧
      ∀ fuel, streamResult (fuel + 1) s.dec.pc.toNat (streamLeft s) =
        ([], some { kind := .truncatedStream, off := s.dec.pc.toNat })) ∨
    ∃ y length, SectionAhead s y length := by
  cases hf : fetchSection s with
  | error e => exact .inl ⟨e, rfl⟩
  | ok i =>
    obtain ⟨y, htype, hfit, rfl⟩ := fetchSection_ok hf
    have hleft := streamLeft_cons hfit
    rw [htype] at hleft
    by_cases hcut : s.n < s.dec.pc.toNat + 3 + (s.in2 (s.dec.pc.toNat + 1)).toNat
    · refine .inr (.inl ⟨y, _, rfl, hcut, fun fuel => ?_⟩)
      have hlen : s.n - (s.dec.pc.toNat + 3) < (s.in2 (s.dec.pc.toNat + 1)).toNat := by omega
      rw [hleft, streamResult_truncated _ _ _ _ _ _ (by rw [length_readBytes]; exact hlen)]
    · have hlen : (s.in2 (s.dec.pc.toNat + 1)).toNat ≤ s.n - (s.dec.pc.toNat + 3) := by omega
      have htake := take_readBytes s.inBuf (s.dec.pc.toNat + 3) _ _ hlen
      have hdrop := drop_readBytes s.inBuf (s.dec.pc.toNat + 3) _ _ hlen
      rw [Nat.sub_sub] at hdrop
      refine .inr (.inr ⟨y, _, hf, Nat.not_lt.mp hcut, fun fuel => ?_, fun fuel => ?_⟩)
      · rw [hleft, streamResult_section _ _ _ _ _ _ (by rw [length_readBytes]; exact hlen), ← htake, ← hdrop]
        rfl
      · rw [hleft, streamSteps_section, ← hdrop]
        rfl

/-! ### The loop of R187 -/

/-- What is left of the stream after a section has been passed. -/
theorem streamLeft_closed {s t : State} {y : SecType} {length : Half} (h : StreamFrame s t)
    (hclosed : Closed (entered y length s) t) :
    t.dec.pc.toNat = s.dec.pc.toNat + 3 + length.toNat ∧
    streamLeft t = s.inBuf.readBytes (s.dec.pc.toNat + 3 + length.toNat)
      (s.n - (s.dec.pc.toNat + 3 + length.toNat)) := by
  have hpc : t.dec.pc.toNat = s.dec.pc.toNat + 3 + length.toNat := hclosed.pc
  exact ⟨hpc, by rw [streamLeft, hpc, h.n_eq, h.inBuf]⟩

theorem decodeStream_end_means {s : State} (hend : s.dec.pc.toNat = s.n) {fuel : Nat} :
    Means s (·.dec.state = .done) (streamResult fuel s.dec.pc.toNat (streamLeft s)) (decodeStream (fuel + 1) s) := by
  rw [streamLeft_end hend, streamResult_nil, decodeStream_end hend]
  exact .goes (len := 0) (not_overflows_zero s) ⟨StreamFrame.ofUpdate s _ _, rfl, rfl, rfl⟩ rfl

/-- The loop of R187 stands for what `streamResult` gives of the bytes left. -/
theorem decodeStream_means {s : State} (hpc : s.dec.pc.toNat ≤ s.n) {fuel : Nat} (hfuel : s.n - s.dec.pc.toNat ≤ fuel) :
    Means s (·.dec.state = .done) (streamResult fuel s.dec.pc.toNat (streamLeft s)) (decodeStream (fuel + 1) s) := by
  induction fuel generalizing s with
  | zero => exact decodeStream_end_means (by omega)
  | succ fuel ih =>
    rcases hpc.lt_or_eq with hlt | hend
    · rcases header_cases s with ⟨e, hf⟩ | ⟨y, length, hf, hcut, hr⟩ | ⟨y, length, hahead⟩
      · obtain ⟨hoff, hr⟩ := fetchSection_error hlt hf fuel
        simp only [hr, decodeStream, if_pos hlt, hf]
        exact .error_at (hoff ▸ s.dec.pc.isLt)
      · simp only [hr, decodeStream, if_pos hlt, hf]
        exact .error (not_overflows_zero s) ((runSection_truncated y hcut).andThen _)
      · have hfit := hahead.fit
        rw [hahead.result, decodeStream, if_pos hlt, hahead.fetch]
        refine (runSection_means y hahead.fit).andThen fun t hframe hclosed => ?_
        obtain ⟨hpc', hleft⟩ := streamLeft_closed hframe hclosed
        rw [← hleft, ← hpc']
        exact ih (by rw [hframe.n_eq]; omega) (by rw [hframe.n_eq]; omega)
    · exact decodeStream_end_means hend

/-! ### The command -/

theorem startDecoder_frame (s : State) : StreamFrame s (startDecoder s) := StreamFrame.ofUpdate s _ _

/-- From its start the decoder overflows OUT when the bytes are more than OUT_CAP. -/
theorem overflows_startDecoder (s : State) (n : Nat) : Overflows (startDecoder s) n ↔ n > s.caps.outCap.toNat := by
  change n ≠ 0 ∧ 0 + n > s.caps.outCap.toNat ↔ _
  omega

/-- The run of DECOMPRESS stands for what `streamResult` gives of the input. -/
theorem decompress_means (s : State) :
    Means (startDecoder s) (·.dec.state = .done) (streamResult s.n 0 s.input) (decodeStream (s.n + 1) (startDecoder s)) :=
  decodeStream_means (s := startDecoder s) (Nat.zero_le s.n) (Nat.le_refl s.n)

section
variable {s : State} (hn : s.n ≤ s.caps.inCap.toNat)
include hn

theorem runDecompress_going {t : State} (h : decodeStream (s.n + 1) (startDecoder s) = .going t) :
    runDecompress s = decodeDone t := by
  simp only [runDecompress, startError_none hn, h]

theorem runDecompress_ended {t : State} (h : decodeStream (s.n + 1) (startDecoder s) = .ended t) :
    runDecompress s = t := by
  simp only [runDecompress, startError_none hn, h]

/-- DECOMPRESS whose run ends in an error ends in it. -/
theorem runDecompress_endedIn {e : FatalErr}
    (h : EndedIn (startDecoder s) e (decodeStream (s.n + 1) (startDecoder s))) :
    (runDecompress s).enc = s.enc ∧ (runDecompress s).acc = s.acc ∧ FatalEnd s (runDecompress s) e := by
  obtain ⟨he, u, hframe, hr⟩ := h.ofFrame (startDecoder_frame s)
  rw [runDecompress_ended hn hr]
  exact ⟨hframe.enc, hframe.acc, (decFatal_end e u he).ofStream hframe⟩

end

/-- The decoder ends DECOMPRESS `Ok` with the bytes it has emitted (R180). -/
theorem decodeDone_end {s t : State} {len : Nat} {out : List Byte} (h : Passed (startDecoder s) len out t)
    (hroom : ¬ out.length > s.caps.outCap.toNat) : OkEnd s (decodeDone t) out 0 0 false := by
  have hlen : out.length < 4294967296 := (Nat.not_lt.mp hroom).trans_lt s.caps.outCap.isLt
  have hframe := (startDecoder_frame s).trans h.toStreamFrame
  have hopos : t.dec.opos.toNat = out.length := h.opos.trans (Nat.zero_add _)
  have hout : t.outBuf = s.outBuf.writeUp 0 out := h.outBuf
  rw [decodeDone, hopos]
  refine (finishOk_end hlen (by decide) (fun k hk => ?_) (fun k hk => ?_)).ofState hframe.toBlockFrame hframe.draws
  · rw [hout]
    exact lookup_writeUp_isSome _ _ _ _ (.inr ⟨Nat.zero_le k, by omega⟩)
  · rw [hout]
    simpa using read_writeUp_inside s.outBuf 0 hk

/-- Settles O28: the START check, then what the stream stands for, from offset 0 of IN and of OUT. -/
theorem decompressMeetsTheStreamsMeaning : Obligations.DecompressMeetsTheStreamsMeaning := by
  intro type s
  refine ⟨runDecompress s, rfl, ?_⟩
  have hmeans := decompress_means s
  generalize streamResult s.n 0 s.input = r at hmeans
  obtain ⟨out, e⟩ := r
  dsimp only
  split_ifs with hcap hfull
  · rw [runDecompress, startError_some hcap]
    exact ⟨rfl, rfl, raiseFatal_end _ s (by decide)⟩
  · exact runDecompress_endedIn (Nat.not_lt.mp hcap) (hmeans.endedFull ((overflows_startDecoder s _).mpr hfull))
  · have hroom := mt (overflows_startDecoder s out.length).mp hfull
    cases e with
    | some e => exact runDecompress_endedIn (Nat.not_lt.mp hcap) (hmeans.endedIn hroom)
    | none =>
      obtain ⟨len, t, hr, hpass, -⟩ := hmeans.going hroom
      rw [runDecompress_going (Nat.not_lt.mp hcap) hr]
      exact ⟨hpass.enc, hpass.acc, decodeDone_end hpass hfull⟩

end Sys2Proof.Machine
end

section
/-! PROOFS. The rows of the decoder's step table, one tick each (42_decoder.md R188), the order of the checks of a header and of an
instruction on either of the block's turns (R181, R184), and the closed form of a run's ticks (R189). -/

namespace Sys2Proof.Machine

/-! ### One tick, by DEC_STATE (R188) -/

section
variable {s : State}

theorem decTick_header_end (hs : s.dec.state = .readingHeader) (hend : s.dec.pc.toNat = s.n) :
    decTick s = { s with dec := { s.dec with state := .done } } := by
  simp only [decTick, hs, tickHeader, if_neg hend.ge.not_gt]

theorem decTick_header_error (hs : s.dec.state = .readingHeader) (hlt : s.dec.pc.toNat < s.n) {e : FatalErr}
    (hf : fetchSection s = .error e) : decTick s = decFatal e s := by
  simp only [decTick, hs, tickHeader, if_pos hlt, hf]

theorem decTick_header (hs : s.dec.state = .readingHeader) (hlt : s.dec.pc.toNat < s.n) {y : SecType} {length : Half}
    (hf : fetchSection s = .ok (headerOf y length)) : decTick s = (enterSection y length s).state := by
  simp only [decTick, hs, tickHeader, if_pos hlt, hf]
  cases y <;> rfl

theorem decTick_copy (hs : s.dec.state = .copyingLiteral) (hlt : s.dec.payPos.toNat < s.dec.secLen.toNat) :
    decTick s = (copyByte s).state := by
  simp only [decTick, hs, if_pos hlt]

theorem decTick_instruction_error (hs : s.dec.state = .interpretingInstructions)
    (hlt : s.dec.payPos.toNat < s.dec.secLen.toNat) {e : FatalErr} (hf : fetchInstruction s = .error e) :
    decTick s = decFatal e s := by
  simp only [decTick, hs, tickInterpret, if_pos hlt, hf]

theorem decTick_instruction (hs : s.dec.state = .interpretingInstructions)
    (hlt : s.dec.payPos.toNat < s.dec.secLen.toNat) {start : Byte} {count : Half} {delta : Byte}
    (hf : fetchInstruction s = .ok (.deltaIter start count delta)) : decTick s = loadDelta start count delta s := by
  simp only [decTick, hs, tickInterpret, if_pos hlt, hf, loadInstr]

theorem decTick_payload_end (hs : s.dec.state = .copyingLiteral ∨ s.dec.state = .interpretingInstructions)
    (hend : s.dec.payPos = s.dec.secLen) : decTick s = closeSection s := by
  rcases hs with hs | hs <;> simp [decTick, hs, tickInterpret, hend]

theorem decTick_run (hs : s.dec.state = .emittingRun) (hlt : s.dec.diK.toNat < s.dec.diCount.toNat) :
    decTick s = (emitRunByte s).state := by
  simp only [decTick, hs, if_pos hlt]

theorem decTick_run_end (hs : s.dec.state = .emittingRun) (hend : s.dec.diK = s.dec.diCount) :
    decTick s = closeDelta s := by
  simp [decTick, hs, hend]

theorem decTick_done (hs : s.dec.state = .done) : decTick s = decodeDone s := by simp only [decTick, hs]

/-- What emitting a byte of a run can do, whatever DI_VAL holds. -/
theorem emitRunByte_writes (s : State) :
    (s.caps.outCap.toNat ≤ s.dec.opos.toNat ∧
      emitRunByte s = .ended (decFatal { kind := .capacityExceeded, off := 0 } s)) ∨
    (s.dec.opos.toNat < s.caps.outCap.toNat ∧
      emitRunByte s = .going { s with
        outBuf := s.outBuf.write s.dec.opos.toNat s.dec.diVal
        dec := { s.dec with
          opos := BitVec.ofNat 32 (s.dec.opos.toNat + 1)
          diK := BitVec.ofNat 16 (s.dec.diK.toNat + 1)
          diVal := s.dec.diVal + s.dec.diDelta } }) := by
  rcases emitByte_cases s.dec.diVal s with ⟨hfull, he⟩ | ⟨hlt, he⟩
  · exact .inl ⟨hfull, by rw [emitRunByte, he, ended_andThen]⟩
  · exact .inr ⟨hlt, by rw [emitRunByte, he, going_andThen]⟩

end

/-- Settles O24, row by row. -/
theorem decoderTicksFollowTheTable : Obligations.DecoderTicksFollowTheTable := by
  intro s ha ht
  rw [step_decoder_tick ha ht]
  refine ⟨fun hs hend => ?_, fun hs hend => ?_, fun hs hlt => ⟨_, rfl, ?_⟩, fun hs hend => ?_,
    fun hs hlt => ⟨_, rfl, ?_⟩, fun h hs => ⟨_, rfl, ?_⟩⟩
  · rw [decTick_header_end (s := dropTurn s) hs hend]
    rfl
  · rw [decTick_payload_end (s := dropTurn s) hs hend]
    rfl
  · rw [decTick_copy (s := dropTurn s) hs hlt]
    rcases copyByte_cases (dropTurn s) with ⟨(hfull : s.caps.outCap.toNat ≤ s.dec.opos.toNat), he⟩ |
      ⟨(hroom : s.dec.opos.toNat < s.caps.outCap.toNat), he⟩ <;> rw [he]
    · rw [if_neg (Nat.not_lt.mpr hfull)]
      exact decFatal_end _ _ (by decide)
    · rw [if_pos hroom]
      exact ⟨copied_frame 1 _, rfl, read_write_same _ _ _, fun a hne => read_write_other hne _ _⟩
  · rw [decTick_run_end (s := dropTurn s) hs hend]
    rfl
  · rw [decTick_run (s := dropTurn s) hs hlt]
    rcases emitRunByte_writes (dropTurn s) with ⟨(hfull : s.caps.outCap.toNat ≤ s.dec.opos.toNat), he⟩ |
      ⟨(hroom : s.dec.opos.toNat < s.caps.outCap.toNat), he⟩ <;> rw [he]
    · rw [if_neg (Nat.not_lt.mpr hfull)]
      exact decFatal_end _ _ (by decide)
    · rw [if_pos hroom]
      exact ⟨StreamFrame.ofUpdate _ _ _, rfl, read_write_same _ _ _, fun a hne => read_write_other hne _ _⟩
  · rw [decTick_done (s := dropTurn s) hs, decodeDone]
    have hlen : (s.outBuf.readBytes 0 s.dec.opos.toNat).length = s.dec.opos.toNat := length_readBytes _ _ _
    have hend := finishOk_end (s := dropTurn s) (out := s.outBuf.readBytes 0 s.dec.opos.toNat) (resLen := 0)
      (resType := 0) (hasOvf := false) (hlen.trans_lt s.dec.opos.isLt) (by decide)
      (fun k hk => h.written ha k (hk.trans_eq hlen))
      (fun k hk => by rw [getD_readBytes (hk.trans_eq hlen), Nat.zero_add]; rfl)
    rwa [hlen] at hend

/-! ### The checks on the block's turns (R181, R184) -/

section
variable {s : State} (ha : s.active = .decoder) (ht : nextTurn s = .whole ∨ nextTurn s = .tick)
include ha ht

/-- A fetch that finds no instruction ends the command on either turn. -/
theorem step_fetch_error {e : FatalErr} (hf : fetch s = .error e) : step s = .next (decFatal e (dropTurn s)) := by
  rcases ht with ht | ht
  · have hfetch : fetch (dropTurn s) = .error e := hf
    simp only [step_of_whole ht, blockWhole, hfetch, raiseFetch, dropTurn_active, ha]
  · rw [step_decoder_tick ha ht]
    rcases fetch_decoder_cases ha with hd | ⟨hs, hlt, hd⟩ | ⟨hs, hlt, hd⟩ <;> rw [hd] at hf
    · cases hf
    · rw [decTick_header_error (s := dropTurn s) hs hlt (map_some_eq_error hf)]
    · rw [decTick_instruction_error (s := dropTurn s) hs hlt (map_some_eq_error hf)]

omit ha in
theorem step_block_next : ∃ t, step s = .next t := by
  rcases ht with ht | ht <;> simp only [step, ht, takeTurn]
  · exact blockWhole_next _
  · exact blockTick_next _

end

theorem exec_headerOf (y : SecType) (length : Half) (s : State) :
    exec (headerOf y length) s = .next (runSection (headerOf y length) s).state := by
  cases y <;> rfl

/-- A section whose payload does not fit ends the command on either turn (R181). -/
theorem step_header_truncated {s : State} (ha : s.active = .decoder) (hs : s.dec.state = .readingHeader)
    (hlt : s.dec.pc.toNat < s.n) (ht : nextTurn s = .whole ∨ nextTurn s = .tick) {y : SecType} {length : Half}
    (hf : fetchSection s = .ok (headerOf y length)) (hcut : s.n < s.dec.pc.toNat + 3 + length.toNat) :
    step s = .next (decFatal { kind := .truncatedStream, off := s.dec.pc.toNat } (dropTurn s)) := by
  have henter := enterSection_truncated y (s := dropTurn s) hcut
  rcases ht with ht | ht
  · rw [step_of_fetch ht (by rw [fetch_of_readingHeader ha hs hlt, hf]; rfl), exec_headerOf, runSection_headerOf, henter]
    rfl
  · rw [step_decoder_tick ha ht, decTick_header (s := dropTurn s) hs hlt hf, henter]
    rfl

/-- A tick enters a section whose payload fits (R181). -/
theorem step_header_fits {s : State} (ha : s.active = .decoder) (hs : s.dec.state = .readingHeader)
    (hlt : s.dec.pc.toNat < s.n) (ht : nextTurn s = .tick) {y : SecType} {length : Half}
    (hf : fetchSection s = .ok (headerOf y length)) (hfit : s.dec.pc.toNat + 3 + length.toNat ≤ s.n) :
    step s = .next (entered y length (dropTurn s)) := by
  rw [step_decoder_tick ha ht, decTick_header (s := dropTurn s) hs hlt hf,
    enterSection_fits y (s := dropTurn s) hfit, going_state]

theorem payloadState_eq (y : SecType) :
    payloadState y = if tagByte y = 0 then .copyingLiteral else .interpretingInstructions := by
  cases y <;> rfl

/-- A u16 of IN from the arithmetic of its two bytes (R10). -/
theorem in2_eq (s : State) (a : Nat) : s.in2 a = BitVec.ofNat 16 ((s.in1 a).toNat + 256 * (s.in1 (a + 1)).toNat) := by
  rw [State.in1, State.in1, ← le16_toNat, BitVec.ofNat_toNat, BitVec.setWidth_eq, State.in2]

/-- Settles O22: what the fetch finds at PC, then whether the payload fits. -/
theorem headerIsCheckedInOrder : Obligations.HeaderIsCheckedInOrder := by
  intro s ha hs hlt ht
  have hfetch := fetch_of_readingHeader ha hs hlt
  obtain ⟨t, hstep⟩ := step_block_next ht
  have hend {e : FatalErr} (he : e.off = s.dec.pc.toNat) (hstep' : step s = .next (decFatal e (dropTurn s))) :
      FatalEnd (dropTurn s) t e := by
    cases hstep.symm.trans hstep'
    exact decFatal_end e (dropTurn s) (he ▸ s.dec.pc.isLt)
  refine ⟨t, hstep, ?_⟩
  dsimp only
  cases hf : fetchSection s with
  | error e =>
    have hstep' := step_fetch_error ha ht (by rw [hfetch, hf]; rfl)
    rcases fetchSection_cases s with ⟨hshort, hf'⟩ | ⟨hfit, ⟨h0, h1, hf'⟩ | ⟨-, hf'⟩ | ⟨-, hf'⟩⟩ <;>
      cases hf.symm.trans hf'
    · rw [if_pos hshort]
      exact hend rfl hstep'
    · rw [if_neg (Nat.not_lt.mpr hfit), if_pos ⟨h0, h1⟩]
      exact hend rfl hstep'
  | ok i =>
    obtain ⟨y, htype, hfit, rfl⟩ := fetchSection_ok hf
    have hlength := in2_toNat s s.dec.pc.toNat
    rw [payloadLength] at hlength
    rw [if_neg (Nat.not_lt.mpr hfit), if_neg (htype ▸ tagByte_legal y), ← hlength]
    by_cases hcut : s.dec.pc.toNat + 3 + (s.in2 (s.dec.pc.toNat + 1)).toNat > s.n
    · rw [if_pos hcut]
      exact hend rfl (step_header_truncated ha hs hlt ht hf hcut)
    · rw [if_neg hcut]
      intro htick
      cases hstep.symm.trans (step_header_fits ha hs hlt htick hf (Nat.not_lt.mp hcut))
      rw [htype, ← payloadState_eq, BitVec.ofNat_toNat, BitVec.setWidth_eq]
      rfl

/-- Settles O23: what the fetch finds at the tag offset. -/
theorem instructionIsCheckedInOrder : Obligations.InstructionIsCheckedInOrder := by
  intro s h ha hs hlt ht
  have hpayload : InPayload s := by
    obtain ⟨hfit, hpos⟩ := h.inSection ha (by rw [hs]; rfl)
    exact ⟨hfit, hpos⟩
  have hfetch := fetch_of_interpreting ha hs hlt
  obtain ⟨t, hstep⟩ := step_block_next ht
  have hend {e : FatalErr} (he : e.off = tagOffset s) (hf : fetchInstruction s = .error e) :
      FatalEnd (dropTurn s) t e := by
    cases hstep.symm.trans (step_fetch_error ha ht (by rw [hfetch, hf]; rfl))
    exact decFatal_end e (dropTurn s) (he ▸ hpayload.tagOffset_lt hlt)
  have htagOffset : s.dec.pc.toNat + 3 + s.dec.payPos.toNat = tagOffset s := rfl
  refine ⟨t, hstep, ?_⟩
  rw [htagOffset]
  rcases fetchInstruction_cases s hlt with ⟨htag, hf⟩ | ⟨htag, ⟨hcut, hf⟩ | ⟨hfit, hf⟩⟩
  · rw [if_pos htag]
    exact hend rfl hf
  · rw [if_neg (not_not.mpr htag), if_pos hcut]
    exact hend rfl hf
  · rw [if_neg (not_not.mpr htag), if_neg (Nat.not_lt.mpr hfit)]
    intro htick
    rw [step_decoder_tick ha htick, decTick_instruction (s := dropTurn s) hs hlt hf, in2_eq] at hstep
    cases hstep
    rfl

/-! ### The ticks of a run (R189) -/

/-- A tick of the running decoder is a step of its table. -/
theorem ticks_succ_decoder {s : State} (ha : s.active = .decoder) (k : Nat) : ticks (k + 1) s = ticks k (decTick s) :=
  ticks_succ (by simp only [blockTick, ha, unitTick]) k

/-- While OUT has room, the ticks of a run emit the bytes of the closed form. -/
theorem ticks_emitted (k : Nat) {s : State} (ha : s.active = .decoder) (hs : s.dec.state = .emittingRun)
    (hv : s.dec.diVal = runByte s.dec.diStart s.dec.diDelta s.dec.diK.toNat)
    (hk : s.dec.diK.toNat + k ≤ s.dec.diCount.toNat) (hroom : s.dec.opos.toNat + k ≤ s.caps.outCap.toNat) :
    ticks k s = emitted s.dec.diStart s.dec.diDelta k s := by
  have hcount := s.dec.diCount.isLt
  have hcap := s.caps.outCap.isLt
  induction k generalizing s with
  | zero => exact (emitted_zero _ _ s hv).symm
  | succ k ih =>
    have hdiK : (emitted s.dec.diStart s.dec.diDelta 1 s).dec.diK.toNat = s.dec.diK.toNat + 1 :=
      ofNat16_toNat_add _ _ (by omega)
    have hopos : (emitted s.dec.diStart s.dec.diDelta 1 s).dec.opos.toNat = s.dec.opos.toNat + 1 :=
      ofNat32_toNat_add _ _ (by omega)
    have htick : decTick s = emitted s.dec.diStart s.dec.diDelta 1 s := by
      rw [decTick_run hs (by omega)]
      rcases emitRunByte_cases hv with ⟨hfull, -⟩ | ⟨-, he⟩
      · omega
      · rw [he, going_state]
    have hrest := ih (s := emitted s.dec.diStart s.dec.diDelta 1 s) ha hs (by rw [hdiK]; rfl)
      (by rw [hdiK]; exact (Nat.add_assoc _ 1 k).trans_le (Nat.add_comm 1 k ▸ hk))
      (by rw [hopos]; exact (Nat.add_assoc _ 1 k).trans_le (Nat.add_comm 1 k ▸ hroom)) hcount hcap
    rw [ticks_succ_decoder ha, htick, hrest, Nat.add_comm k 1]
    exact emitted_emitted _ _ 1 k s (by omega) (by omega)

/-- Settles O25, by the state that the ticks reach. -/
theorem runValueIsTheClosedForm : Obligations.RunValueIsTheClosedForm := by
  intro s k ha hs hk0 hv hk hroom
  have hcount := s.dec.diCount.isLt
  have hzero : s.dec.diK.toNat = 0 := by rw [hk0]; rfl
  have hlen : (runSlice s.dec.diStart s.dec.diDelta 0 k).length = k := length_runSlice _ _ _ _
  rw [ticks_emitted k ha hs (by rw [hv, hzero, runByte_zero]) (by omega) hroom]
  simp only [emitted, hzero, Nat.zero_add]
  refine ⟨hs, Nat.mod_eq_of_lt (by omega), rfl, fun x hx => ?_⟩
  rw [read_writeUp_inside _ _ (hlen.symm ▸ hx), runSlice_zero_eq, getD_runBytes _ _ hx]

end Sys2Proof.Machine
end

section
/-! PROOFS. The decoder's ticks against its whole runs (42_decoder.md R187, R188, R247): a run that goes on takes the ticks that the step
table counts (90_conflicts.md C8), one that ends takes some, and both reach the very state of the whole run. -/

namespace Sys2Proof.Machine

/-! ### The decoder at work -/

/-- The state with the decoder running, whoever ran before. -/
def atWork (s : State) : State := { s with active := .decoder }

theorem atWork_eq {s : State} (ha : s.active = .decoder) : atWork s = s := by
  rw [atWork, ← ha]

@[simp] theorem atWork_dec (s : State) : (atWork s).dec = s.dec := rfl
@[simp] theorem atWork_caps (s : State) : (atWork s).caps = s.caps := rfl
@[simp] theorem atWork_n (s : State) : (atWork s).n = s.n := rfl
@[simp] theorem atWork_in1 (s : State) (a : Nat) : (atWork s).in1 a = s.in1 a := rfl
@[simp] theorem atWork_tagOffset (s : State) : tagOffset (atWork s) = tagOffset s := rfl

/-- The flow with the decoder running where it goes on. -/
def Flow.atWork : Flow → Flow
  | .going s => .going (Machine.atWork s)
  | .ended s => .ended s

/-- Who runs the command is not seen by the decoder's actions. -/
theorem emitByte_atWork (b : Byte) (s : State) : emitByte b (atWork s) = (emitByte b s).atWork := by
  unfold emitByte memWrite
  rw [atWork_caps, atWork_dec]
  split_ifs <;> rfl

theorem atWork_andThen {r : Flow} {f : State → Flow} (hf : ∀ s, f (atWork s) = (f s).atWork) :
    r.atWork.andThen f = (r.andThen f).atWork := by
  cases r with
  | going s => exact hf s
  | ended s => rfl

theorem copyByte_atWork (s : State) : copyByte (atWork s) = (copyByte s).atWork := by
  rw [copyByte, atWork_in1, atWork_tagOffset, emitByte_atWork]
  exact atWork_andThen fun _ => rfl

theorem emitRunByte_atWork (s : State) : emitRunByte (atWork s) = (emitRunByte s).atWork := by
  rw [emitRunByte, emitByte_atWork]
  exact atWork_andThen fun _ => rfl

theorem enterSection_atWork (y : SecType) (length : Half) (s : State) :
    enterSection y length (atWork s) = (enterSection y length s).atWork := by
  unfold enterSection
  rw [atWork_dec, atWork_n]
  split_ifs <;> rfl

/-! ### Runs of ticks that stay before Done -/

/-- `k` ticks lead from `s` to `t`, and DEC_STATE is not Done before. -/
def TicksTo (k : Nat) (s t : State) : Prop := ticks k s = t ∧ ∀ j, j < k → (ticks j s).dec.state ≠ .done

theorem TicksTo.trans {j k : Nat} {s t u : State} (h : TicksTo j s t) (h' : TicksTo k t u) : TicksTo (j + k) s u := by
  obtain ⟨rfl, hj⟩ := h
  obtain ⟨rfl, hk⟩ := h'
  refine ⟨ticks_add j k s, fun i hi => ?_⟩
  rcases Nat.lt_or_ge i j with hlt | hge
  · exact hj i hlt
  · obtain ⟨i, rfl⟩ := Nat.exists_eq_add_of_le hge
    rw [ticks_add]
    exact hk i (by omega)

theorem ticksTo_one {s t : State} (hs : s.dec.state ≠ .done) (ht : decTick (atWork s) = t) : TicksTo 1 (atWork s) t := by
  refine ⟨(ticks_succ_decoder rfl 0).trans ht, fun j hj => ?_⟩
  obtain rfl : j = 0 := by omega
  exact hs

/-- The ticks of the running decoder go as the run `r` from `s` does: `k` of them to where it goes on, some to where it has ended. -/
def RunsIn (s : State) (k : Nat) : Flow → Prop
  | .going t => TicksTo k (atWork s) (atWork t)
  | .ended t => ∃ j, 0 < j ∧ TicksTo j (atWork s) t

/-- One tick. -/
theorem runsIn_one {s : State} {r : Flow} (hs : s.dec.state ≠ .done) (ht : decTick (atWork s) = r.atWork.state) :
    RunsIn s 1 r := by
  cases r with
  | going t => exact ticksTo_one hs ht
  | ended t => exact ⟨1, Nat.one_pos, ticksTo_one hs ht⟩

theorem RunsIn.andThen {s : State} {j k : Nat} {r : Flow} {f : State → Flow} (h : RunsIn s j r)
    (hf : ∀ t, r = .going t → RunsIn t k (f t)) : RunsIn s (j + k) (r.andThen f) := by
  cases r with
  | ended t => exact h
  | going t =>
    have hrest := hf t rfl
    rw [going_andThen]
    cases hr : f t with
    | going u =>
      rw [hr] at hrest
      exact h.trans hrest
    | ended u =>
      rw [hr] at hrest
      obtain ⟨i, hi, hrest⟩ := hrest
      exact ⟨j + i, by omega, h.trans hrest⟩

theorem RunsIn.of_eq {s : State} {k k' : Nat} {r : Flow} (h : RunsIn s k r) (hk : k = k') : RunsIn s k' r := hk ▸ h

/-- A run that has ended takes some number of ticks. -/
theorem RunsIn.of_ended {s : State} {k : Nat} {r : Flow} (h : RunsIn s k r) {e : FatalErr} (he : EndedIn s e r)
    (k' : Nat) : RunsIn s k' r := by
  obtain ⟨-, u, -, rfl⟩ := he
  exact h

/-! ### The ticks of a payload (R183 to R185) -/

theorem closeSection_runsIn {s : State} (hs : s.dec.state = .copyingLiteral ∨ s.dec.state = .interpretingInstructions)
    (hend : s.dec.payPos = s.dec.secLen) : RunsIn s 1 (.going (closeSection s)) :=
  runsIn_one (by rcases hs with hs | hs <;> simp [hs]) (decTick_payload_end (s := atWork s) hs hend)

theorem copyPayload_runsIn {k : Nat} {s : State} (hs : s.dec.state = .copyingLiteral)
    (hk : s.dec.payPos.toNat + k = s.dec.secLen.toNat) : RunsIn s (k + 1) (copyPayload k s) := by
  have hsec := s.dec.secLen.isLt
  induction k generalizing s with
  | zero => exact closeSection_runsIn (.inl hs) (BitVec.eq_of_toNat_eq hk)
  | succ k ih =>
    have hlt : s.dec.payPos.toNat < s.dec.secLen.toNat := by omega
    have hone : RunsIn s 1 (copyByte s) := by
      refine runsIn_one (by simp [hs]) ?_
      rw [← copyByte_atWork]
      exact decTick_copy (s := atWork s) hs hlt
    rw [Nat.add_comm (k + 1) 1]
    refine hone.andThen fun t ht => ?_
    rcases copyByte_cases s with ⟨-, he⟩ | ⟨-, he⟩ <;> cases he.symm.trans ht
    have hpos : (copied 1 s).dec.payPos.toNat = s.dec.payPos.toNat + 1 := ofNat16_toNat_add s.dec.payPos 1 (by omega)
    have hk' : (copied 1 s).dec.payPos.toNat + k = s.dec.secLen.toNat := by omega
    exact ih hs hk' hsec

/-- A step of the run loop by the accumulate-and-wrap datapath (R188, R189). -/
theorem emitRun_succ {s : State} (hv : s.dec.diVal = runByte s.dec.diStart s.dec.diDelta s.dec.diK.toNat) (n : Nat) :
    emitRun s.dec.diStart s.dec.diDelta (n + 1) s =
      (emitRunByte s).andThen (emitRun s.dec.diStart s.dec.diDelta n) := by
  rw [emitRun, emitRunByte, andThen_assoc, ← hv]
  rcases emitByte_cases s.dec.diVal s with ⟨-, he⟩ | ⟨-, he⟩ <;> rw [he]
  · rfl
  · simp only [going_andThen, runByte_succ, ← hv]

theorem emitRun_runsIn {n : Nat} {s : State} (hs : s.dec.state = .emittingRun)
    (hv : s.dec.diVal = runByte s.dec.diStart s.dec.diDelta s.dec.diK.toNat)
    (hn : s.dec.diK.toNat + n = s.dec.diCount.toNat) :
    RunsIn s (n + 1) (emitRun s.dec.diStart s.dec.diDelta n s) := by
  have hcount := s.dec.diCount.isLt
  induction n generalizing s with
  | zero =>
    exact runsIn_one (by simp [hs]) (decTick_run_end (s := atWork s) hs (BitVec.eq_of_toNat_eq hn))
  | succ n ih =>
    have hlt : s.dec.diK.toNat < s.dec.diCount.toNat := by omega
    have hone : RunsIn s 1 (emitRunByte s) := by
      refine runsIn_one (by simp [hs]) ?_
      rw [← emitRunByte_atWork]
      exact decTick_run (s := atWork s) hs hlt
    rw [emitRun_succ hv, Nat.add_comm (n + 1) 1]
    refine hone.andThen fun t ht => ?_
    rcases emitRunByte_cases hv with ⟨-, he⟩ | ⟨-, he⟩ <;> cases he.symm.trans ht
    have hdiK : (emitted s.dec.diStart s.dec.diDelta 1 s).dec.diK.toNat = s.dec.diK.toNat + 1 :=
      ofNat16_toNat_add s.dec.diK 1 (by omega)
    have hn' : (emitted s.dec.diStart s.dec.diDelta 1 s).dec.diK.toNat + n = s.dec.diCount.toNat := by omega
    exact ih (s := emitted s.dec.diStart s.dec.diDelta 1 s) hs (by rw [hdiK]; rfl) hn' hcount

/-- A loaded DELTAITER: a tick for each byte and one to leave it. -/
theorem runDeltaIter_runsIn (start : Byte) (count : Half) (delta : Byte) {s : State}
    (hs : s.dec.state = .interpretingInstructions) (hlt : s.dec.payPos.toNat < s.dec.secLen.toNat)
    (hf : fetchInstruction s = .ok (.deltaIter start count delta)) :
    RunsIn s (1 + (count.toNat + 1)) (runDeltaIter start count delta s) := by
  have hload : RunsIn s 1 (.going (loadDelta start count delta s)) :=
    runsIn_one (by simp [hs]) (decTick_instruction (s := atWork s) hs hlt hf)
  refine hload.andThen (f := emitRun start delta count.toNat) fun t ht => ?_
  cases ht
  exact emitRun_runsIn (s := loadDelta start count delta s) rfl (runByte_zero start delta).symm (Nat.zero_add _)

theorem interpret_end_runsIn {s : State} (hs : s.dec.state = .interpretingInstructions)
    (hend : s.dec.payPos.toNat = s.dec.secLen.toNat) (fuel : Nat) :
    RunsIn s
      (2 * ((s.dec.secLen.toNat - s.dec.payPos.toNat) / 5) +
        (codeResult (tagOffset s) (payloadLeft s)).1.length + 1)
      (interpret fuel s) := by
  rw [payloadLeft_end hend, interpret_end (Nat.not_lt.mpr hend.ge), hend, Nat.sub_self]
  exact closeSection_runsIn (.inr hs) (BitVec.eq_of_toNat_eq hend)

/-- The ticks of the loop of R184: two for each instruction, one for each byte, one to pass the section. -/
theorem interpret_runsIn {s : State} (hs : s.dec.state = .interpretingInstructions) (h : InPayload s) {fuel : Nat}
    (hfuel : s.dec.secLen.toNat - s.dec.payPos.toNat ≤ fuel) :
    RunsIn s
      (2 * ((s.dec.secLen.toNat - s.dec.payPos.toNat) / 5) +
        (codeResult (tagOffset s) (payloadLeft s)).1.length + 1)
      (interpret fuel s) := by
  induction fuel generalizing s with
  | zero =>
    exact interpret_end_runsIn hs (Nat.le_antisymm h.payPos (Nat.sub_eq_zero_iff_le.mp (Nat.le_zero.mp hfuel))) 0
  | succ fuel ih =>
    rcases h.payPos.lt_or_eq with hlt | hend
    · rcases instruction_cases hlt with ⟨kind, hf, hr⟩ | ⟨hfit, start, count, delta, hf, hr⟩
      · have hone : RunsIn s 1 (.ended (decFatal { kind := kind, off := tagOffset s } s)) :=
          runsIn_one (by simp [hs]) (decTick_instruction_error (s := atWork s) hs hlt hf)
        simp only [interpret, if_pos hlt, hf]
        exact hone
      · rw [interpret_instruction hlt hf, hr]
        have hpos := afterDelta_payPos hfit start count delta
        have hrest := ih (s := afterDelta start count delta s) rfl (h.afterDelta hfit start count delta)
          (by rw [hpos, afterDelta_secLen]; omega)
        refine ((runDeltaIter_runsIn start count delta hs hlt hf).andThen (f := interpret fuel) fun t ht => by
          obtain ⟨-, rfl⟩ := (runDeltaIter_means start count delta s).of_going ht
          exact hrest).of_eq ?_
        rw [hpos, afterDelta_secLen, Result.andThen, List.length_append, length_runBytes]
        omega
    · exact interpret_end_runsIn hs hend _

/-- The ticks of a payload after its header's, one of them to pass the section. -/
theorem runPayload_runsIn (y : SecType) {s : State} (hs : s.dec.state = payloadState y) (h : InPayload s) :
    RunsIn s
      (payloadSteps y (s.dec.secLen.toNat - s.dec.payPos.toNat) +
        (payloadResult y (tagOffset s) (payloadLeft s)).1.length + 1)
      (runPayload y (s.dec.secLen.toNat - s.dec.payPos.toNat) s) := by
  cases y with
  | data =>
    refine (copyPayload_runsIn hs (Nat.add_sub_cancel' h.payPos)).of_eq ?_
    simp [payloadSteps, payloadResult, payloadLeft]
  | code => exact interpret_runsIn hs h (Nat.le_refl _)

/-! ### The ticks of a section and of a stream (R181, R187) -/

section
variable {s : State} (hs : s.dec.state = .readingHeader) (hlt : s.dec.pc.toNat < s.n) {y : SecType} {length : Half}
  (hf : fetchSection s = .ok (headerOf y length))
include hs hlt hf

/-- A header: one tick enters its section or ends the command. -/
theorem enterSection_runsIn : RunsIn s 1 (enterSection y length s) := by
  refine runsIn_one (by simp [hs]) ?_
  rw [← enterSection_atWork]
  exact decTick_header (s := atWork s) hs hlt hf

/-- A section that is cut: its header's tick. -/
theorem runSection_runsIn_truncated (hcut : s.n < s.dec.pc.toNat + 3 + length.toNat) :
    RunsIn s 1 (runSection (headerOf y length) s) := by
  have henter := enterSection_runsIn hs hlt hf
  rw [enterSection_truncated y hcut] at henter
  rwa [runSection_headerOf, enterSection_truncated y hcut]

/-- A section: a tick for its header, and its payload's. -/
theorem runSection_runsIn (hfit : s.dec.pc.toNat + 3 + length.toNat ≤ s.n) :
    RunsIn s
      (1 + (payloadSteps y length.toNat +
        (payloadResult y (s.dec.pc.toNat + 3) (s.inBuf.readBytes (s.dec.pc.toNat + 3) length.toNat)).1.length + 1))
      (runSection (headerOf y length) s) := by
  rw [runSection_headerOf]
  refine (enterSection_runsIn hs hlt hf).andThen fun t ht => ?_
  cases (enterSection_fits y hfit).symm.trans ht
  exact runPayload_runsIn y rfl (inPayload_entered y hfit)

end

theorem decodeStream_header {s : State} (hlt : s.dec.pc.toNat < s.n) {i : Instr} (hf : fetchSection s = .ok i)
    (fuel : Nat) : decodeStream (fuel + 1) s = (runSection i s).andThen (decodeStream fuel) := by
  simp only [decodeStream, if_pos hlt, hf]

theorem decodeStream_end_runsIn {s : State} (hs : s.dec.state = .readingHeader) (hend : s.dec.pc.toNat = s.n)
    (fuel fuel' : Nat) :
    RunsIn s
      (streamSteps fuel (streamLeft s) + (streamResult fuel s.dec.pc.toNat (streamLeft s)).1.length + 1)
      (decodeStream (fuel' + 1) s) := by
  have hsteps : streamSteps fuel [] = 0 := by cases fuel <;> rfl
  rw [streamLeft_end hend, streamResult_nil, hsteps, decodeStream_end hend]
  exact runsIn_one (by simp [hs]) (decTick_header_end (s := atWork s) hs hend)

/-- The ticks of the loop of R187: those of C8. -/
theorem decodeStream_runsIn {s : State} (hs : s.dec.state = .readingHeader) (hpc : s.dec.pc.toNat ≤ s.n) {fuel : Nat}
    (hfuel : s.n - s.dec.pc.toNat ≤ fuel) :
    RunsIn s
      (streamSteps fuel (streamLeft s) + (streamResult fuel s.dec.pc.toNat (streamLeft s)).1.length + 1)
      (decodeStream (fuel + 1) s) := by
  induction fuel generalizing s with
  | zero => exact decodeStream_end_runsIn hs (by omega) 0 0
  | succ fuel ih =>
    rcases hpc.lt_or_eq with hlt | hend
    · rcases header_cases s with ⟨e, hf⟩ | ⟨y, length, hf, hcut, -⟩ | ⟨y, length, hahead⟩
      · have hone : RunsIn s 1 (.ended (decFatal e s)) :=
          runsIn_one (by simp [hs]) (decTick_header_error (s := atWork s) hs hlt hf)
        simp only [decodeStream, if_pos hlt, hf]
        exact hone
      · have hended := runSection_truncated y hcut
        rw [decodeStream_header hlt hf, hended.andThen_eq]
        exact (runSection_runsIn_truncated hs hlt hf hcut).of_ended hended _
      · have hfit := hahead.fit
        have hmeans := runSection_means y hfit
        have hsection := runSection_runsIn hs hlt hahead.fetch hfit
        rw [hahead.result, hahead.steps, decodeStream_header hlt hahead.fetch]
        generalize payloadResult y _ _ = p at hmeans hsection ⊢
        obtain ⟨out, e⟩ := p
        cases e with
        | some e =>
          obtain ⟨e', hended⟩ := hmeans.ended
          rw [hended.andThen_eq]
          exact hsection.of_ended hended _
        | none =>
          refine (hsection.andThen (f := decodeStream (fuel + 1)) fun t ht => by
            obtain ⟨hframe, hclosed⟩ := hmeans.of_going ht
            obtain ⟨hpc', hleft⟩ := streamLeft_closed hframe hclosed
            have hrest := ih (s := t) hclosed.state (by rw [hpc', hframe.n_eq]; exact hfit)
              (by rw [hpc', hframe.n_eq]; omega)
            rw [hleft, hpc'] at hrest
            exact hrest).of_eq ?_
          simp only [Result.andThen, List.length_append]
          omega
    · exact decodeStream_end_runsIn hs hend _ _

/-! ### The statements -/

/-- Of a decoder that runs, some ticks reach the very state of the run. -/
theorem RunsIn.ticks_eq {s : State} {k : Nat} {r : Flow} (h : RunsIn s k r) (hk : 0 < k) (ha : s.active = .decoder)
    (hgoing : ∀ t, r = .going t → StreamFrame s t) : ∃ j, 0 < j ∧ Machine.ticks j s = r.state := by
  cases r with
  | going t =>
    have hat : t.active = .decoder := (hgoing t rfl).active.trans ha
    refine ⟨k, hk, ?_⟩
    have hticks := h.1
    rwa [atWork_eq ha, atWork_eq hat] at hticks
  | ended t =>
    obtain ⟨j, hj, hticks, -⟩ := h
    exact ⟨j, hj, by rwa [atWork_eq ha] at hticks⟩

theorem map_some_eq_ok {r : Except FatalErr Instr} {i : Instr} (h : r.map some = .ok (some i)) : r = .ok i := by
  cases r <;> simp_all [Except.map]

/-- Settles O26: the ticks of the fetched section or DELTAITER go as its run does, which leaves the decoder running or has ended. -/
theorem wholeStreamInstructionIsItsTicks : Obligations.WholeStreamInstructionIsItsTicks := by
  intro s t i ha hf ht
  rcases fetch_decoder_cases ha with hd | ⟨hs, hlt, hd⟩ | ⟨hs, hlt, hd⟩ <;> rw [hd] at hf
  · cases hf
  · have hfetch := map_some_eq_ok hf
    obtain ⟨y, -, -, rfl⟩ := fetchSection_ok hfetch
    rw [exec_headerOf] at ht
    cases ht
    rcases Nat.lt_or_ge s.n (s.dec.pc.toNat + 3 + (s.in2 (s.dec.pc.toNat + 1)).toNat) with hcut | hfit
    · refine (runSection_runsIn_truncated hs hlt hfetch hcut).ticks_eq Nat.one_pos ha fun t ht => ?_
      obtain ⟨-, u, -, hu⟩ := runSection_truncated y hcut
      cases hu.symm.trans ht
    · exact (runSection_runsIn hs hlt hfetch hfit).ticks_eq (by omega) ha
        fun t ht => ((runSection_means y hfit).of_going ht).1
  · have hfetch := map_some_eq_ok hf
    rcases fetchInstruction_cases s hlt with ⟨-, hi⟩ | ⟨-, ⟨-, hi⟩ | ⟨-, hi⟩⟩ <;> cases hfetch.symm.trans hi
    cases ht
    exact (runDeltaIter_runsIn _ _ _ hs hlt hfetch).ticks_eq (by omega) ha
      fun t ht => ((runDeltaIter_means _ _ _ s).of_going ht).1

/-- The first byte of the CMD word is OP (R22). -/
theorem commandWord_op (s : State) : BitVec.ofNat 8 s.latch.cmd.toNat = cmdOp s.latch.cmd := by
  apply BitVec.eq_of_toNat_eq
  simp [cmdOp]

/-- OP 0x02 selects DECOMPRESS (R88). -/
theorem fetchCommand_decompress {s : State} (hop : cmdOp s.latch.cmd = 0x02) :
    ∃ type, fetchCommand s = .ok (.decompress type) :=
  ⟨_, by simp only [fetchCommand, commandWord, numberBytes, commandWord_op, hop]; rfl⟩

/-- A tick of an accepted DECOMPRESS makes the START check and starts the decoder. -/
theorem ticks_decompress {s : State} (ha : s.active = .accepted) (hop : cmdOp s.latch.cmd = 0x02) (k : Nat) :
    ticks (1 + k) s = ticks k (beginUnit .decoder startDecoder s) := by
  obtain ⟨type, hf⟩ := fetchCommand_decompress hop
  rw [Nat.add_comm]
  refine ticks_succ ?_ k
  simp only [blockTick, ha, hf]
  rfl

theorem beginUnit_decoder {s : State} (hn : s.n ≤ s.caps.inCap.toNat) :
    beginUnit .decoder startDecoder s = atWork (startDecoder s) := by
  rw [beginUnit, startError_none hn]
  rfl

/-- The ticks of DECOMPRESS from the decoder's start. -/
theorem decompress_runsIn (s : State) :
    RunsIn (startDecoder s) (streamSteps s.n s.input + (streamResult s.n 0 s.input).1.length + 1)
      (decodeStream (s.n + 1) (startDecoder s)) :=
  decodeStream_runsIn (s := startDecoder s) rfl (Nat.zero_le s.n) (Nat.le_refl s.n)

/-- From the started decoder some ticks reach the end of DECOMPRESS. -/
theorem reaches_runDecompress {s : State} (hn : s.n ≤ s.caps.inCap.toNat) :
    Reaches (atWork (startDecoder s)) (runDecompress s) := by
  have hruns := decompress_runsIn s
  cases hr : decodeStream (s.n + 1) (startDecoder s) with
  | ended t =>
    rw [hr] at hruns
    obtain ⟨j, -, hticks, -⟩ := hruns
    exact ⟨j, by rw [hticks, runDecompress_ended hn hr]⟩
  | going t =>
    rw [hr] at hruns
    have hdone := ((decompress_means s).of_going hr).2
    refine .trans ⟨_, hruns.1⟩ ⟨1, ?_⟩
    rw [ticks_succ_decoder rfl, decTick_done (s := atWork t) hdone, runDecompress_going hn hr]
    rfl

/-- Settles O27: the first tick makes the START check, the ticks of the stream go as the loop of R187 does, and the last ends the
command. -/
theorem decompressIsItsTicks : Obligations.DecompressIsItsTicks := by
  intro s t type ha hop ht
  cases ht
  rcases Nat.lt_or_ge s.caps.inCap.toNat s.n with hlt | hn
  · refine ⟨1, Nat.one_pos, (ticks_decompress ha hop 0).trans ?_⟩
    rw [beginUnit, startError_some hlt, runDecompress, startError_some hlt]
    rfl
  · obtain ⟨k, hk⟩ := reaches_runDecompress hn
    exact ⟨1 + k, by omega, by rw [ticks_decompress ha hop, beginUnit_decoder hn, hk]⟩

/-- Settles O29: a stream with no error that fits OUT is run to Done, by the ticks of `decompress_runsIn`. -/
theorem decoderTakesTheTablesSteps : Obligations.DecoderTakesTheTablesSteps := by
  intro s out ha hop hn hr hroom
  have hmeans := decompress_means s
  have hruns := decompress_runsIn s
  rw [hr] at hmeans hruns
  obtain ⟨len, t, hgoing, -, hdone⟩ :=
    hmeans.going (mt (overflows_startDecoder s out.length).mp (Nat.not_lt.mpr hroom))
  rw [hgoing] at hruns
  obtain ⟨hticks, hbefore⟩ := hruns
  have hstart (k : Nat) : ticks (1 + k) s = ticks k (atWork (startDecoder s)) := by
    rw [ticks_decompress ha hop, beginUnit_decoder hn]
  refine ⟨fun j hj => ?_, ?_, ?_, ?_⟩
  · rw [hstart]
    exact hbefore j (Nat.lt_succ_of_le hj)
  · rw [hstart, hticks]
    exact hdone
  · rw [hstart, hticks]
    rfl
  · rw [Nat.add_assoc, hstart, ticks_add, hticks, ticks_succ_decoder rfl, decTick_done (s := atWork t) hdone]
    rfl

end Sys2Proof.Machine
end

section
/-! PROOFS. The block's turn when no command runs (R227, R242), and the checks every accepted command meets first on that turn: OP (R89),
then A_LEN (R211). -/

namespace Sys2Proof.Machine

/-! ### No command runs -/

section
variable {s : State} (ha : s.active = .idle)
include ha

theorem blockTick_of_idle : blockTick s = .next s := by
  simp only [blockTick, unitTick, ha]

/-- An idle block stands at no instruction. -/
theorem blockWhole_of_idle : blockWhole s = .next s := by
  simp only [blockWhole, fetch, unitTick, ha]

end

/-- Settles O9: an idle block stands at no instruction and runs no unit. -/
theorem idleBlockDoesNothing : Obligations.IdleBlockDoesNothing := by
  intro s ha ht
  have hd : (dropTurn s).active = .idle := ha
  rcases ht with ht | ht <;> simp only [step, ht, takeTurn]
  · exact blockWhole_of_idle hd
  · exact blockTick_of_idle hd

/-! ### The START check ends every command (R211) -/

section
variable {s : State} {e : FatalErr} (h : startError s = some e)
include h

theorem runCommand_of_startError (f : State → CmdOutcome) : runCommand f s = raiseFatal e s := by
  simp only [runCommand, h]

theorem runCompress_of_startError : runCompress s = raiseFatal e s := by
  simp only [runCompress, h]

theorem runDecompress_of_startError : runDecompress s = raiseFatal e s := by
  simp only [runDecompress, h]

theorem beginUnit_of_startError (unit : Active) (start : State → State) :
    beginUnit unit start s = raiseFatal e s := by
  simp only [beginUnit, h]

theorem exec_of_startError {i : Instr} (hi : i.level = .cmdRegister) : exec i s = .next (raiseFatal e s) := by
  cases i with
  | data | code | deltaIter => cases hi
  | compress => exact congrArg _ (runCompress_of_startError h)
  | decompress => exact congrArg _ (runDecompress_of_startError h)
  | encodeHeader | tryMakeSection | makeSection | readHeader | readPayload | merge =>
    exact congrArg _ (runCommand_of_startError h _)

/-- The step machine makes the check before it starts a unit. -/
theorem beginCommand_of_startError {i : Instr} (hi : i.level = .cmdRegister) :
    beginCommand i s = .next (raiseFatal e s) := by
  rcases beginCommand_cases i s with hb | hb | hb <;> rw [hb]
  · rw [beginUnit_of_startError h]
  · rw [beginUnit_of_startError h]
  · exact exec_of_startError h hi

end

/-! ### The first turn of an accepted command -/

section
variable {s : State} {e : FatalErr} (ha : s.active = .accepted) (ht : nextTurn s = .whole ∨ nextTurn s = .tick)
include ha ht

/-- An illegal OP ends the command on either turn (R89). -/
theorem step_of_fetchCommand_error (hf : fetchCommand s = .error e) :
    step s = .next (raiseFatal e (dropTurn s)) := by
  have hd : (dropTurn s).active = .accepted := ha
  have hfd : fetchCommand (dropTurn s) = .error e := hf
  rcases ht with ht | ht <;> simp only [step, ht, takeTurn]
  · simp only [blockWhole, fetch_of_accepted hd, hfd, Except.map, raiseFetch, hd]
  · simp only [blockTick, hd, hfd]

/-- The START check ends a command with a legal OP on either turn (R211). -/
theorem step_of_startError {i : Instr} (hf : fetchCommand s = .ok i) (hi : i.level = .cmdRegister)
    (h : startError s = some e) : step s = .next (raiseFatal e (dropTurn s)) := by
  have hd : (dropTurn s).active = .accepted := ha
  have hfd : fetchCommand (dropTurn s) = .ok i := hf
  have hstart : startError (dropTurn s) = some e := h
  rcases ht with ht | ht
  · rw [step_of_fetch ht (by rw [fetch_of_accepted ha, hf]; rfl)]
    exact exec_of_startError hstart hi
  · simp only [step, ht, takeTurn, blockTick, hd, hfd]
    exact beginCommand_of_startError hstart hi

end

/-- Settles O48: a legal OP leaves A_LEN as the only reason, and each of the two checks raises on either turn. -/
theorem startChecksEndInBadCommand : Obligations.StartChecksEndInBadCommand := by
  intro s ha ht hbad
  refine ⟨raiseFatal { kind := .badCommand, off := 0 } (dropTurn s), ?_, raiseFatal_end _ _ (by decide)⟩
  rcases fetchCommand_cases s with ⟨-, hf⟩ | ⟨hpos, hle, i, hf, hi⟩
  · exact step_of_fetchCommand_error ha ht hf
  · have hcap : s.n > s.caps.inCap.toNat := by
      rcases hbad with h0 | h9 | hcap
      · rw [h0] at hpos
        exact absurd hpos (by decide)
      · omega
      · exact hcap
    exact step_of_startError ha ht hf hi (startError_some hcap)

end Sys2Proof.Machine
end

section
/-! PROOFS. Every command ends (70_reset_and_hazards.md R248): a run of the block comes back with its command ended, and each tick of a
unit ends the command or lowers a rank, which starts within the bound on the command's ticks. -/

namespace Sys2Proof.Machine

/-! ### A command that has ended (R42) -/

/-- No command runs, and the host reads DONE = 1 and BUSY = 0. -/
structure Ended (s : State) : Prop where
  active : s.active = .idle
  done : doneBit s.regs.status = true
  busy : busyBit s.regs.status = false

theorem ended_finishOk (outLen resLen : Nat) (resType : Byte) (hasOvf : Bool) (s : State) :
    Ended (finishOk outLen resLen resType hasOvf s) := ⟨rfl, by simp [statusOk], by simp [statusOk]⟩

theorem ended_finishFail (s : State) : Ended (finishFail s) := ⟨rfl, by simp [statusFail], by simp [statusFail]⟩

theorem ended_raiseFatal (e : FatalErr) (s : State) : Ended (raiseFatal e s) :=
  ⟨rfl, by simp [statusFatal], by simp [statusFatal]⟩

theorem ended_decFatal (e : FatalErr) (s : State) : Ended (decFatal e s) := ended_raiseFatal e _

theorem ended_encFatal (e : FatalErr) (s : State) : Ended (encFatal e s) := ended_raiseFatal e _

/-! ### Run whole -/

theorem ended_complete (o : CmdOutcome) (s : State) : Ended (complete o s) := by
  cases o with
  | ok out resLen resType hasOvf =>
    rcases memWrite_cases 0 out s with ⟨-, hw⟩ | ⟨-, hw⟩ <;> simp only [complete, hw]
    · exact ended_raiseFatal _ s
    · exact ended_finishOk _ _ _ _ _
  | fail => exact ended_finishFail s
  | fatal e => exact ended_raiseFatal e s

theorem ended_runCommand (f : State → CmdOutcome) (s : State) : Ended (runCommand f s) := by
  rcases runCommand_cases f s with ⟨-, hr⟩ | ⟨-, hr⟩ <;> rw [hr]
  · exact ended_raiseFatal _ s
  · exact ended_complete (f s) s

theorem ended_runCompress (s : State) : Ended (runCompress s) := by
  rcases runCompress_cases s with ⟨-, hr⟩ | ⟨-, -, hr⟩ | ⟨-, -, hr⟩ <;> rw [hr]
  · exact ended_raiseFatal _ s
  · exact ended_encFatal _ _
  · exact ended_finishOk _ _ _ _ _

/-- A run over a stretch of the stream that has ended has ended the command. -/
theorem Means.ended_state {s t : State} {P : State → Prop} {p : List Byte × Option FatalErr}
    (h : Means s P p (.ended t)) : Ended t := by
  have hfatal {e : FatalErr} (he : EndedIn s e (.ended t)) : Ended t := by
    obtain ⟨-, u, -, hu⟩ := he
    cases hu
    exact ended_decFatal e u
  cases h with
  | full _ he => exact hfatal he
  | error _ he => exact hfatal he

theorem ended_runDecompress (s : State) : Ended (runDecompress s) := by
  rcases Nat.lt_or_ge s.caps.inCap.toNat s.n with hcap | hn
  · rw [runDecompress_of_startError (startError_some hcap)]
    exact ended_raiseFatal _ s
  · have hmeans := decompress_means s
    cases hr : decodeStream (s.n + 1) (startDecoder s) with
    | going t =>
      rw [runDecompress_going hn hr]
      exact ended_finishOk _ _ _ _ t
    | ended t =>
      rw [runDecompress_ended hn hr]
      rw [hr] at hmeans
      exact hmeans.ended_state

theorem exec_ends {i : Instr} (hi : i.level = .cmdRegister) (s : State) : ∃ t, exec i s = .next t ∧ Ended t := by
  cases i with
  | data | code | deltaIter => cases hi
  | compress => exact ⟨_, rfl, ended_runCompress s⟩
  | decompress => exact ⟨_, rfl, ended_runDecompress s⟩
  | encodeHeader | tryMakeSection | makeSection | readHeader | readPayload | merge =>
    exact ⟨_, rfl, ended_runCommand _ s⟩

/-! ### Runs of ticks that end -/

/-- At most `k` ticks end the command. -/
def EndsWithin (k : Nat) (s : State) : Prop := ∃ j, j ≤ k ∧ Ended (ticks j s)

theorem Ended.endsWithin {s : State} (h : Ended s) (k : Nat) : EndsWithin k s := ⟨0, Nat.zero_le k, h⟩

theorem EndsWithin.mono {j k : Nat} {s : State} (h : EndsWithin j s) (hjk : j ≤ k) : EndsWithin k s := by
  obtain ⟨i, hi, hended⟩ := h
  exact ⟨i, hi.trans hjk, hended⟩

theorem EndsWithin.tick {k : Nat} {s t : State} (ht : blockTick s = .next t) (h : EndsWithin k t) :
    EndsWithin (k + 1) s := by
  obtain ⟨j, hj, hended⟩ := h
  exact ⟨j + 1, Nat.succ_le_succ hj, by rwa [ticks_succ ht]⟩

/-- A tick from `s` to `t` ends the command, or the unit runs on at a lower rank. -/
def Descends (unit : Active) (rank : State → Nat) (s t : State) : Prop :=
  Ended t ∨ (t.active = unit ∧ rank t < rank s)

/-- A unit whose ticks descend ends its command within its rank, and one tick more. -/
theorem endsWithin_of_descends {unit : Active} {rank : State → Nat} {Inv : State → Prop}
    (hkeeps : ∀ {s t}, Inv s → blockTick s = .next t → Inv t)
    (hdescends : ∀ {s t}, Inv s → s.active = unit → blockTick s = .next t → Descends unit rank s t)
    {s : State} (h : Inv s) (ha : s.active = unit) : EndsWithin (rank s + 1) s := by
  induction hrank : rank s using Nat.strong_induction_on generalizing s with
  | h k ih =>
    obtain ⟨t, ht⟩ := blockTick_next s
    rcases hdescends h ha ht with hended | ⟨hat, hlt⟩
    · exact .tick ht (hended.endsWithin k)
    · rw [hrank] at hlt
      exact .tick ht ((ih _ hlt (hkeeps h ht) hat rfl).mono hlt)

/-! ### The decoder's rank (R188) -/

/-- How far the decoder is from its end: 16384 for each byte of the stream still to read, which the at most 65535 bytes and 2 steps of a
DELTAITER's 5 payload bytes stay within, and what is left of the run under way. -/
def decRank (s : State) : Nat :=
  match s.dec.state with
  | .readingHeader => 16384 * (s.n - s.dec.pc.toNat) + 1
  | .copyingLiteral | .interpretingInstructions => 16384 * (s.n - tagOffset s) + 2
  | .emittingRun => 16384 * (s.n - tagOffset s) + (s.dec.diCount.toNat - s.dec.diK.toNat) + 3
  | .idle | .done | .fatal => 0

section
variable {s : State}

theorem decRank_readingHeader (hs : s.dec.state = .readingHeader) :
    decRank s = 16384 * (s.n - s.dec.pc.toNat) + 1 := by
  rw [decRank, hs]

theorem decRank_payload (hs : s.dec.state = .copyingLiteral ∨ s.dec.state = .interpretingInstructions) :
    decRank s = 16384 * (s.n - tagOffset s) + 2 := by
  rcases hs with hs | hs <;> rw [decRank, hs]

theorem decRank_emittingRun (hs : s.dec.state = .emittingRun) :
    decRank s = 16384 * (s.n - tagOffset s) + (s.dec.diCount.toNat - s.dec.diK.toNat) + 3 := by
  rw [decRank, hs]

variable (h : DecoderInv s) (ha : s.active = .decoder)
include h ha

theorem descends_header (hs : s.dec.state = .readingHeader) : Descends .decoder decRank s (decTick s) := by
  have hrank := decRank_readingHeader hs
  rcases (h.pc ha).lt_or_eq with hlt | hend
  · rcases header_cases s with ⟨e, hf⟩ | ⟨y, length, hf, hcut, -⟩ | ⟨y, length, hahead⟩
    · rw [decTick_header_error hs hlt hf]
      exact .inl (ended_decFatal e s)
    · rw [decTick_header hs hlt hf, enterSection_truncated y hcut]
      exact .inl (ended_decFatal _ s)
    · rw [decTick_header hs hlt hahead.fetch, enterSection_fits y hahead.fit]
      refine .inr ⟨ha, ?_⟩
      have hentered : decRank (entered y length s) = 16384 * (s.n - (s.dec.pc.toNat + 3)) + 2 :=
        decRank_payload (by cases y; exacts [.inl rfl, .inr rfl])
      have hfit := hahead.fit
      rw [going_state]
      omega
  · rw [decTick_header_end hs hend, Descends, hrank]
    exact .inr ⟨ha, Nat.succ_pos _⟩

theorem descends_section_end (hs : s.dec.state = .copyingLiteral ∨ s.dec.state = .interpretingInstructions)
    (hend : s.dec.payPos.toNat = s.dec.secLen.toNat) : Descends .decoder decRank s (closeSection s) := by
  have hn := s.latch.aLen.isLt
  obtain ⟨hfit, -⟩ := h.inSection ha (by rcases hs with hs | hs <;> rw [hs] <;> rfl)
  have hpc : (closeSection s).dec.pc.toNat = tagOffset s := by
    rw [tagOffset, hend]
    exact Nat.mod_eq_of_lt (hfit.trans_lt hn)
  have hclosed : decRank (closeSection s) = 16384 * (s.n - (closeSection s).dec.pc.toNat) + 1 :=
    decRank_readingHeader rfl
  refine .inr ⟨ha, ?_⟩
  rw [decRank_payload hs, hclosed, hpc]
  exact Nat.lt_succ_self _

theorem descends_copy (hs : s.dec.state = .copyingLiteral) : Descends .decoder decRank s (decTick s) := by
  obtain ⟨hfit, hle⟩ := h.inSection ha (by rw [hs]; rfl)
  have hsec := s.dec.secLen.isLt
  rcases hle.lt_or_eq with hlt | hend
  · rw [decTick_copy hs hlt]
    rcases copyByte_cases s with ⟨-, he⟩ | ⟨-, he⟩ <;> rw [he]
    · exact .inl (ended_decFatal _ s)
    · refine .inr ⟨ha, ?_⟩
      have hpos : (copied 1 s).dec.payPos.toNat = s.dec.payPos.toNat + 1 := ofNat16_toNat_add _ _ (by omega)
      have htag : tagOffset (copied 1 s) = s.dec.pc.toNat + 3 + (copied 1 s).dec.payPos.toNat := rfl
      have htag' : tagOffset s = s.dec.pc.toNat + 3 + s.dec.payPos.toNat := rfl
      have hcopied : decRank (copied 1 s) = 16384 * (s.n - tagOffset (copied 1 s)) + 2 := decRank_payload (.inl hs)
      rw [decRank_payload (.inl hs), going_state, hcopied]
      omega
  · rw [decTick_payload_end (.inl hs) (BitVec.eq_of_toNat_eq hend)]
    exact descends_section_end h ha (.inl hs) hend

theorem descends_interpret (hs : s.dec.state = .interpretingInstructions) :
    Descends .decoder decRank s (decTick s) := by
  obtain ⟨hin, hle⟩ := h.inSection ha (by rw [hs]; rfl)
  have hsec := s.dec.secLen.isLt
  rcases hle.lt_or_eq with hlt | hend
  · rcases fetchInstruction_cases s hlt with ⟨-, hf⟩ | ⟨-, ⟨-, hf⟩ | ⟨hfit, hf⟩⟩
    · rw [decTick_instruction_error hs hlt hf]
      exact .inl (ended_decFatal _ s)
    · rw [decTick_instruction_error hs hlt hf]
      exact .inl (ended_decFatal _ s)
    · rw [decTick_instruction hs hlt hf]
      generalize s.in1 (tagOffset s + 1) = start, s.in2 (tagOffset s + 2) = count, s.in1 (tagOffset s + 4) = delta
      refine .inr ⟨ha, ?_⟩
      have hcount := count.isLt
      have hpos : (loadDelta start count delta s).dec.payPos.toNat = s.dec.payPos.toNat + 5 :=
        ofNat16_toNat_add s.dec.payPos 5 (by omega)
      have htag : tagOffset (loadDelta start count delta s) =
          s.dec.pc.toNat + 3 + (loadDelta start count delta s).dec.payPos.toNat := rfl
      have htag' : tagOffset s = s.dec.pc.toNat + 3 + s.dec.payPos.toNat := rfl
      have hloaded : decRank (loadDelta start count delta s) =
          16384 * (s.n - tagOffset (loadDelta start count delta s)) + (count.toNat - 0) + 3 :=
        decRank_emittingRun rfl
      rw [decRank_payload (.inr hs), hloaded]
      omega
  · rw [decTick_payload_end (.inr hs) (BitVec.eq_of_toNat_eq hend)]
    exact descends_section_end h ha (.inr hs) hend

theorem descends_run (hs : s.dec.state = .emittingRun) : Descends .decoder decRank s (decTick s) := by
  obtain ⟨hle, hv⟩ := h.run ha hs
  have hcount := s.dec.diCount.isLt
  have hrank := decRank_emittingRun hs
  rcases hle.lt_or_eq with hlt | hend
  · rw [decTick_run hs hlt]
    rcases emitRunByte_cases hv with ⟨-, he⟩ | ⟨-, he⟩ <;> rw [he]
    · exact .inl (ended_decFatal _ s)
    · refine .inr ⟨ha, ?_⟩
      have hk : (emitted s.dec.diStart s.dec.diDelta 1 s).dec.diK.toNat = s.dec.diK.toNat + 1 :=
        ofNat16_toNat_add _ _ (by omega)
      have hemitted : decRank (emitted s.dec.diStart s.dec.diDelta 1 s) =
          16384 * (s.n - tagOffset s) +
            (s.dec.diCount.toNat - (emitted s.dec.diStart s.dec.diDelta 1 s).dec.diK.toNat) + 3 :=
        decRank_emittingRun hs
      rw [going_state]
      omega
  · rw [decTick_run_end hs (BitVec.eq_of_toNat_eq hend)]
    have hclosed : decRank (closeDelta s) = 16384 * (s.n - tagOffset s) + 2 := decRank_payload (.inr rfl)
    exact .inr ⟨ha, by omega⟩

theorem decTick_descends : Descends .decoder decRank s (decTick s) := by
  obtain ⟨hidle, hfatal⟩ := h.running ha
  cases hs : s.dec.state with
  | idle => exact absurd hs hidle
  | fatal => exact absurd hs hfatal
  | readingHeader => exact descends_header h ha hs
  | copyingLiteral => exact descends_copy h ha hs
  | interpretingInstructions => exact descends_interpret h ha hs
  | emittingRun => exact descends_run h ha hs
  | done =>
    rw [decTick_done hs]
    exact .inl (ended_finishOk _ _ _ _ s)

/-- A running decoder ends its command. -/
theorem decoder_endsWithin : EndsWithin (decRank s + 1) s := by
  refine endsWithin_of_descends (fun h ht => h.block (.inr ht)) (fun {s t} h ha ht => ?_) h ha
  simp only [blockTick, ha, unitTick] at ht
  cases ht
  exact decTick_descends h ha

end

/-! ### The encoder's rank (R150) -/

/-- How far the encoder is from its end: a byte of the input still to read stands for the at most 3 ticks of its round and the folds of
its at most 2 raw sections, a raw section for its fold, and the accumulator for putting it out. -/
def encRank (s : State) : Nat :=
  match s.enc.state with
  | .detect => 8 * (s.n - s.enc.anchor.toNat) + 2 * s.enc.raw.length + 5
  | .emitCode | .emitLiteral | .emitTail => 8 * (s.n - s.enc.anchor.toNat) + 2 * s.enc.raw.length + 4
  | .emitBreak => 8 * (s.n - s.enc.j.toNat) + 2 * s.enc.raw.length + 4
  | .flush => 2 * s.enc.raw.length + s.acc.valid.toNat + 1
  | .idle | .done | .fatal => 0

section
variable {s : State}

theorem encRank_detect (hs : s.enc.state = .detect) :
    encRank s = 8 * (s.n - s.enc.anchor.toNat) + 2 * s.enc.raw.length + 5 := by
  rw [encRank, hs]

theorem encRank_emit (hs : s.enc.state = .emitCode ∨ s.enc.state = .emitLiteral ∨ s.enc.state = .emitTail) :
    encRank s = 8 * (s.n - s.enc.anchor.toNat) + 2 * s.enc.raw.length + 4 := by
  rcases hs with hs | hs | hs <;> rw [encRank, hs]

theorem encRank_emitBreak (hs : s.enc.state = .emitBreak) :
    encRank s = 8 * (s.n - s.enc.j.toNat) + 2 * s.enc.raw.length + 4 := by
  rw [encRank, hs]

theorem encRank_flush (hs : s.enc.state = .flush) :
    encRank s = 2 * s.enc.raw.length + s.acc.valid.toNat + 1 := by
  rw [encRank, hs]

/-- Back in Detect with one raw section more: the rank at the new anchor. -/
theorem encRank_emitted (e : EncRegs) (x : Section) (anchor : Word) :
    encRank { s with enc := { e with state := .detect, raw := s.enc.raw ++ [x], anchor := anchor } } =
      8 * (s.n - anchor.toNat) + 2 * s.enc.raw.length + 7 := by
  rw [encRank_detect rfl, List.length_append, List.length_singleton]
  rfl

end

section
variable {s : State} (h : EncoderInv s) (ha : s.active = .encoder)
include h ha

omit h in
theorem descends_detect (hs : s.enc.state = .detect) : Descends .encoder encRank s (encTick s) := by
  have hrank := encRank_detect hs
  rcases Nat.lt_trichotomy (s.enc.anchor.toNat + 1) s.n with hfit | htail | hend
  · obtain ⟨e, he, hstate, hanchor, -, -, hraw, -⟩ := detect_measures hs hfit
    rw [he]
    refine .inr ⟨ha, ?_⟩
    have hemit : encRank { s with enc := e } = 8 * (s.n - e.anchor.toNat) + 2 * e.raw.length + 4 :=
      encRank_emit (by split_ifs at hstate; exacts [.inl hstate, .inr (.inl hstate)])
    rw [hrank, hemit, hanchor, hraw]
    exact Nat.lt_succ_self _
  · rw [encTick_detect_tail hs htail, Descends, hrank, encRank_emit (.inr (.inr rfl))]
    exact .inr ⟨ha, Nat.lt_succ_self _⟩
  · rw [encTick_detect_end hs (by omega), Descends, hrank, encRank_flush rfl]
    have hvalid := Bool.toNat_le s.acc.valid
    refine .inr ⟨ha, ?_⟩
    split_ifs <;> simp only [List.length_append, List.length_singleton] <;> omega

theorem descends_emitCode (hs : s.enc.state = .emitCode) : Descends .encoder encRank s (encTick s) := by
  obtain ⟨hlo, hhi, -, -⟩ := h.run ha (.inl hs)
  by_cases hlt : s.enc.j.toNat < s.n
  · rw [encTick_emitCode_break hs hlt, Descends, encRank_emit (.inl hs), encRank_emitBreak rfl]
    refine .inr ⟨ha, ?_⟩
    change 8 * (s.n - s.enc.j.toNat) + 2 * (s.enc.raw ++ [_]).length + 4 < _
    rw [List.length_append, List.length_singleton]
    omega
  · rw [encTick_emitCode_end hs hlt, Descends, encRank_emit (.inl hs), encRank_emitted]
    have hend : s.latch.aLen.toNat = s.n := rfl
    exact .inr ⟨ha, by omega⟩

theorem descends_emitBreak (hs : s.enc.state = .emitBreak) : Descends .encoder encRank s (encTick s) := by
  have hlt := h.breakByte ha hs
  have hnext : (BitVec.ofNat 32 (s.enc.j.toNat + 1)).toNat = s.enc.j.toNat + 1 := toNat_ofNat_of_le_n hlt
  rw [encTick_emitBreak hs, Descends, encRank_emitBreak hs, encRank_emitted]
  exact .inr ⟨ha, by omega⟩

theorem descends_emitLiteral (hs : s.enc.state = .emitLiteral) : Descends .encoder encRank s (encTick s) := by
  obtain ⟨hlo, hhi, -, -⟩ := h.run ha (.inr hs)
  rw [encTick_emitLiteral hs, Descends, encRank_emit (.inr (.inl hs)), encRank_emitted]
  exact .inr ⟨ha, by omega⟩

theorem descends_emitTail (hs : s.enc.state = .emitTail) : Descends .encoder encRank s (encTick s) := by
  have htail := h.tail ha hs
  have hend : s.latch.aLen.toNat = s.n := rfl
  rw [encTick_emitTail hs, Descends, encRank_emit (.inr (.inr hs)), encRank_emitted]
  exact .inr ⟨ha, by omega⟩

theorem descends_flush (hs : s.enc.state = .flush) : Descends .encoder encRank s (encTick s) := by
  have hrank := encRank_flush hs
  cases hraw : s.enc.raw with
  | cons x rest =>
    have hx := h.sections ha x (List.mem_append_left _ (hraw ▸ List.mem_cons_self))
    obtain ⟨more, y, -, -, he⟩ := flushFold_bounded hx rest s
    have htick : encTick s = flushFold x rest s := by simp only [encTick, hs, tickFlush, hraw]
    have hfolded : encRank
        { s with enc := { s.enc with raw := rest, outs := s.enc.outs ++ more }, acc := accOf y } =
        2 * rest.length + 1 + 1 := encRank_flush hs
    rw [htick, he, Descends, hfolded, hrank, hraw, List.length_cons]
    exact .inr ⟨ha, by omega⟩
  | nil =>
    cases hv : s.acc.valid with
    | true =>
      have hput : encRank
          { s with
            enc := { s.enc with outs := s.enc.outs ++ [s.acc.asSection] }, acc := { s.acc with valid := false } } =
          2 * s.enc.raw.length + 0 + 1 := encRank_flush hs
      rw [encTick_flush_last hs hraw hv, Descends, hput, hrank, hv]
      exact .inr ⟨ha, Nat.lt_succ_self _⟩
    | false =>
      rcases encTick_flush_write hs hraw hv with ⟨-, he⟩ | ⟨-, he⟩ <;> rw [he]
      · exact .inl (ended_encFatal _ s)
      · exact .inr ⟨ha, hrank ▸ Nat.succ_pos _⟩

theorem encTick_descends : Descends .encoder encRank s (encTick s) := by
  obtain ⟨hidle, hfatal⟩ := h.running ha
  cases hs : s.enc.state with
  | idle => exact absurd hs hidle
  | fatal => exact absurd hs hfatal
  | detect => exact descends_detect ha hs
  | emitCode => exact descends_emitCode h ha hs
  | emitBreak => exact descends_emitBreak h ha hs
  | emitLiteral => exact descends_emitLiteral h ha hs
  | emitTail => exact descends_emitTail h ha hs
  | flush => exact descends_flush h ha hs
  | done =>
    rw [encTick_done hs]
    exact .inl (ended_finishOk _ _ _ _ s)

/-- A running encoder ends its command. -/
theorem encoder_endsWithin : EndsWithin (encRank s + 1) s := by
  refine endsWithin_of_descends (fun h ht => h.block (.inr ht)) (fun {s t} h ha ht => ?_) h ha
  simp only [blockTick, ha, unitTick] at ht
  cases ht
  exact encTick_descends h ha

end

/-! ### From the accepted command to its end -/

theorem beginUnit_encoder_endsWithin (s : State) : EndsWithin (8 * s.n + 6) (beginUnit .encoder startEncoder s) := by
  have hinv := EncoderInv.beginUnit_encoder s
  rcases beginUnit_cases .encoder startEncoder s with hb | ⟨-, hb⟩ <;> rw [hb] at hinv ⊢
  · exact (ended_raiseFatal _ s).endsWithin _
  · exact encoder_endsWithin hinv rfl

theorem beginUnit_decoder_endsWithin (s : State) :
    EndsWithin (16384 * s.n + 2) (beginUnit .decoder startDecoder s) := by
  have hinv := DecoderInv.beginUnit_decoder s
  rcases beginUnit_cases .decoder startDecoder s with hb | ⟨-, hb⟩ <;> rw [hb] at hinv ⊢
  · exact (ended_raiseFatal _ s).endsWithin _
  · exact decoder_endsWithin hinv rfl

/-- The step machine ends a command it has begun. -/
theorem beginCommand_endsWithin {i : Instr} (hi : i.level = .cmdRegister) {s t : State}
    (ht : beginCommand i s = .next t) : EndsWithin (16384 * s.n + 7) t := by
  rcases beginCommand_cases i s with hb | hb | hb <;> rw [hb] at ht
  · cases ht
    exact (beginUnit_encoder_endsWithin s).mono (by omega)
  · cases ht
    exact (beginUnit_decoder_endsWithin s).mono (by omega)
  · obtain ⟨u, hu, hended⟩ := exec_ends hi s
    cases hu.symm.trans ht
    exact hended.endsWithin _

theorem accepted_endsWithin {s : State} (ha : s.active = .accepted) : EndsWithin (16384 * s.n + 8) s := by
  obtain ⟨t, ht⟩ := blockTick_next s
  refine .tick ht ?_
  rcases fetchCommand_cases s with ⟨-, hf⟩ | ⟨-, -, i, hf, hi⟩ <;> simp only [blockTick, ha, hf] at ht
  · cases ht
    exact (ended_raiseFatal _ s).endsWithin _
  · exact beginCommand_endsWithin hi ht

/-- Settles O13: run whole, every way a command can go comes to one of its ends; by the step machine, the ranks of the units bound the
ticks. -/
theorem everyCommandEnds : Obligations.EveryCommandEnds := by
  refine ⟨fun i s hi => ?_, fun s ha => ?_⟩
  · obtain ⟨t, ht, hended⟩ := exec_ends hi s
    exact ⟨t, ht, hended.active, hended.done, hended.busy⟩
  · obtain ⟨k, hk, hended⟩ := accepted_endsWithin ha
    exact ⟨k, hk, hended.active, hended.done, hended.busy⟩

end Sys2Proof.Machine
end

section
/-! PROOFS. The operand registers and the block (70_reset_and_hazards.md R245): the block reads only the latched operands, so
replacing the registers' values commutes with each of its updates and leaves each of its reads alone; hence with its turns. -/

namespace Sys2Proof.Machine

/-! ### The operand registers replaced -/

/-- `withOperandRegs` with its five values in one structure. -/
def withOperands (r : Latch) (s : State) : State := withOperandRegs r.cmd r.aLen r.aOff r.bOff r.pLen s

/-- A unit's run with the operand registers replaced in the state it has reached. -/
def Flow.withOperands (r : Latch) : Flow → Flow
  | .going s => .going (Machine.withOperands r s)
  | .ended s => .ended (Machine.withOperands r s)

section
variable (r : Latch)

/-! #### What the block reads -/

@[simp] theorem withOperands_dec (s : State) : (withOperands r s).dec = s.dec := rfl
@[simp] theorem withOperands_enc (s : State) : (withOperands r s).enc = s.enc := rfl
@[simp] theorem withOperands_acc (s : State) : (withOperands r s).acc = s.acc := rfl
@[simp] theorem withOperands_caps (s : State) : (withOperands r s).caps = s.caps := rfl
@[simp] theorem withOperands_active (s : State) : (withOperands r s).active = s.active := rfl
@[simp] theorem withOperands_n (s : State) : (withOperands r s).n = s.n := rfl
@[simp] theorem withOperands_in1 (s : State) (a : Nat) : (withOperands r s).in1 a = s.in1 a := rfl
@[simp] theorem withOperands_input (s : State) : (withOperands r s).input = s.input := rfl
@[simp] theorem withOperands_startError (s : State) : startError (withOperands r s) = startError s := rfl
@[simp] theorem withOperands_tagOffset (s : State) : tagOffset (withOperands r s) = tagOffset s := rfl
@[simp] theorem withOperands_fetchSection (s : State) : fetchSection (withOperands r s) = fetchSection s := rfl
@[simp] theorem withOperands_fetchInstruction (s : State) :
    fetchInstruction (withOperands r s) = fetchInstruction s := rfl
@[simp] theorem withOperands_fetchCommand (s : State) : fetchCommand (withOperands r s) = fetchCommand s := rfl
@[simp] theorem withOperands_fetch (s : State) : fetch (withOperands r s) = fetch s := rfl

/-! #### A unit's run and a write of OUT -/

theorem withOperands_state (f : Flow) : (f.withOperands r).state = withOperands r f.state := by
  cases f <;> rfl

theorem withOperands_andThen {f : Flow} {g : State → Flow}
    (hg : ∀ s, g (withOperands r s) = (g s).withOperands r) :
    (f.withOperands r).andThen g = (f.andThen g).withOperands r := by
  cases f with
  | going s => exact hg s
  | ended s => rfl

theorem memWrite_withOperands (a : Nat) (bytes : List Byte) (s : State) :
    memWrite a bytes (withOperands r s) = (memWrite a bytes s).map (withOperands r) := by
  rw [memWrite, memWrite, withOperands_caps]
  split_ifs <;> rfl

/-! #### The decoder -/

theorem emitByte_withOperands (b : Byte) (s : State) :
    emitByte b (withOperands r s) = (emitByte b s).withOperands r := by
  rw [emitByte, emitByte, withOperands_dec, memWrite_withOperands]
  cases memWrite s.dec.opos.toNat [b] s <;> rfl

theorem copyByte_withOperands (s : State) : copyByte (withOperands r s) = (copyByte s).withOperands r := by
  rw [copyByte, withOperands_in1, withOperands_tagOffset, emitByte_withOperands]
  exact withOperands_andThen r fun _ => rfl

theorem emitRunByte_withOperands (s : State) : emitRunByte (withOperands r s) = (emitRunByte s).withOperands r := by
  rw [emitRunByte, emitByte_withOperands]
  exact withOperands_andThen r fun _ => rfl

theorem enterSection_withOperands (y : SecType) (length : Half) (s : State) :
    enterSection y length (withOperands r s) = (enterSection y length s).withOperands r := by
  unfold enterSection
  rw [withOperands_dec, withOperands_n]
  split_ifs <;> rfl

theorem copyPayload_withOperands (k : Nat) (s : State) :
    copyPayload k (withOperands r s) = (copyPayload k s).withOperands r := by
  induction k generalizing s with
  | zero => rfl
  | succ k ih =>
    rw [copyPayload, copyByte_withOperands]
    exact withOperands_andThen r ih

theorem emitRun_withOperands (start delta : Byte) (left : Nat) (s : State) :
    emitRun start delta left (withOperands r s) = (emitRun start delta left s).withOperands r := by
  induction left generalizing s with
  | zero => rfl
  | succ left ih =>
    rw [emitRun, withOperands_dec, emitByte_withOperands]
    exact withOperands_andThen r fun t => ih { t with
      dec := { t.dec with
        diK := BitVec.ofNat 16 (t.dec.diK.toNat + 1)
        diVal := runByte start delta (t.dec.diK.toNat + 1) } }

theorem runDeltaIter_withOperands (start : Byte) (count : Half) (delta : Byte) (s : State) :
    runDeltaIter start count delta (withOperands r s) = (runDeltaIter start count delta s).withOperands r :=
  emitRun_withOperands r start delta count.toNat (loadDelta start count delta s)

theorem runInstruction_withOperands (i : Instr) (s : State) :
    runInstruction i (withOperands r s) = (runInstruction i s).withOperands r := by
  cases i with
  | deltaIter start count delta => exact runDeltaIter_withOperands r start count delta s
  | _ => rfl

theorem interpret_withOperands (fuel : Nat) (s : State) :
    interpret fuel (withOperands r s) = (interpret fuel s).withOperands r := by
  induction fuel generalizing s with
  | zero => rfl
  | succ fuel ih =>
    rw [interpret, interpret, withOperands_dec, withOperands_fetchInstruction]
    split_ifs
    · cases fetchInstruction s with
      | error e => rfl
      | ok i =>
        dsimp only
        rw [runInstruction_withOperands]
        exact withOperands_andThen r ih
    · rfl

theorem runData_withOperands (length : Half) (s : State) :
    runData length (withOperands r s) = (runData length s).withOperands r := by
  rw [runData, enterSection_withOperands]
  exact withOperands_andThen r (copyPayload_withOperands r _)

theorem runCode_withOperands (length : Half) (s : State) :
    runCode length (withOperands r s) = (runCode length s).withOperands r := by
  rw [runCode, enterSection_withOperands]
  exact withOperands_andThen r (interpret_withOperands r _)

theorem runSection_withOperands (i : Instr) (s : State) :
    runSection i (withOperands r s) = (runSection i s).withOperands r := by
  cases i with
  | data length => exact runData_withOperands r length s
  | code length => exact runCode_withOperands r length s
  | _ => rfl

theorem decodeStream_withOperands (fuel : Nat) (s : State) :
    decodeStream fuel (withOperands r s) = (decodeStream fuel s).withOperands r := by
  induction fuel generalizing s with
  | zero => rfl
  | succ fuel ih =>
    rw [decodeStream, decodeStream, withOperands_dec, withOperands_n, withOperands_fetchSection]
    split_ifs
    · cases fetchSection s with
      | error e => rfl
      | ok i =>
        dsimp only
        rw [runSection_withOperands]
        exact withOperands_andThen r ih
    · rfl

theorem runDecompress_withOperands (s : State) : runDecompress (withOperands r s) = withOperands r (runDecompress s) := by
  have hrun : decodeStream (s.n + 1) (startDecoder (withOperands r s)) =
      (decodeStream (s.n + 1) (startDecoder s)).withOperands r := decodeStream_withOperands r _ (startDecoder s)
  rw [runDecompress, runDecompress, withOperands_startError, withOperands_n, hrun]
  cases startError s with
  | some e => rfl
  | none => cases decodeStream (s.n + 1) (startDecoder s) <;> rfl

theorem enterInstr_withOperands (i : Instr) (s : State) :
    enterInstr i (withOperands r s) = (enterInstr i s).withOperands r := by
  cases i with
  | data length => exact enterSection_withOperands r .data length s
  | code length => exact enterSection_withOperands r .code length s
  | _ => rfl

theorem tickHeader_withOperands (s : State) : tickHeader (withOperands r s) = withOperands r (tickHeader s) := by
  rw [tickHeader, tickHeader, withOperands_dec, withOperands_n, withOperands_fetchSection]
  split_ifs
  · cases fetchSection s with
    | error e => rfl
    | ok i =>
      dsimp only
      rw [enterInstr_withOperands, withOperands_state]
  · rfl

theorem tickInterpret_withOperands (s : State) :
    tickInterpret (withOperands r s) = withOperands r (tickInterpret s) := by
  rw [tickInterpret, tickInterpret, withOperands_dec, withOperands_fetchInstruction]
  split_ifs
  · cases fetchInstruction s with
    | error e => rfl
    | ok i => cases i <;> rfl
  · rfl

theorem decTick_withOperands (s : State) : decTick (withOperands r s) = withOperands r (decTick s) := by
  rw [decTick, decTick, withOperands_dec]
  cases s.dec.state with
  | idle | fatal | done => rfl
  | readingHeader => exact tickHeader_withOperands r s
  | interpretingInstructions => exact tickInterpret_withOperands r s
  | copyingLiteral =>
    dsimp only
    rw [copyByte_withOperands, withOperands_state]
    split_ifs <;> rfl
  | emittingRun =>
    dsimp only
    rw [emitRunByte_withOperands, withOperands_state]
    split_ifs <;> rfl

/-! #### The framer -/

theorem complete_withOperands (o : CmdOutcome) (s : State) :
    complete o (withOperands r s) = withOperands r (complete o s) := by
  cases o with
  | ok out resLen resType hasOvf =>
    rw [complete, complete, memWrite_withOperands]
    cases memWrite 0 out s <;> rfl
  | fail => rfl
  | fatal e => rfl

theorem runCommand_withOperands {f : State → CmdOutcome} {s : State} (hf : f (withOperands r s) = f s) :
    runCommand f (withOperands r s) = withOperands r (runCommand f s) := by
  rw [runCommand, runCommand, withOperands_startError, hf, complete_withOperands]
  cases startError s <;> rfl

/-! #### The encoder -/

theorem runCompress_withOperands (s : State) : runCompress (withOperands r s) = withOperands r (runCompress s) := by
  have hwrite : memWrite 0 (compress s.input) (startEncoder (withOperands r s)) =
      (memWrite 0 (compress s.input) (startEncoder s)).map (withOperands r) :=
    memWrite_withOperands r 0 _ (startEncoder s)
  rw [runCompress, runCompress, withOperands_startError, withOperands_input]
  dsimp only
  rw [hwrite]
  cases startError s with
  | some e => rfl
  | none => cases memWrite 0 (compress s.input) (startEncoder s) <;> rfl

theorem tickDetect_withOperands (s : State) : tickDetect (withOperands r s) = withOperands r (tickDetect s) := by
  unfold tickDetect
  rw [withOperands_enc, withOperands_n, withOperands_input]
  dsimp only
  split_ifs <;> rfl

theorem tickEmitCode_withOperands (s : State) : tickEmitCode (withOperands r s) = withOperands r (tickEmitCode s) := by
  unfold tickEmitCode
  rw [withOperands_enc, withOperands_n]
  split_ifs <;> rfl

theorem flushWrite_withOperands (s : State) : flushWrite (withOperands r s) = withOperands r (flushWrite s) := by
  rw [flushWrite, flushWrite, withOperands_enc, memWrite_withOperands]
  cases memWrite 0 (serialize s.enc.outs) s <;> rfl

theorem flushFold_withOperands (x : Section) (rest : List Section) (s : State) :
    flushFold x rest (withOperands r s) = withOperands r (flushFold x rest s) := by
  rw [flushFold, flushFold, withOperands_acc]
  split_ifs
  · rcases mergeSame s.acc.asSection x with ⟨m, o⟩
    cases o <;> rfl
  · rfl
  · rfl

theorem tickFlush_withOperands (s : State) : tickFlush (withOperands r s) = withOperands r (tickFlush s) := by
  rw [tickFlush, tickFlush, withOperands_enc, withOperands_acc]
  cases s.enc.raw with
  | cons x rest => exact flushFold_withOperands r x rest s
  | nil =>
    dsimp only
    rw [flushWrite_withOperands]
    split_ifs <;> rfl

theorem encTick_withOperands (s : State) : encTick (withOperands r s) = withOperands r (encTick s) := by
  rw [encTick, encTick, withOperands_enc]
  cases s.enc.state with
  | idle | emitBreak | emitLiteral | emitTail | done | fatal => rfl
  | detect => exact tickDetect_withOperands r s
  | emitCode => exact tickEmitCode_withOperands r s
  | flush => exact tickFlush_withOperands r s

/-! #### The block's turns -/

theorem exec_withOperands {i : Instr} {s t : State} (h : exec i s = .next t) :
    exec i (withOperands r s) = .next (withOperands r t) := by
  cases i <;> cases h
  case data => simp only [exec, execData, runData_withOperands, withOperands_state]
  case code => simp only [exec, execCode, runCode_withOperands, withOperands_state]
  case deltaIter => simp only [exec, execDeltaIter, runDeltaIter_withOperands, withOperands_state]
  case compress => exact congrArg _ (runCompress_withOperands r s)
  case decompress => exact congrArg _ (runDecompress_withOperands r s)
  case encodeHeader | tryMakeSection | makeSection | readHeader | readPayload | merge =>
    exact congrArg _ (runCommand_withOperands r rfl)

theorem unitTick_withOperands (s : State) : unitTick (withOperands r s) = withOperands r (unitTick s) := by
  rw [unitTick, unitTick, withOperands_active]
  cases s.active with
  | idle | accepted => rfl
  | encoder => exact encTick_withOperands r s
  | decoder => exact decTick_withOperands r s

theorem raiseFetch_withOperands (e : FatalErr) (s : State) :
    raiseFetch e (withOperands r s) = withOperands r (raiseFetch e s) := by
  rw [raiseFetch, raiseFetch, withOperands_active]
  cases s.active <;> rfl

theorem beginUnit_withOperands {unit : Active} {start : State → State}
    (hstart : ∀ s, start (withOperands r s) = withOperands r (start s)) (s : State) :
    beginUnit unit start (withOperands r s) = withOperands r (beginUnit unit start s) := by
  rw [beginUnit, beginUnit, withOperands_startError, hstart]
  cases startError s <;> rfl

/-- Which of the three `beginCommand` does rests on the command alone. -/
theorem beginCommand_forms (i : Instr) :
    beginCommand i = (fun s => .next (beginUnit .encoder startEncoder s)) ∨
    beginCommand i = (fun s => .next (beginUnit .decoder startDecoder s)) ∨
    beginCommand i = exec i := by
  cases i with
  | compress => exact .inl rfl
  | decompress => exact .inr (.inl rfl)
  | _ => exact .inr (.inr rfl)

theorem beginCommand_withOperands {i : Instr} {s t : State} (h : beginCommand i s = .next t) :
    beginCommand i (withOperands r s) = .next (withOperands r t) := by
  rcases beginCommand_forms i with hb | hb | hb <;> rw [hb] at h ⊢
  · cases h
    exact congrArg _ (beginUnit_withOperands r (start := startEncoder) (fun _ => rfl) s)
  · cases h
    exact congrArg _ (beginUnit_withOperands r (start := startDecoder) (fun _ => rfl) s)
  · exact exec_withOperands r h

theorem blockWhole_withOperands {s t : State} (h : blockWhole s = .next t) :
    blockWhole (withOperands r s) = .next (withOperands r t) := by
  rw [blockWhole] at h ⊢
  rw [withOperands_fetch]
  cases hf : fetch s with
  | error e =>
    rw [hf] at h
    cases h
    exact congrArg _ (raiseFetch_withOperands r e s)
  | ok i =>
    rw [hf] at h
    cases i with
    | none =>
      cases h
      exact congrArg _ (unitTick_withOperands r s)
    | some i => exact exec_withOperands r h

theorem blockTick_withOperands {s t : State} (h : blockTick s = .next t) :
    blockTick (withOperands r s) = .next (withOperands r t) := by
  rcases blockTick_cases s with ⟨ha, ⟨i, hf, hb⟩ | ⟨e, hf, hb⟩⟩ | ⟨ha, hb⟩ <;> rw [hb] at h
  · simp only [blockTick, withOperands_active, ha, withOperands_fetchCommand, hf]
    exact beginCommand_withOperands r h
  · cases h
    simp only [blockTick, withOperands_active, ha, withOperands_fetchCommand, hf]
    rfl
  · cases h
    rcases blockTick_cases (withOperands r s) with ⟨ha', -⟩ | ⟨-, hb'⟩
    · exact absurd ha' ha
    · rw [hb', unitTick_withOperands]

end

/-- Settles O11: the block's turns commute with replacing the operand registers, which the schedule does not see. -/
theorem operandWritesDoNotReachTheRunningCommand : Obligations.OperandWritesDoNotReachTheRunningCommand := by
  intro s t cmd aLen aOff bOff pLen hturn h
  have hnext : nextTurn (withOperands ⟨cmd, aLen, aOff, bOff, pLen⟩ s) = nextTurn s := rfl
  change step (withOperands ⟨cmd, aLen, aOff, bOff, pLen⟩ s) = .next (withOperands ⟨cmd, aLen, aOff, bOff, pLen⟩ t)
  rcases hturn with hturn | hturn <;> simp only [step, hnext, hturn, takeTurn] at h ⊢
  · exact blockWhole_withOperands _ h
  · exact blockTick_withOperands _ h

end Sys2Proof.Machine
end
